-- ==== Sys2Proof/Word.lean ====
section
/-! DEFINITION. The words of the block: bytes, byte strings, 2-bit levels, nibbles and the 17-bit cursor
(spec/00_scope.md R10, R11; spec/10_state.md R22). Every quantity is unsigned (R10). -/

namespace Sys2Proof

/-- A byte, bit 0 least significant (R10). -/
abbrev Byte := BitVec 8

/-- A byte string, indexed from 0 (R11). -/
abbrev Bytes := List Byte

/-- A pixel level, 0 to 3 (R14, Pixel Sample). -/
abbrev Level := BitVec 2

/-- Half a byte, the value of one hex character (spec/41_hex_codec.md R143). -/
abbrev Nibble := BitVec 4

/-- The width of `POS`: `POS_BITS` = 17 (R8, R22). -/
abbrev Cursor := BitVec 17

end Sys2Proof
end

