-- ==== Sys2Proof/Config.lean ====
section
/-! DEFINITION. The parameters of the block (spec/00_scope.md R7, R8): what an implementation fixes. A `Params` is
carried, never written, in the machine's state, so that a statement about every state is a statement about every
admissible choice of the open parameters, and the small instances of spec/95_test_vectors.md can be run. -/

namespace Sys2Proof

/-- The four 2-bit fields of a packed byte, by their bit position (spec/20_memory.md R52: 6, 4, 2, 0). -/
inductive BitPos where
  | p6 | p4 | p2 | p0
  deriving DecidableEq, Repr

/-- `PACK_POS` (R8, R52): the field that holds the pixel of in-run index 0, 1, 2, 3. -/
structure PackPos where
  k0 : BitPos
  k1 : BitPos
  k2 : BitPos
  k3 : BitPos
  deriving DecidableEq, Repr

/-- Reason texts by token: `REASON_DISP(f)` and `REASON_FATAL(u)` of R8 as plain data, the tokens named one by one and
one text for every other. -/
structure ReasonTable where
  named : List (Nat × Bytes)
  other : Bytes
  deriving DecidableEq, Repr

/-- The parameters of R7 and R8 as configuration fields. `BPP` and `SAMPLE_BITS` are the widths of the types `Level` and
`Byte`, and `PPB` the number of levels that `FC.PACK` takes: admissible parameters agree with them (log entry 8). The
times and the link speed are read by no rule of a model without time (R181, R290; log entry 23). -/
structure Params where
  /-- `WIDTH` -/
  width : Nat
  /-- `HEIGHT` -/
  height : Nat
  /-- `FRAME_SIZE` -/
  frameSize : Nat
  /-- `BPP`, bits per pixel -/
  bpp : Nat
  /-- `PPB`, pixels per byte -/
  ppb : Nat
  /-- `SAMPLE_BITS`, bits of one raster sample -/
  sampleBits : Nat
  /-- `T1`, `T2`, `T3` -/
  t1 : Nat
  t2 : Nat
  t3 : Nat
  /-- `Q_BOUNDARY`: a sample equal to a threshold takes the upper level (D8). -/
  qUpper : Bool
  /-- `PACK_POS` (D9). -/
  packPos : PackPos
  /-- `HEX_UPPER_OK` (D12). -/
  hexUpperOk : Bool
  /-- `LINE_MAX` (D6). -/
  lineMax : Nat
  /-- `CHUNK_RAW` -/
  chunkRaw : Nat
  /-- `BAUD`, link speed -/
  baud : Nat
  /-- `T_CHUNK_ACK`, seconds: the wait's end is an event (log entry 17). -/
  tChunkAck : Nat
  /-- `T_HANDSHAKE`, seconds -/
  tHandshake : Nat
  /-- `T_BACKOFF`, seconds -/
  tBackoff : Nat
  /-- `T_TOGGLE`, `T_BLINK`, `T_POLL` (D19, D26) -/
  tToggle : Nat
  tBlink : Nat
  tPoll : Nat
  /-- `N_TOGGLE` (D19). -/
  nToggle : Nat
  /-- `N_HANDSHAKE` -/
  nHandshake : Nat
  /-- `REASON_HEX` (D14). -/
  reasonHex : Bytes
  /-- `REASON_DISP(f)` (D14). -/
  reasonDisp : ReasonTable
  /-- `REASON_FATAL(u)` (D14). -/
  reasonFatal : ReasonTable
  deriving DecidableEq, Repr

/-- `N_TOGGLE` of the machine after reset: OPEN in R8 with no default, a FREE VALUE (log entry 6). -/
opaque Config.nToggle : Nat

/-- `CHUNK_HEX` (R7): hex characters per chunk line. -/
def Params.chunkHex (p : Params) : Nat := 2 * p.chunkRaw

/-- `T_TOGGLE`, `T_BLINK`, `T_POLL`: OPEN in R8, no rule depends on them; free values (log entry 6). -/
opaque Config.tToggle : Nat
opaque Config.tBlink : Nat
opaque Config.tPoll : Nat

/-- The default `PACK_POS(k) = 6 - 2k` (D9). -/
def Config.packPos : PackPos := { k0 := .p6, k1 := .p4, k2 := .p2, k3 := .p0 }

/-- The other order the source alludes to, `PACK_POS(k) = 2k` (R52). -/
def Config.packPosReversed : PackPos := { k0 := .p0, k1 := .p2, k2 := .p4, k3 := .p6 }

/-- The default `REASON_HEX`, `INVALID_HEX` (spec/30_encoding.md R92). -/
def Config.reasonHex : Bytes := [0x49, 0x4E, 0x56, 0x41, 0x4C, 0x49, 0x44, 0x5F, 0x48, 0x45, 0x58]

/-- The default `REASON_DISP(f)`, `DISPLAY` (R92). -/
def Config.reasonDisp : Bytes := [0x44, 0x49, 0x53, 0x50, 0x4C, 0x41, 0x59]

/-- The default `REASON_FATAL(u)`, `UNCLASSIFIED` (R92). -/
def Config.reasonFatal : Bytes :=
  [0x55, 0x4E, 0x43, 0x4C, 0x41, 0x53, 0x53, 0x49, 0x46, 0x49, 0x45, 0x44]

/-- The parameters of this hardware: the values of R7, the decided values and defaults of R8, `N_TOGGLE` and the
open periods free. -/
def Config.params : Params where
  width := 800
  height := 480
  frameSize := 96000
  bpp := 2
  ppb := 4
  sampleBits := 8
  t1 := 64
  t2 := 128
  t3 := 192
  qUpper := true
  packPos := Config.packPos
  hexUpperOk := true
  lineMax := 1024
  chunkRaw := 512
  baud := 115200
  tChunkAck := 3
  tHandshake := 2
  tBackoff := 2
  tToggle := Config.tToggle
  tBlink := Config.tBlink
  tPoll := Config.tPoll
  nToggle := Config.nToggle
  nHandshake := 5
  reasonHex := Config.reasonHex
  reasonDisp := { named := [], other := Config.reasonDisp }
  reasonFatal := { named := [], other := Config.reasonFatal }

end Sys2Proof
end

