-- ==== Sys2Proof/Syntax.lean ====
section
/-! DEFINITION. The instructions: one constructor per row of spec/opcode_table.json, the 27 operations of
spec/30_encoding.md R101 and the ten device-to-host messages of R90, with the operands their rules name. -/

namespace Sys2Proof

/-- The values of `STATE` (spec/10_state.md R21). They decide how a received line is classified
(spec/30_encoding.md R89), as a mode bit would. -/
inductive DevState where
  | boot | signalReady | waitQuery | receiving | refresh | fatal
  deriving DecidableEq, Repr

/-- The values of `RPHASE` (R28): the driver call that `Refresh` makes next. -/
inductive RPhase where
  | init | display | sleep
  deriving DecidableEq, Repr

/-- A raster (spec/00_scope.md R11): `height` rows of `width` samples, row 0 first. -/
structure Raster where
  width : Nat
  height : Nat
  rows : List Bytes
  deriving DecidableEq, Repr

/-- The allocator's answer, the draw of `BT.ALLOC` (spec/42_transfer_server.md R160). -/
inductive AllocAnswer where
  | ok | fail
  deriving DecidableEq, Repr

/-- The driver's answer to a call, `ok` or `fail(f)` with an opaque token `f` (R176). -/
inductive DriverAnswer where
  | ok | fail (f : Nat)
  deriving DecidableEq, Repr

/-- The error result of FC (spec/40_frame_codec.md R124). -/
inductive FcError where
  | sizeMismatch
  deriving DecidableEq, Repr

/-- The error result of HX (spec/41_hex_codec.md R145). -/
inductive HxError where
  | invalidHex
  deriving DecidableEq, Repr

/-- The instructions. A line operation carries the operand that its rule reads out of the line; an operation on an
environment answer carries that answer; a message carries its reason where it has one. -/
inductive Instr where
  /-- `FC.QUANT` R121 -/
  | fcQuant (v : Byte)
  /-- `FC.PACK` R122 -/
  | fcPack (l0 l1 l2 l3 : Level)
  /-- `FC.ENCODE` R123 -/
  | fcEncode (raster : Raster)
  /-- `HX.ENC_BYTE` R141 -/
  | hxEncByte (b : Byte)
  /-- `HX.ENCODE` R142 -/
  | hxEncode (p : Bytes)
  /-- `HX.DEC_PAIR` R144 -/
  | hxDecPair (c0 c1 : Byte)
  /-- `HX.DECODE` R145 -/
  | hxDecode (text : Bytes)
  /-- `BT.ALLOC` R160 -/
  | btAlloc (r : AllocAnswer)
  /-- `BT.LEAVE` R161 -/
  | btLeave
  /-- `SR.TOGGLE` R162 -/
  | srToggle
  /-- `SR.DONE` R163 -/
  | srDone
  /-- `WQ.IDLE` R164 -/
  | wqIdle
  /-- `WQ.BLANK` R165 -/
  | wqBlank
  /-- `WQ.CAN_SEND` R166 -/
  | wqCanSend
  /-- `WQ.CAN_SEND.BUSY` R167 -/
  | wqCanSendBusy
  /-- `WQ.OTHER` R168 -/
  | wqOther (c : Bytes)
  /-- `RX.IDLE` R170 -/
  | rxIdle
  /-- `RX.BLANK` R171 -/
  | rxBlank
  /-- `RX.CHUNK` R172 -/
  | rxChunk (b : Bytes)
  /-- `RX.CHUNK.LAST` R173 -/
  | rxChunkLast (b : Bytes)
  /-- `RX.BADHEX` R174 -/
  | rxBadHex (c : Bytes)
  /-- `RX.OVERFLOW` R175 -/
  | rxOverflow (b : Bytes)
  /-- `RF.INIT` R176 -/
  | rfInit (r : DriverAnswer)
  /-- `RF.DISPLAY` R177 -/
  | rfDisplay (r : DriverAnswer)
  /-- `RF.SLEEP` R178 -/
  | rfSleep (r : DriverAnswer)
  /-- `FT.ENTER` R179 -/
  | ftEnter (u : Nat)
  /-- `FT.BLINK` R180 -/
  | ftBlink
  /-- `MSG.YES` R90 -/
  | msgYes
  /-- `MSG.BUSY` R90 -/
  | msgBusy
  /-- `MSG.OK` R90 -/
  | msgOk
  /-- `MSG.ERR_OVERFLOW` R90 -/
  | msgErrOverflow
  /-- `MSG.ERR` R90, R91 -/
  | msgErr (reason : Bytes)
  /-- `MSG.ERR_DISP` R90, R91 -/
  | msgErrDisp (reason : Bytes)
  /-- `MSG.ERR_MEM` R90 -/
  | msgErrMem
  /-- `MSG.DONE` R90 -/
  | msgDone
  /-- `MSG.FATAL` R90, R91 -/
  | msgFatal (reason : Bytes)
  /-- `MSG.READY` R90, R95(c) -/
  | msgReady
  deriving DecidableEq, Repr

end Sys2Proof
end

