-- ==== Sys2Proof/Machine/Operands.lean ====
section
/-! DEFINITION. Operand forms and the pure units: the line layer's bytes (spec/30_encoding.md R80 to R87), the literals
(R84), unit HX (spec/41_hex_codec.md) and unit FC (spec/40_frame_codec.md). No state is read here (R20). -/

namespace Sys2Proof

/-! ### Lines -/

/-- EOL, the line feed that ends every line (R81). -/
def eol : Byte := 0x0A

/-- Membership of `WS`: space, tab, carriage return (R87). -/
def isWs (b : Byte) : Bool := b == 0x20 || b == 0x09 || b == 0x0D

/-- `TRIM` (R87): the bytes of `WS` removed from both ends, those inside kept. -/
def trim (raw : Bytes) : Bytes := ((raw.dropWhile isWs).reverse.dropWhile isWs).reverse

/-- The oldest complete line of a stream: the bytes before its first EOL, and the bytes after that EOL
(R85, R86); nothing when the stream holds no EOL. -/
def splitLine : Bytes → Option (Bytes × Bytes)
  | [] => none
  | b :: t => if b = eol then some ([], t) else (splitLine t).map (fun r => (b :: r.1, r.2))

/-! ### Literals (R84), first byte first on the wire -/

/-- `CAN_SEND` -/
def litCanSend : Bytes := [0x43, 0x41, 0x4E, 0x5F, 0x53, 0x45, 0x4E, 0x44]

/-- `YES` -/
def litYes : Bytes := [0x59, 0x45, 0x53]

/-- `BUSY` -/
def litBusy : Bytes := [0x42, 0x55, 0x53, 0x59]

/-- `OK` -/
def litOk : Bytes := [0x4F, 0x4B]

/-- `ERR`, the text the host looks for in the transmit phase (spec/43_host_contract.md R208) -/
def litErrText : Bytes := [0x45, 0x52, 0x52]

/-- `ERR:` -/
def litErr : Bytes := [0x45, 0x52, 0x52, 0x3A]

/-- `OVERFLOW`, the one reason the source spells out (R92) -/
def litOverflow : Bytes := [0x4F, 0x56, 0x45, 0x52, 0x46, 0x4C, 0x4F, 0x57]

/-- `ERR:OVERFLOW` -/
def litErrOverflow : Bytes := [0x45, 0x52, 0x52, 0x3A, 0x4F, 0x56, 0x45, 0x52, 0x46, 0x4C, 0x4F, 0x57]

/-- `ERR_DISP:` -/
def litErrDisp : Bytes := [0x45, 0x52, 0x52, 0x5F, 0x44, 0x49, 0x53, 0x50, 0x3A]

/-- `ERR_MEM` -/
def litErrMem : Bytes := [0x45, 0x52, 0x52, 0x5F, 0x4D, 0x45, 0x4D]

/-- `DONE` -/
def litDone : Bytes := [0x44, 0x4F, 0x4E, 0x45]

/-- `FATAL:` -/
def litFatal : Bytes := [0x46, 0x41, 0x54, 0x41, 0x4C, 0x3A]

/-- `READY` -/
def litReady : Bytes := [0x52, 0x45, 0x41, 0x44, 0x59]

/-- Whether `text` occurs somewhere in a line (R208, "contains"). -/
def hasText (text : Bytes) : Bytes → Bool
  | [] => text.isPrefixOf []
  | b :: t => text.isPrefixOf (b :: t) || hasText text t

/-! ### Reasons (R92) -/

/-- A byte a reason may hold: 0x20 to 0x7E. -/
def isPrintable (b : Byte) : Bool := decide (0x20 ≤ b.toNat) && decide (b.toNat ≤ 0x7E)

/-- The constraints of R92 on a reason text: 1 to 64 printable bytes, no space at either end. -/
def admissibleReason (r : Bytes) : Bool :=
  decide (1 ≤ r.length) && decide (r.length ≤ 64) && r.all isPrintable && r.head? != some 0x20
    && r.getLast? != some 0x20

/-- The text of a token's reason. -/
def ReasonTable.text (t : ReasonTable) (token : Nat) : Bytes := (t.named.lookup token).getD t.other

/-! ### Unit HX -/

/-- `HEXCH(n)` (R143): the n-th character of `0123456789abcdef`. -/
def hexCh (n : Nibble) : Byte :=
  if n.toNat < 10 then 0x30#8 + n.setWidth 8 else 0x61#8 + (n.setWidth 8 - 10#8)

/-- `val(ch)` (R143); the upper-case row holds when `HEX_UPPER_OK` does (D12). -/
def hexVal (upperOk : Bool) (ch : Byte) : Option Nibble :=
  if 0x30 ≤ ch.toNat ∧ ch.toNat ≤ 0x39 then some (BitVec.ofNat 4 (ch.toNat - 0x30))
  else if 0x61 ≤ ch.toNat ∧ ch.toNat ≤ 0x66 then some (BitVec.ofNat 4 (ch.toNat - 0x61 + 10))
  else if upperOk = true ∧ 0x41 ≤ ch.toNat ∧ ch.toNat ≤ 0x46 then some (BitVec.ofNat 4 (ch.toNat - 0x41 + 10))
  else none

/-- The byte of two nibbles, high nibble first (R93). -/
def joinNibbles (hi lo : Nibble) : Byte := (hi.setWidth 8 <<< 4) ||| lo.setWidth 8

/-- `HX.ENC_BYTE` (R141). -/
def hxEncByte (b : Byte) : Bytes := [hexCh (b.extractLsb' 4 4), hexCh (b.extractLsb' 0 4)]

/-- `HX.ENCODE` (R142). -/
def hxEncode (p : Bytes) : Bytes := p.flatMap hxEncByte

/-- `HX.DEC_PAIR` (R144). -/
def hxDecPair (upperOk : Bool) (c0 c1 : Byte) : Except HxError Byte :=
  match hexVal upperOk c0, hexVal upperOk c1 with
  | some hi, some lo => .ok (joinNibbles hi lo)
  | _, _ => .error .invalidHex

/-- The bytes of consecutive pairs of hex characters (R93, R145). -/
def hxPairs (upperOk : Bool) : Bytes → Bytes
  | c0 :: c1 :: t =>
    joinNibbles ((hexVal upperOk c0).getD 0) ((hexVal upperOk c1).getD 0) :: hxPairs upperOk t
  | _ => []

/-- `HX.DECODE` (R145): the test for odd length, the test for a non-hex character, then the pairs. -/
def hxDecode (upperOk : Bool) (s : Bytes) : Except HxError Bytes :=
  if s.length % 2 = 1 then .error .invalidHex
  else if s.any (fun ch => (hexVal upperOk ch).isNone) then .error .invalidHex
  else .ok (hxPairs upperOk s)

/-! ### Unit FC -/

/-- Whether a sample falls below a threshold: `Q_BOUNDARY` says where equality goes (D8). -/
def belowThreshold (upper : Bool) (v : Byte) (t : Nat) : Bool :=
  if upper then decide (v.toNat < t) else decide (v.toNat ≤ t)

/-- `FC.QUANT` (R121). -/
def fcQuant (p : Params) (v : Byte) : Level :=
  if belowThreshold p.qUpper v p.t1 then 0
  else if belowThreshold p.qUpper v p.t2 then 1
  else if belowThreshold p.qUpper v p.t3 then 2
  else 3

/-- The bit position of a field (spec/00_scope.md R10). -/
def BitPos.shift : BitPos → Nat
  | .p6 => 6
  | .p4 => 4
  | .p2 => 2
  | .p0 => 0

/-- `FC.PACK` (R122). -/
def fcPack (q : PackPos) (l0 l1 l2 l3 : Level) : Byte :=
  (l0.setWidth 8 <<< q.k0.shift) ||| (l1.setWidth 8 <<< q.k1.shift)
    ||| (l2.setWidth 8 <<< q.k2.shift) ||| (l3.setWidth 8 <<< q.k3.shift)

/-- The level of one field of a packed byte (R126). -/
def fieldLevel (b : Byte) (at_ : BitPos) : Level := b.extractLsb' at_.shift 2

/-- Reading a packed byte back (R126): the levels of in-run indexes 0, 1, 2, 3. -/
def fcUnpack (q : PackPos) (b : Byte) : Level × Level × Level × Level :=
  (fieldLevel b q.k0, fieldLevel b q.k1, fieldLevel b q.k2, fieldLevel b q.k3)

/-- Runs of four consecutive levels, one byte each; an incomplete last run gives nothing (R51, R123). -/
def packRuns (q : PackPos) : List Level → Bytes
  | l0 :: l1 :: l2 :: l3 :: t => fcPack q l0 l1 l2 l3 :: packRuns q t
  | _ => []

/-- `FC.ENCODE` (R123, R124). The second test is the source's own condition on the length; it decides only rasters
whose rows are not `height` rows of `width` samples (log entry 21). -/
def fcEncode (p : Params) (r : Raster) : Except FcError Bytes :=
  if r.width * r.height ≠ p.ppb * p.frameSize then .error .sizeMismatch
  else if r.rows.flatten.length ≠ p.ppb * p.frameSize then .error .sizeMismatch
  else .ok (packRuns p.packPos (r.rows.flatten.map (fcQuant p)))

/-! ### Cutting a payload into chunk lines (spec/30_encoding.md R98) -/

/-- A byte string cut every `n` bytes, the last piece shorter; `fuel` bounds the pieces. -/
def cutEvery (n : Nat) : Nat → Bytes → List Bytes
  | 0, _ => []
  | fuel + 1, p => if p = [] then [] else p.take n :: cutEvery n fuel (p.drop n)

/-- `CHUNKS(p)` (R98): the chunk lines of a payload, without their EOL. -/
def chunkLines (chunkRaw : Nat) (p : Bytes) : List Bytes :=
  (cutEvery chunkRaw p.length p).map hxEncode

end Sys2Proof
end

