-- ==== Sys2Proof/WellFormed.lean ====
section
/-! DEFINITION. Well-formedness: which parameters are admissible (spec/00_scope.md R8, spec/30_encoding.md R92) and
which operands an instruction may carry (spec/30_encoding.md R88, R89, R91). -/

namespace Sys2Proof

/-- `PACK_POS` is a bijection onto the four fields (spec/20_memory.md R52). -/
def PackPos.wf (q : PackPos) : Bool :=
  q.k0 != q.k1 && q.k0 != q.k2 && q.k0 != q.k3 && q.k1 != q.k2 && q.k1 != q.k3 && q.k2 != q.k3

/-- Every reason a table gives is admissible (R92). -/
def ReasonTable.wf (t : ReasonTable) : Bool :=
  admissibleReason t.other && t.named.all (fun e => admissibleReason e.2)

/-- The constraints the spec puts on its parameters: the arithmetic of R9 and R7 (`PPB`
pixels of `BPP` bits fill a byte, in the widths of the types), ascending thresholds within 8 bits (R121),
a bijective `PACK_POS` (R52), a cursor that holds FRAME_SIZE (R22), a line that holds `CAN_SEND` and a chunk
(R88), a positive chunk and attempt count, admissible reasons and `REASON_HEX` other than `OVERFLOW` (R92). -/
def Params.wf (p : Params) : Bool :=
  decide (p.width * p.height = p.ppb * p.frameSize) && decide (p.bpp = 2) && decide (p.ppb = 4)
    && decide (p.sampleBits = 8) && decide (0 < p.frameSize) && decide (p.frameSize < 2 ^ 17)
    && decide (p.t1 < p.t2) && decide (p.t2 < p.t3) && decide (p.t3 ≤ 255) && p.packPos.wf
    && decide (8 ≤ p.lineMax) && decide (p.chunkHex ≤ p.lineMax) && decide (0 < p.chunkRaw)
    && decide (0 < p.nHandshake) && admissibleReason p.reasonHex && p.reasonHex != litOverflow
    && p.reasonDisp.wf && p.reasonFatal.wf

/-- A raster is `height` rows of `width` samples (R11). -/
def Raster.wf (r : Raster) : Bool :=
  decide (r.rows.length = r.height) && r.rows.all (fun row => decide (row.length = r.width))

/-- A line content: no EOL inside, nothing of `WS` at an end (R85, R87), not blank, at most LINE_MAX bytes (R95(e)). -/
def contentWf (p : Params) (c : Bytes) : Bool :=
  !c.contains eol && decide (trim c = c) && decide (1 ≤ c.length) && decide (c.length ≤ p.lineMax)

/-- Chunk data: at least one byte, a line of at most LINE_MAX characters (R88, R172). -/
def chunkWf (p : Params) (b : Bytes) : Bool :=
  decide (1 ≤ b.length) && decide (2 * b.length ≤ p.lineMax)

/-- Whether a content is not valid hex. -/
def notHex (p : Params) (c : Bytes) : Bool :=
  match hxDecode p.hexUpperOk c with
  | .ok _ => false
  | .error _ => true

/-- Well-formed instructions: the operands the encoding of a row admits. -/
def Instr.wf (p : Params) : Instr → Bool
  | .fcQuant _ => true
  | .fcPack _ _ _ _ => true
  | .fcEncode r => r.wf
  | .hxEncByte _ => true
  | .hxEncode _ => true
  | .hxDecPair _ _ => true
  | .hxDecode _ => true
  | .btAlloc _ => true
  | .btLeave => true
  | .srToggle => true
  | .srDone => true
  | .wqIdle => true
  | .wqBlank => true
  | .wqCanSend => true
  | .wqCanSendBusy => true
  | .wqOther c => contentWf p c && c != litCanSend
  | .rxIdle => true
  | .rxBlank => true
  | .rxChunk b => chunkWf p b
  | .rxChunkLast b => chunkWf p b
  | .rxBadHex c => contentWf p c && notHex p c
  | .rxOverflow b => chunkWf p b
  | .rfInit _ => true
  | .rfDisplay _ => true
  | .rfSleep _ => true
  | .ftEnter _ => true
  | .ftBlink => true
  | .msgYes => true
  | .msgBusy => true
  | .msgOk => true
  | .msgErrOverflow => true
  | .msgErr r => admissibleReason r && r != litOverflow
  | .msgErrDisp r => admissibleReason r
  | .msgErrMem => true
  | .msgDone => true
  | .msgFatal r => admissibleReason r
  | .msgReady => true

/-- The operations of FC and HX, invoked through a function interface (spec/30_encoding.md R100). -/
def Instr.isFunc : Instr → Bool
  | .fcQuant _ | .fcPack _ _ _ _ | .fcEncode _ | .hxEncByte _ | .hxEncode _ | .hxDecPair _ _ | .hxDecode _ => true
  | .btAlloc _ | .btLeave | .srToggle | .srDone | .wqIdle | .wqBlank | .wqCanSend | .wqCanSendBusy | .wqOther _
  | .rxIdle | .rxBlank | .rxChunk _ | .rxChunkLast _ | .rxBadHex _ | .rxOverflow _ | .rfInit _ | .rfDisplay _
  | .rfSleep _ | .ftEnter _ | .ftBlink | .msgYes | .msgBusy | .msgOk | .msgErrOverflow | .msgErr _ | .msgErrDisp _
  | .msgErrMem | .msgDone | .msgFatal _ | .msgReady => false

/-- The messages, device to host (R90). -/
def Instr.isMessage : Instr → Bool
  | .msgYes | .msgBusy | .msgOk | .msgErrOverflow | .msgErr _ | .msgErrDisp _
  | .msgErrMem | .msgDone | .msgFatal _ | .msgReady => true
  | .fcQuant _ | .fcPack _ _ _ _ | .fcEncode _ | .hxEncByte _ | .hxEncode _ | .hxDecPair _ _ | .hxDecode _
  | .btAlloc _ | .btLeave | .srToggle | .srDone | .wqIdle | .wqBlank | .wqCanSend | .wqCanSendBusy | .wqOther _
  | .rxIdle | .rxBlank | .rxChunk _ | .rxChunkLast _ | .rxBadHex _ | .rxOverflow _ | .rfInit _ | .rfDisplay _
  | .rfSleep _ | .ftEnter _ | .ftBlink => false

end Sys2Proof
end

