-- ==== Sys2Proof/Decode.lean ====
section
/-! DEFINITION. Decoding of received lines and their encoder (spec/30_encoding.md). A line's class depends on who reads
it: the device in a `STATE` (R89), or the host, which reads the messages (R90, R99). Total on any bytes. -/

namespace Sys2Proof

/-- Who reads a line: the device, with the registers that R89 tests, or the host. -/
inductive Reader where
  | device (state : DevState) (busy : Bool) (pos : Nat)
  | host
  deriving DecidableEq, Repr

/-- Why a content is no instruction, by name. -/
inductive DecodeError where
  /-- The device reads no line in this `STATE` (R89). -/
  | notReading
  /-- The content is longer than LINE_MAX: outside the interface (R95(e), R169). -/
  | lineTooLong
  /-- The content is none of the messages of R90 (host side). -/
  | notAMessage
  deriving DecidableEq, Repr

/-- The table of R89 for `STATE = WaitQuery`. -/
def decodeQuery (p : Params) (busy : Bool) (c : Bytes) : Except DecodeError Instr :=
  if c = [] then .ok .wqBlank
  else if p.lineMax < c.length then .error .lineTooLong
  else if c = litCanSend then (if busy then .ok .wqCanSendBusy else .ok .wqCanSend)
  else .ok (.wqOther c)

/-- The table of R89 for `STATE = Receiving`, the tests in the order of spec/60_exceptions.md R240. -/
def decodeChunk (p : Params) (pos : Nat) (c : Bytes) : Except DecodeError Instr :=
  if c = [] then .ok .rxBlank
  else if p.lineMax < c.length then .error .lineTooLong
  else
    match hxDecode p.hexUpperOk c with
    | .error _ => .ok (.rxBadHex c)
    | .ok b =>
      if p.frameSize < pos + b.length then .ok (.rxOverflow b)
      else if pos + b.length = p.frameSize then .ok (.rxChunkLast b)
      else .ok (.rxChunk b)

/-- The ten message rows (R90, R99): the literals first, `ERR:OVERFLOW` before the `ERR:` row, then the literal starts
with a reason after them. -/
def decodeMessage (c : Bytes) : Except DecodeError Instr :=
  if c = litYes then .ok .msgYes
  else if c = litBusy then .ok .msgBusy
  else if c = litOk then .ok .msgOk
  else if c = litErrOverflow then .ok .msgErrOverflow
  else if c = litErrMem then .ok .msgErrMem
  else if c = litDone then .ok .msgDone
  else if c = litReady then .ok .msgReady
  else if litErrDisp.isPrefixOf c then .ok (.msgErrDisp (c.drop litErrDisp.length))
  else if litErr.isPrefixOf c then .ok (.msgErr (c.drop litErr.length))
  else if litFatal.isPrefixOf c then .ok (.msgFatal (c.drop litFatal.length))
  else .error .notAMessage

/-- The instruction a reader finds in the content of a line. -/
def decode (p : Params) (r : Reader) (c : Bytes) : Except DecodeError Instr :=
  match r with
  | .device .waitQuery busy _ => decodeQuery p busy c
  | .device .receiving _ pos => decodeChunk p pos c
  | .device .boot _ _ => .error .notReading
  | .device .signalReady _ _ => .error .notReading
  | .device .refresh _ _ => .error .notReading
  | .device .fatal _ _ => .error .notReading
  | .host => decodeMessage c

/-- The content of the line that stands for an instruction; nothing for the rows that have no wire encoding
(`FUNC` and `EVT`, R99, R100). Chunk data is encoded as the conforming host does, in lower case (R88). -/
def encode : Instr → Option Bytes
  | .fcQuant _ => none
  | .fcPack _ _ _ _ => none
  | .fcEncode _ => none
  | .hxEncByte _ => none
  | .hxEncode _ => none
  | .hxDecPair _ _ => none
  | .hxDecode _ => none
  | .btAlloc _ => none
  | .btLeave => none
  | .srToggle => none
  | .srDone => none
  | .wqIdle => none
  | .wqBlank => some []
  | .wqCanSend => some litCanSend
  | .wqCanSendBusy => some litCanSend
  | .wqOther c => some c
  | .rxIdle => none
  | .rxBlank => some []
  | .rxChunk b => some (hxEncode b)
  | .rxChunkLast b => some (hxEncode b)
  | .rxBadHex c => some c
  | .rxOverflow b => some (hxEncode b)
  | .rfInit _ => none
  | .rfDisplay _ => none
  | .rfSleep _ => none
  | .ftEnter _ => none
  | .ftBlink => none
  | .msgYes => some litYes
  | .msgBusy => some litBusy
  | .msgOk => some litOk
  | .msgErrOverflow => some litErrOverflow
  | .msgErr r => some (litErr ++ r)
  | .msgErrDisp r => some (litErrDisp ++ r)
  | .msgErrMem => some litErrMem
  | .msgDone => some litDone
  | .msgFatal r => some (litFatal ++ r)
  | .msgReady => some litReady

/-- The reader that finds a line instruction in its encoding: the condition of its row in R89 on `STATE`, `BUSY` and
`POS`, or the host for a message. -/
def Instr.readBy (p : Params) : Instr → Reader → Bool
  | .wqBlank, .device .waitQuery _ _ => true
  | .wqCanSend, .device .waitQuery busy _ => !busy
  | .wqCanSendBusy, .device .waitQuery busy _ => busy
  | .wqOther _, .device .waitQuery _ _ => true
  | .rxBlank, .device .receiving _ _ => true
  | .rxChunk b, .device .receiving _ pos => decide (pos + b.length < p.frameSize)
  | .rxChunkLast b, .device .receiving _ pos => decide (pos + b.length = p.frameSize)
  | .rxBadHex _, .device .receiving _ _ => true
  | .rxOverflow b, .device .receiving _ pos => decide (p.frameSize < pos + b.length)
  | i, .host => i.isMessage
  | _, .device _ _ _ => false

/-- The bytes of a number of `n` bytes, most significant byte first: spec/opcode_table.json numbers a literal with its
first wire byte most significant (R99). -/
def bytesOfNumber : Nat → Nat → Bytes
  | 0, _ => []
  | n + 1, w => bytesOfNumber n (w / 256) ++ [BitVec.ofNat 8 w]

/-- The instruction read from a table row's bits: as a message to the host if it is one, else as a line the device
reads in `WaitQuery` with `BUSY = 0` (log entry 22). -/
def decodeTableWord (nbits w : Nat) : Option Instr :=
  let c := bytesOfNumber (nbits / 8) w
  match decode Config.params .host c with
  | .ok i => some i
  | .error _ =>
    match decode Config.params (.device .waitQuery false 0) c with
    | .ok i => some i
    | .error _ => none

end Sys2Proof
end

