-- ==== Sys2Proof/Machine/State.lean ====
section
/-! DEFINITION. The machine's state as plain data: the complete list of spec/10_state.md R20, the host's record of R38
as far as spec/43_host_contract.md gives the host's behaviour, what the block puts out, and what the environment does
next. The reset values are those of R37. -/

namespace Sys2Proof.Machine

/-- The framebuffer `FB`: the bytes written so far, by address, addresses strictly rising. An address that is not
listed holds no value: nothing has written it (R24, R37: unspecified). -/
abbrev Memory := List Host.Cell

/-- A line of the event history (R35): received by the device, or sent by it. -/
inductive LinkEvent where
  | received (c : Bytes)
  | sent (c : Bytes)
  deriving DecidableEq, Repr

/-- A call of the display driver (spec/42_transfer_server.md R183). `display` is handed the bytes of `FB`; a byte that
nothing has written is handed over as no value. -/
inductive DriverCall where
  | init
  | display (frame : List (Option Byte))
  | sleep
  deriving DecidableEq, Repr

/-- What a function interface of FC or HX last answered (spec/30_encoding.md R100). -/
inductive FuncResult where
  /-- No function has been asked for. -/
  | none
  /-- `FC.QUANT`. -/
  | level (l : Level)
  /-- `FC.PACK`, and `HX.DEC_PAIR` when it answers Ok. -/
  | byte (b : Byte)
  /-- `FC.ENCODE`, `HX.ENCODE`, `HX.ENC_BYTE`, and `HX.DECODE` when it answers Ok. -/
  | bytes (bs : Bytes)
  /-- `FC.ENCODE`: `Err(SizeMismatch)`. -/
  | sizeMismatch
  /-- `HX.DEC_PAIR`, `HX.DECODE`: `Err(InvalidHex)`. -/
  | invalidHex
  deriving DecidableEq, Repr

/-- How a transfer attempt of the host ends (spec/43_host_contract.md R201 to R207). -/
inductive ClientResult where
  /-- `DONE` was received (R204). -/
  | success
  /-- An error line of the device, with its text (R201, R203). -/
  | deviceError (line : Bytes)
  /-- `HostTimeoutError`. -/
  | hostTimeout
  /-- `HostBusyRetryExhausted`. -/
  | busyRetryExhausted
  /-- `HostProtocolError`, with the reply (D30). -/
  | protocolError (line : Bytes)
  /-- The host abandoned the attempt (R210). DESIGN CHOICE: no rule names a result for it (log entry 25). -/
  | abandoned
  deriving DecidableEq, Repr

/-- Where a transfer attempt stands (R201 to R205). -/
inductive ClientPhase where
  /-- No attempt has been made. -/
  | idle
  /-- `CAN_SEND` number `attempt` is sent; waiting for the reply. -/
  | handshake (attempt : Nat)
  /-- `BUSY` came back to attempt `attempt`; sleeping T_BACKOFF. -/
  | backoff (attempt : Nat)
  /-- A chunk line of `lineLength` characters is sent and `rest` is still to send; waiting for the reply. -/
  | transmit (lineLength : Nat) (rest : Bytes)
  /-- Every chunk is acknowledged; waiting for `DONE`. -/
  | complete
  /-- The attempt is over and the link closed. -/
  | closed (result : ClientResult)
  deriving DecidableEq, Repr

/-- The host's Transfer Attempt (R38): its payload, `bytes_sent`, `total_hex_length`, the link handle, and the device's
reasons that the host surfaced to its caller as text while the attempt went on, oldest first (R207). A reason that ends the
attempt is in the attempt's result. -/
structure Client where
  phase : ClientPhase
  payload : Bytes
  bytesSent : Nat
  totalHexLength : Nat
  linkOpen : Bool
  surfaced : List Bytes
  deriving DecidableEq, Repr

/-- What the environment does next (spec/00_scope.md R16, spec/30_encoding.md R97, spec/43_host_contract.md R215). -/
inductive EnvEvent where
  /-- Nothing: the device takes a step. -/
  | dts
  /-- The allocator answers (`E: alloc ok`, `E: alloc fail`). -/
  | alloc (r : AllocAnswer)
  /-- The driver answers the call named (`E: init ok` and so on). -/
  | driver (call : RPhase) (r : DriverAnswer)
  /-- An unclassified fault (`E: ufault(u)`). -/
  | ufault (u : Nat)
  /-- A reset from outside (spec/70_reset_and_hazards.md R270). -/
  | reset
  /-- Operands at a function interface of FC or HX. -/
  | call (i : Instr)
  /-- A host appends any bytes to `RXQ`. -/
  | hostBytes (bs : Bytes)
  /-- The host takes the oldest line of `TXQ`. -/
  | hostRead
  /-- The host opens the link and starts an attempt with a payload (R200). -/
  | hostOpen (payload : Bytes)
  /-- The raster producer hands the host a raster (R214): encode it, then start an attempt with the result. -/
  | hostOpenRaster (r : Raster)
  /-- The host's wait for a reply expires (R201, R203). -/
  | hostTimeout
  /-- The host's backoff sleep ends (R201). -/
  | hostWake
  /-- The host abandons its attempt (R210). -/
  | hostAbandon
  deriving DecidableEq, Repr

/-- The machine's state. -/
structure State where
  /-- The parameters (spec/00_scope.md R7, R8): not state of the block (R20); no step writes them. -/
  cfg : Params
  /-- `STATE` (R21) -/
  state : DevState
  /-- `POS` (R22) -/
  pos : Cursor
  /-- `BUSY` (R23) -/
  busy : Bool
  /-- `FB` (R24) -/
  fb : Memory
  /-- `FB_VALID` (R25) -/
  fbValid : Bool
  /-- `IND` (R26) -/
  ind : Bool
  /-- `TCNT` (R27) -/
  tcnt : Nat
  /-- `RPHASE` (R28) -/
  rphase : RPhase
  /-- `RXQ` (R29), oldest byte first -/
  rxq : Bytes
  /-- `TXQ` (R30), oldest byte first -/
  txq : Bytes
  /-- The event history of R35, oldest first: a mark of the model. -/
  hist : List LinkEvent
  /-- The driver calls made, oldest first: an output of the block (spec/42_transfer_server.md R183). -/
  drvCalls : List DriverCall
  /-- What the function interfaces last answered: the model's own field. -/
  port : FuncResult
  /-- The host's Transfer Attempt (R38). -/
  client : Client
  /-- What the environment does next, first event first: the model's own field. -/
  env : List EnvEvent
  deriving DecidableEq, Repr

/-- Why the machine stops with a fault. -/
inductive Fault where
  /-- Raised by every meaning that is asked for in a configuration where the spec does not enable its operation
  (spec/30_encoding.md R101). Safe: the spec gives the operation no effect there; `step` never asks for one. -/
  | notEnabled
  /-- Raised by `step` in `SignalReady` with `TCNT` above N_TOGGLE, a value R20 does not allow: no operation is enabled
  (R184 speaks of reachable configurations only). Safe. -/
  | noOperation
  /-- Raised by a load or a store outside `FB` (spec/20_memory.md R53, "a fault of the model itself"). Safe: no operation
  issues one. -/
  | memOutOfRange
  deriving DecidableEq, Repr

/-- Why the machine refuses an input. -/
inductive Refusal where
  /-- Raised by `exec` for an instruction that has no meaning yet. Safe. -/
  | notModelled (mnemonic : String)
  /-- Raised by the operations of `WaitQuery` and `Receiving`, and by `step`, on a line longer than LINE_MAX: the
  `refused` mark of R169. Safe. -/
  | lineTooLong
  deriving DecidableEq, Repr

/-- A host that has made no attempt. -/
def Client.fresh : Client where
  phase := .idle
  payload := []
  bytesSent := 0
  totalHexLength := 0
  linkOpen := false
  surfaced := []

/-- The machine right after reset (R37, spec/70_reset_and_hazards.md R270). `POS` and `RPHASE` are unspecified there:
the values here are the model's (log entries 3, 4). -/
def State.reset : State where
  cfg := Config.params
  state := .boot
  pos := 0
  busy := false
  fb := []
  fbValid := false
  ind := false
  tcnt := 0
  rphase := .init
  rxq := []
  txq := []
  hist := []
  drvCalls := []
  port := .none
  client := Client.fresh
  env := []

end Sys2Proof.Machine
end

