-- ==== Sys2Proof/Machine/Flags.lean ====
section
/-! DEFINITION. The one-bit status values `BUSY`, `FB_VALID`, `IND` (spec/10_state.md R33): who sets, clears and toggles
them. No operation sets a flag by arithmetic. -/

namespace Sys2Proof.Machine

/-- `BUSY <- 1`, `POS <- 0` and `STATE <- Receiving`: a session is created (spec/42_transfer_server.md R166, R187). -/
def State.openSession (s : State) : State := { s with busy := true, pos := 0, state := .receiving }

/-- `BUSY <- 0` and `STATE <- WaitQuery`: a session ends; `POS` and `FB` are left (R187, spec/60_exceptions.md R231). -/
def State.endSession (s : State) : State := { s with busy := false, state := .waitQuery }

/-- `IND <- 1 - IND` (R162, R180). -/
def State.toggleInd (s : State) : State := { s with ind := !s.ind }

/-- `IND <- 0` (R161, R163). -/
def State.indOff (s : State) : State := { s with ind := false }

/-- `FB_VALID <- 1`; `FB` now exists, its bytes unspecified (R160, spec/93_implementation_defined.md U3). -/
def State.allocated (s : State) : State := { s with fbValid := true, fb := [] }

end Sys2Proof.Machine
end

