-- ==== Sys2Proof/Machine/Ops.lean ====
section
/-! DEFINITION. The named operations over memory, queues and registers (spec/00_scope.md R12), and taking an error as ONE
operation (spec/60_exceptions.md R231 to R236). -/

namespace Sys2Proof.Machine

/-- What a step answers. -/
abbrev Outcome := Host.Outcome State Fault Refusal

/-! ### The framebuffer -/

/-- The byte at an address, or no value when nothing has written it (spec/10_state.md R37). -/
def Memory.read (m : Memory) (a : Nat) : Option Byte := m.lookup a

/-- The cells of a byte string stored at ascending addresses from `a` (spec/20_memory.md R53). -/
def Memory.cells (a : Nat) : Bytes → Memory
  | [] => []
  | b :: t => (a, b) :: Memory.cells (a + 1) t

/-- The memory with the byte string stored from address `a` on. -/
def Memory.write (m : Memory) (a : Nat) (v : Bytes) : Memory :=
  m.filter (fun c => decide (c.1 < a)) ++ Memory.cells a v ++ m.filter (fun c => decide (a + v.length ≤ c.1))

/-- The canonical form: addresses strictly rising. An unlisted address has no value, so no entry can repeat one. -/
def Memory.wf : Memory → Bool
  | [] => true
  | [_] => true
  | c :: d :: t => decide (c.1 < d.1) && Memory.wf (d :: t)

/-- `MemRead(a, n)` (R53): `FB[a]`, …, `FB[a+n-1]` in that order; outside `FB` it is a fault of the model. A byte inside
that nothing has written is handed over as no value (log entry 5). -/
def State.memRead (s : State) (a n : Nat) : Except Fault (List (Option Byte)) :=
  if a + n ≤ s.cfg.frameSize then .ok ((List.range n).map (fun j => s.fb.read (a + j)))
  else .error .memOutOfRange

/-- `MemWrite(a, n, v)` (R53); outside `FB` it is a fault of the model. -/
def State.memWrite (s : State) (a : Nat) (v : Bytes) : Outcome :=
  if a + v.length ≤ s.cfg.frameSize then .next { s with fb := s.fb.write a v }
  else .fault .memOutOfRange

/-! ### The link -/

/-- `Tx(c)` (spec/00_scope.md R12): the content and one EOL appended to `TXQ`; the line enters the history (R35). -/
def State.tx (s : State) (c : Bytes) : State :=
  { s with txq := s.txq ++ (c ++ [eol]), hist := s.hist ++ [.sent c] }

/-- `RxLine()` (spec/30_encoding.md R86): the trimmed content of the oldest complete line of `RXQ`, and the state with
that line removed. -/
def State.rxLine (s : State) : Option (Bytes × State) :=
  match splitLine s.rxq with
  | none => none
  | some (raw, rest) => some (trim raw, { s with rxq := rest, hist := s.hist ++ [.received (trim raw)] })

/-- The host's side of `TXQ` (spec/10_state.md R30): the trimmed content of its oldest complete line (D30), and the
state with that line removed. -/
def State.txLine (s : State) : Option (Bytes × State) :=
  match splitLine s.txq with
  | none => none
  | some (raw, rest) => some (trim raw, { s with txq := rest })

/-- A host appends a line to `RXQ` (spec/43_host_contract.md R203). -/
def State.hostSend (s : State) (c : Bytes) : State := { s with rxq := s.rxq ++ (c ++ [eol]) }

/-- The device as the reader of a line (R89). -/
def State.reader (s : State) : Reader := .device s.state s.busy s.pos.toNat

/-! ### Errors -/

/-- The error kinds that the device raises (spec/60_exceptions.md R230). -/
inductive DevError where
  | decodeError
  | overflowError
  | allocationError
  | displayDriverError (f : Nat)
  | unclassifiedFault (u : Nat)
  deriving DecidableEq, Repr

/-- The line that reports an error (R230, the wire code). -/
def DevError.line (p : Params) : DevError → Bytes
  | .decodeError => litErr ++ p.reasonHex
  | .overflowError => litErrOverflow
  | .allocationError => litErrMem
  | .displayDriverError f => litErrDisp ++ p.reasonDisp.text f
  | .unclassifiedFault u => litFatal ++ p.reasonFatal.text u

/-- `raise E` (R236): the entry sequence of E as the rest of the step. The session errors end the session
(R231, R232, R234), `AllocationError` stays in `Boot` (R233), `UnclassifiedFault` stops the device (R235). Nothing is
saved (R237) and there is no return operation (R241). -/
def State.raise (s : State) (e : DevError) : State :=
  let t := s.tx (e.line s.cfg)
  match e with
  | .decodeError => t.endSession
  | .overflowError => t.endSession
  | .allocationError => t
  | .displayDriverError _ => t.endSession
  | .unclassifiedFault _ => { t with state := .fatal }

/-! ### Enabling -/

/-- An operation selected by registers alone: its next state where it is enabled. -/
def whenEnabled (enabled : Bool) (t : State) : Outcome :=
  if enabled then .next t else .fault .notEnabled

/-- An operation of a reading state (R86): `RxLine()` once, at the start; a line over LINE_MAX is refused with nothing
consumed (R169); the content must be of the operation's class. -/
def onLine (st : DevState) (s : State) (isClass : Bytes → Bool) (act : State → Outcome) : Outcome :=
  if s.state = st then
    match s.rxLine with
    | none => .fault .notEnabled
    | some (c, s1) =>
      if s.cfg.lineMax < c.length then .refused .lineTooLong
      else if isClass c then act s1
      else .fault .notEnabled
  else .fault .notEnabled

/-- Whether a content is nonblank and decodes to the chunk data `b` (R145, R172). -/
def isChunk (p : Params) (b : Bytes) (c : Bytes) : Bool :=
  c != [] && (match hxDecode p.hexUpperOk c with
    | .ok d => d == b
    | .error _ => false)

/-- The state in which no operation waits for input: no complete line in `RXQ` (R85). -/
def State.noLine (s : State) : Bool := (splitLine s.rxq).isNone

/-- The store of an accepted chunk (R172, R173): `MemWrite(POS, n, b)`, `POS <- POS + n`, `Tx(OK)`. -/
def State.storeChunk (s : State) (b : Bytes) (after : State → State) : Outcome :=
  match s.memWrite s.pos.toNat b with
  | .next t => .next (after ({ t with pos := BitVec.ofNat 17 (s.pos.toNat + b.length) }.tx litOk))
  | .fault f => .fault f
  | .refused r => .refused r

/-- A call of the driver (R176 to R178): it enters the output, and a failing answer raises `DisplayDriverError`. -/
def State.driverCall (s : State) (call : DriverCall) (r : DriverAnswer) (onOk : State → State) : State :=
  let t := { s with drvCalls := s.drvCalls ++ [call] }
  match r with
  | .ok => onOk t
  | .fail f => t.raise (.displayDriverError f)

/-- The block after a reset from outside (spec/70_reset_and_hazards.md R270, R271): registers, `FB` and both queues as
in `State.reset`; the parameters, the host, the output and the history of the model are not the block's. -/
def State.resetBlock (s : State) : State :=
  { s with
    state := State.reset.state, pos := State.reset.pos, busy := State.reset.busy, fb := State.reset.fb,
    fbValid := State.reset.fbValid, ind := State.reset.ind, tcnt := State.reset.tcnt,
    rphase := State.reset.rphase, rxq := State.reset.rxq, txq := State.reset.txq }

end Sys2Proof.Machine
end

