-- ==== Sys2Proof/Machine/Boot.lean ====
section
/-! DEFINITION. The meanings of `Boot` and `SignalReady` (spec/42_transfer_server.md R160 to R163). -/

namespace Sys2Proof.Machine

/-- Whether `BT.ALLOC` is enabled: the device waits for the allocator's answer (R160). -/
def State.awaitsAlloc (s : State) : Bool := s.state == .boot && !s.fbValid

/-- `BT.ALLOC` R160. -/
def execBtAlloc (r : AllocAnswer) (s : State) : Outcome :=
  whenEnabled s.awaitsAlloc
    (match r with
    | .ok => s.allocated
    | .fail => s.raise .allocationError)

/-- `BT.LEAVE` R161. -/
def execBtLeave (s : State) : Outcome :=
  whenEnabled (s.state == .boot && s.fbValid) { s.indOff with tcnt := 0, state := .signalReady }

/-- `SR.TOGGLE` R162. -/
def execSrToggle (s : State) : Outcome :=
  whenEnabled (s.state == .signalReady && decide (s.tcnt < s.cfg.nToggle)) { s.toggleInd with tcnt := s.tcnt + 1 }

/-- `SR.DONE` R163. -/
def execSrDone (s : State) : Outcome :=
  whenEnabled (s.state == .signalReady && decide (s.tcnt = s.cfg.nToggle)) { s.indOff with state := .waitQuery }

end Sys2Proof.Machine
end

