-- ==== Sys2Proof/Machine/Fatal.lean ====
section
/-! DEFINITION. The meanings of the terminal state (spec/42_transfer_server.md R179, R180). -/

namespace Sys2Proof.Machine

/-- `FT.ENTER` R179: enabled in every state but `Fatal`. -/
def execFtEnter (u : Nat) (s : State) : Outcome :=
  whenEnabled (s.state != .fatal) (s.raise (.unclassifiedFault u))

/-- `FT.BLINK` R180. -/
def execFtBlink (s : State) : Outcome := whenEnabled (s.state == .fatal) s.toggleInd

end Sys2Proof.Machine
end

