-- ==== Sys2Proof/Machine/FrameCodec.lean ====
section
/-! DEFINITION. The meanings of unit FC (spec/40_frame_codec.md): pure functions whose answer appears at the function
interface and nowhere else (R120). -/

namespace Sys2Proof.Machine

/-- `FC.QUANT` R121. -/
def execFcQuant (v : Byte) (s : State) : Outcome :=
  .next { s with port := .level (fcQuant s.cfg v) }

/-- `FC.PACK` R122. -/
def execFcPack (l0 l1 l2 l3 : Level) (s : State) : Outcome :=
  .next { s with port := .byte (fcPack s.cfg.packPos l0 l1 l2 l3) }

/-- `FC.ENCODE` R123; `Err(SizeMismatch)` R124 is a result, no trap: no output, no state change (D32). -/
def execFcEncode (raster : Raster) (s : State) : Outcome :=
  match fcEncode s.cfg raster with
  | .ok out => .next { s with port := .bytes out }
  | .error .sizeMismatch => .next { s with port := .sizeMismatch }

end Sys2Proof.Machine
end

