-- ==== Sys2Proof/Machine/HexCodec.lean ====
section
/-! DEFINITION. The meanings of unit HX (spec/41_hex_codec.md): pure functions whose answer appears at the function
interface and nowhere else (R140). -/

namespace Sys2Proof.Machine

/-- `HX.ENC_BYTE` R141. -/
def execHxEncByte (b : Byte) (s : State) : Outcome :=
  .next { s with port := .bytes (hxEncByte b) }

/-- `HX.ENCODE` R142. -/
def execHxEncode (p : Bytes) (s : State) : Outcome :=
  .next { s with port := .bytes (hxEncode p) }

/-- `HX.DEC_PAIR` R144. -/
def execHxDecPair (c0 c1 : Byte) (s : State) : Outcome :=
  match hxDecPair s.cfg.hexUpperOk c0 c1 with
  | .ok b => .next { s with port := .byte b }
  | .error .invalidHex => .next { s with port := .invalidHex }

/-- `HX.DECODE` R145. -/
def execHxDecode (text : Bytes) (s : State) : Outcome :=
  match hxDecode s.cfg.hexUpperOk text with
  | .ok b => .next { s with port := .bytes b }
  | .error .invalidHex => .next { s with port := .invalidHex }

end Sys2Proof.Machine
end

