-- ==== Sys2Proof/Machine/Client.lean ====
section
/-! DEFINITION. The conforming host (spec/43_host_contract.md): `H.HANDSHAKE` R201, `H.TRANSMIT` R203, `H.COMPLETE` R204,
`H.CLOSE` R205. Its waits and its sleep end by events of the environment; the model has no time (log entry 17). -/

namespace Sys2Proof.Machine

/-- Whether the host sleeps and reads no reply (R201, the backoff). -/
def State.clientAsleep (s : State) : Bool :=
  match s.client.phase with
  | .backoff _ => true
  | .idle | .handshake _ | .transmit _ _ | .complete | .closed _ => false

/-- `H.CLOSE` (R205): the attempt is over, the link closed; nothing is sent. -/
def State.clientClose (s : State) (r : ClientResult) : State :=
  { s with client := { s.client with phase := .closed r, linkOpen := false } }

/-- Whether a reply carries a reason that R207 has the host surface: an `ERR:` or an `ERR_DISP:` line. -/
def carriesReason (r : Bytes) : Bool := litErr.isPrefixOf r || litErrDisp.isPrefixOf r

/-- A reason of the device is surfaced to the caller as text, the attempt going on (R207; log entry 28). -/
def State.clientSurface (s : State) (r : Bytes) : State :=
  { s with client := { s.client with surfaced := s.client.surfaced ++ [r] } }

/-- Handshake attempt `k`: `CAN_SEND` is sent (R201). -/
def State.clientQuery (s : State) (k : Nat) : State :=
  { s.hostSend litCanSend with client := { s.client with phase := .handshake k } }

/-- The loop of R203: the next line of at most CHUNK_HEX characters, or the end of the transmit phase. -/
def State.clientNextLine (s : State) (text : Bytes) : State :=
  if text = [] then { s with client := { s.client with phase := .complete } }
  else
    let line := text.take s.cfg.chunkHex
    { s.hostSend line with
      client := { s.client with phase := .transmit line.length (text.drop s.cfg.chunkHex) } }

/-- The start of `H.TRANSMIT` (R203): the payload is hex-encoded once, nothing is acknowledged yet (R206). -/
def State.clientTransmit (s : State) : State :=
  let text := hxEncode s.client.payload
  { s with client := { s.client with bytesSent := 0, totalHexLength := text.length } }.clientNextLine text

/-- What the host does with a reply, by phase (R201, R203, R204, R207, R208). -/
def State.clientReply (s : State) (r : Bytes) : State :=
  match s.client.phase with
  | .handshake k =>
    if r = litYes then s.clientTransmit
    else if litErr.isPrefixOf r then s.clientClose (.deviceError r)
    else if r = litBusy then { s with client := { s.client with phase := .backoff k } }
    else s.clientClose (.protocolError r)
  | .transmit n rest =>
    if r = litOk then
      { s with client := { s.client with bytesSent := s.client.bytesSent + n } }.clientNextLine rest
    else if hasText litErrText r then s.clientClose (.deviceError r)
    else s.clientClose (.protocolError r)
  | .complete =>
    if r = litDone then s.clientClose .success
    else if carriesReason r then s.clientSurface r
    else s
  | .idle => s
  | .backoff _ => s
  | .closed _ => s

/-- The start of an attempt with a payload (R200, R201); one attempt at a time (R209). DESIGN CHOICE: a payload of any
length is taken, where R200 and R203 speak of FRAME_SIZE bytes only (log entry 26). -/
def State.clientOpen (s : State) (payload : Bytes) : State :=
  match s.client.phase with
  | .idle | .closed _ =>
    let t := { s with client := { s.client with payload := payload, bytesSent := 0,
                                                totalHexLength := 2 * payload.length, linkOpen := true,
                                                surfaced := [] } }
    if s.cfg.nHandshake = 0 then t.clientClose .hostTimeout else t.clientQuery 1
  | .handshake _ | .backoff _ | .transmit _ _ | .complete => s

/-- The wait for a reply expires (R201, R203); the completion wait is unbounded (R204). -/
def State.clientTimeout (s : State) : State :=
  match s.client.phase with
  | .handshake k => if k < s.cfg.nHandshake then s.clientQuery (k + 1) else s.clientClose .hostTimeout
  | .transmit _ _ => s.clientClose .hostTimeout
  | .idle | .backoff _ | .complete | .closed _ => s

/-- The backoff sleep ends (R201). -/
def State.clientWake (s : State) : State :=
  match s.client.phase with
  | .backoff k => if k < s.cfg.nHandshake then s.clientQuery (k + 1) else s.clientClose .busyRetryExhausted
  | .idle | .handshake _ | .transmit _ _ | .complete | .closed _ => s

/-- The host abandons its attempt (R210): nothing is sent. DESIGN CHOICE: the attempt's result is `abandoned`, where R207
and R210 name none (log entry 25). -/
def State.clientAbandon (s : State) : State :=
  match s.client.phase with
  | .handshake _ | .backoff _ | .transmit _ _ | .complete => s.clientClose .abandoned
  | .idle | .closed _ => s

/-- The host is handed a raster (R214, spec/00_scope.md R18): `FC.ENCODE`, then an attempt with the result; a
`SizeMismatch` sends nothing (spec/40_frame_codec.md R124). DESIGN CHOICE: during an attempt, of which R214 says nothing,
the raster is encoded too and the answer stands in `port`, but no attempt starts (log entry 27). -/
def State.clientOpenRaster (s : State) (r : Raster) : State :=
  match fcEncode s.cfg r with
  | .ok payload => { s with port := .bytes payload }.clientOpen payload
  | .error .sizeMismatch => { s with port := .sizeMismatch }

/-- The host reads the message `line` (spec/30_encoding.md R90): the oldest line of `TXQ` is removed and answered. -/
def State.clientReceive (s : State) (line : Bytes) : Outcome :=
  match s.txLine with
  | none => .fault .notEnabled
  | some (c, t) => whenEnabled (c == line && !s.clientAsleep) (t.clientReply c)

end Sys2Proof.Machine
end

