-- ==== Sys2Proof/Machine/Messages.lean ====
section
/-! DEFINITION. The meanings of the ten message rows (spec/30_encoding.md R90, R99), which "are in the table so that a
host-side decoder can be written from it too": the host takes the message off `TXQ` and does what
spec/43_host_contract.md says. The device's side of each message, its emission, is in the operation that R90 names
(log entry 16). -/

namespace Sys2Proof.Machine

/-- `MSG.YES`: handshake granted. -/
def execMsgYes (s : State) : Outcome := s.clientReceive litYes

/-- `MSG.BUSY`: a session is active; ask again later. -/
def execMsgBusy (s : State) : Outcome := s.clientReceive litBusy

/-- `MSG.OK`: chunk stored. -/
def execMsgOk (s : State) : Outcome := s.clientReceive litOk

/-- `MSG.ERR_OVERFLOW`: the chunk would pass the end of the framebuffer. -/
def execMsgErrOverflow (s : State) : Outcome := s.clientReceive litErrOverflow

/-- `MSG.ERR`: the chunk was not valid hex. -/
def execMsgErr (reason : Bytes) (s : State) : Outcome := s.clientReceive (litErr ++ reason)

/-- `MSG.ERR_DISP`: the display driver failed. -/
def execMsgErrDisp (reason : Bytes) (s : State) : Outcome := s.clientReceive (litErrDisp ++ reason)

/-- `MSG.ERR_MEM`: framebuffer allocation failed at boot. -/
def execMsgErrMem (s : State) : Outcome := s.clientReceive litErrMem

/-- `MSG.DONE`: frame displayed, session over. -/
def execMsgDone (s : State) : Outcome := s.clientReceive litDone

/-- `MSG.FATAL`: the device stopped for good. -/
def execMsgFatal (reason : Bytes) (s : State) : Outcome := s.clientReceive (litFatal ++ reason)

/-- `MSG.READY`: the legacy line, never sent by this device (R95(c)); a host that meets it treats it as any other reply
it does not expect. -/
def execMsgReady (s : State) : Outcome := s.clientReceive litReady

end Sys2Proof.Machine
end

