-- ==== Sys2Proof/Machine/Receiving.lean ====
section
/-! DEFINITION. The meanings of `Receiving` (spec/42_transfer_server.md R170 to R175). -/

namespace Sys2Proof.Machine

/-- `RX.IDLE` R170: nothing changes. -/
def execRxIdle (s : State) : Outcome := whenEnabled (s.state == .receiving && s.noLine) s

/-- `RX.BLANK` R171: the line is consumed. -/
def execRxBlank (s : State) : Outcome := onLine .receiving s (fun c => c == []) .next

/-- `RX.CHUNK` R172: the chunk is stored at the cursor. -/
def execRxChunk (b : Bytes) (s : State) : Outcome :=
  onLine .receiving s (fun c => isChunk s.cfg b c && decide (s.pos.toNat + b.length < s.cfg.frameSize))
    (fun t => t.storeChunk b id)

/-- `RX.CHUNK.LAST` R173: the chunk completes the frame and the refresh starts. -/
def execRxChunkLast (b : Bytes) (s : State) : Outcome :=
  onLine .receiving s (fun c => isChunk s.cfg b c && decide (s.pos.toNat + b.length = s.cfg.frameSize))
    (fun t => t.storeChunk b (fun u => { u with rphase := .init, state := .refresh }))

/-- `RX.BADHEX` R174: the session is aborted with `DecodeError`. -/
def execRxBadHex (line : Bytes) (s : State) : Outcome :=
  onLine .receiving s (fun c => c == line && c != [] && notHex s.cfg c) (fun t => .next (t.raise .decodeError))

/-- `RX.OVERFLOW` R175: the session is aborted with `OverflowError`. -/
def execRxOverflow (b : Bytes) (s : State) : Outcome :=
  onLine .receiving s (fun c => isChunk s.cfg b c && decide (s.cfg.frameSize < s.pos.toNat + b.length))
    (fun t => .next (t.raise .overflowError))

end Sys2Proof.Machine
end

