-- ==== Sys2Proof/Machine/Refresh.lean ====
section
/-! DEFINITION. The meanings of `Refresh` (spec/42_transfer_server.md R176 to R178). -/

namespace Sys2Proof.Machine

/-- Whether the device waits for the driver's answer to a call (R176 to R178). -/
def State.awaitsDriver (s : State) (call : RPhase) : Bool := s.state == .refresh && s.rphase == call

/-- `RF.INIT` R176. -/
def execRfInit (r : DriverAnswer) (s : State) : Outcome :=
  whenEnabled (s.awaitsDriver .init) (s.driverCall .init r (fun t => { t with rphase := .display }))

/-- `RF.DISPLAY` R177: the driver is handed `MemRead(0, FRAME_SIZE)`. -/
def execRfDisplay (r : DriverAnswer) (s : State) : Outcome :=
  match s.memRead 0 s.cfg.frameSize with
  | .ok frame =>
    whenEnabled (s.awaitsDriver .display) (s.driverCall (.display frame) r (fun t => { t with rphase := .sleep }))
  | .error f => .fault f

/-- `RF.SLEEP` R178: the session ends with `DONE` or `ERR_DISP:`. -/
def execRfSleep (r : DriverAnswer) (s : State) : Outcome :=
  whenEnabled (s.awaitsDriver .sleep) (s.driverCall .sleep r (fun t => (t.tx litDone).endSession))

end Sys2Proof.Machine
end

