-- ==== Sys2Proof/Machine/WaitQuery.lean ====
section
/-! DEFINITION. The meanings of `WaitQuery` (spec/42_transfer_server.md R164 to R169). -/

namespace Sys2Proof.Machine

/-- `WQ.IDLE` R164: nothing changes. -/
def execWqIdle (s : State) : Outcome := whenEnabled (s.state == .waitQuery && s.noLine) s

/-- `WQ.BLANK` R165: the line is consumed. -/
def execWqBlank (s : State) : Outcome := onLine .waitQuery s (fun c => c == []) .next

/-- `WQ.CAN_SEND` R166: the handshake is granted. -/
def execWqCanSend (s : State) : Outcome :=
  onLine .waitQuery s (fun c => c == litCanSend && !s.busy) (fun t => .next (t.tx litYes).openSession)

/-- `WQ.CAN_SEND.BUSY` R167: the handshake is refused. -/
def execWqCanSendBusy (s : State) : Outcome :=
  onLine .waitQuery s (fun c => c == litCanSend && s.busy) (fun t => .next (t.tx litBusy))

/-- `WQ.OTHER` R168: the line is consumed and dropped. -/
def execWqOther (line : Bytes) (s : State) : Outcome :=
  onLine .waitQuery s (fun c => c == line && c != [] && c != litCanSend) .next

end Sys2Proof.Machine
end

