-- ==== Sys2Proof/Machine/Dispatch.lean ====
section
/-! DEFINITION. The dispatch: one arm per constructor of Instr, each one call of its meaning. -/

namespace Sys2Proof.Machine

def exec (i : Instr) (s : State) : Host.Outcome State Fault Refusal :=
  match i with
  | .fcQuant v => Sys2Proof.Machine.execFcQuant v s
  | .fcPack l0 l1 l2 l3 => Sys2Proof.Machine.execFcPack l0 l1 l2 l3 s
  | .fcEncode raster => Sys2Proof.Machine.execFcEncode raster s
  | .hxEncByte b => Sys2Proof.Machine.execHxEncByte b s
  | .hxEncode p => Sys2Proof.Machine.execHxEncode p s
  | .hxDecPair c0 c1 => Sys2Proof.Machine.execHxDecPair c0 c1 s
  | .hxDecode text => Sys2Proof.Machine.execHxDecode text s
  | .btAlloc r => Sys2Proof.Machine.execBtAlloc r s
  | .btLeave => Sys2Proof.Machine.execBtLeave s
  | .srToggle => Sys2Proof.Machine.execSrToggle s
  | .srDone => Sys2Proof.Machine.execSrDone s
  | .wqIdle => Sys2Proof.Machine.execWqIdle s
  | .wqBlank => Sys2Proof.Machine.execWqBlank s
  | .wqCanSend => Sys2Proof.Machine.execWqCanSend s
  | .wqCanSendBusy => Sys2Proof.Machine.execWqCanSendBusy s
  | .wqOther c => Sys2Proof.Machine.execWqOther c s
  | .rxIdle => Sys2Proof.Machine.execRxIdle s
  | .rxBlank => Sys2Proof.Machine.execRxBlank s
  | .rxChunk b => Sys2Proof.Machine.execRxChunk b s
  | .rxChunkLast b => Sys2Proof.Machine.execRxChunkLast b s
  | .rxBadHex c => Sys2Proof.Machine.execRxBadHex c s
  | .rxOverflow b => Sys2Proof.Machine.execRxOverflow b s
  | .rfInit r => Sys2Proof.Machine.execRfInit r s
  | .rfDisplay r => Sys2Proof.Machine.execRfDisplay r s
  | .rfSleep r => Sys2Proof.Machine.execRfSleep r s
  | .ftEnter u => Sys2Proof.Machine.execFtEnter u s
  | .ftBlink => Sys2Proof.Machine.execFtBlink s
  | .msgYes => Sys2Proof.Machine.execMsgYes s
  | .msgBusy => Sys2Proof.Machine.execMsgBusy s
  | .msgOk => Sys2Proof.Machine.execMsgOk s
  | .msgErrOverflow => Sys2Proof.Machine.execMsgErrOverflow s
  | .msgErr reason => Sys2Proof.Machine.execMsgErr reason s
  | .msgErrDisp reason => Sys2Proof.Machine.execMsgErrDisp reason s
  | .msgErrMem => Sys2Proof.Machine.execMsgErrMem s
  | .msgDone => Sys2Proof.Machine.execMsgDone s
  | .msgFatal reason => Sys2Proof.Machine.execMsgFatal reason s
  | .msgReady => Sys2Proof.Machine.execMsgReady s

end Sys2Proof.Machine
end

