-- ==== Sys2Proof/Machine/Select.lean ====
section
/-! DEFINITION. What a step does before it runs an instruction: whose turn it is, which operation is enabled
(spec/42_transfer_server.md R184, spec/30_encoding.md R101), and what an event of the environment does. -/

namespace Sys2Proof.Machine

/-- The choice of a step. -/
inductive Choice where
  /-- Run an instruction in a state. -/
  | run (i : Instr) (s : State)
  /-- No instruction: the state as the environment, or nobody, leaves it. -/
  | settle (s : State)
  /-- A line the model gives no meaning to (R169). -/
  | refuse (r : Refusal)
  /-- No operation is enabled, in a configuration that R20 does not allow. -/
  | stop (f : Fault)
  deriving DecidableEq, Repr

/-- The operation of a reading state: the idle poll, or the class of the oldest complete line (R89). -/
def State.readChoice (s : State) (idle : Instr) : Choice :=
  match s.rxLine with
  | none => .run idle s
  | some (c, _) =>
    match decode s.cfg s.reader c with
    | .ok i => .run i s
    | .error _ => .refuse .lineTooLong

/-- The device's own move (R184): the enabled operation that needs no answer. Where the device waits for an answer
nothing happens until the environment gives it (R176, R185). -/
def State.deviceChoice (s : State) : Choice :=
  match s.state with
  | .boot => if s.fbValid then .run .btLeave s else .settle s
  | .signalReady =>
    if s.tcnt < s.cfg.nToggle then .run .srToggle s
    else if s.tcnt = s.cfg.nToggle then .run .srDone s
    else .stop .noOperation
  | .waitQuery => s.readChoice .wqIdle
  | .receiving => s.readChoice .rxIdle
  | .refresh => .settle s
  | .fatal => .run .ftBlink s

/-- The operation that takes the driver's answer to a call. -/
def driverInstr (call : RPhase) (r : DriverAnswer) : Instr :=
  match call with
  | .init => .rfInit r
  | .display => .rfDisplay r
  | .sleep => .rfSleep r

/-- The host's turn at `TXQ` (spec/10_state.md R30): its oldest line, as a message where it is one; any other line is a
reply the host did not expect (spec/43_host_contract.md R201, R203). -/
def State.hostReadChoice (s : State) : Choice :=
  if s.clientAsleep then .settle s
  else
    match s.txLine with
    | none => .settle s
    | some (c, t) =>
      match decode s.cfg .host c with
      | .ok i => .run i s
      | .error _ => .settle (t.clientReply c)

/-- What an event of the environment does. An answer to a call that was not made, and a fault in `Fatal`, do not exist
(spec/60_exceptions.md R239): nothing happens (log entry 10). -/
def State.envChoice (s : State) (e : EnvEvent) : Choice :=
  match e with
  | .dts => s.deviceChoice
  | .alloc r => if s.awaitsAlloc then .run (.btAlloc r) s else .settle s
  | .driver call r => if s.awaitsDriver call then .run (driverInstr call r) s else .settle s
  | .ufault u => if s.state = .fatal then .settle s else .run (.ftEnter u) s
  | .reset => .settle s.resetBlock
  | .call i => if i.isFunc then .run i s else .settle s
  | .hostBytes bs => .settle { s with rxq := s.rxq ++ bs }
  | .hostRead => s.hostReadChoice
  | .hostOpen payload => .settle (s.clientOpen payload)
  | .hostOpenRaster r => .settle (s.clientOpenRaster r)
  | .hostTimeout => .settle s.clientTimeout
  | .hostWake => .settle s.clientWake
  | .hostAbandon => .settle s.clientAbandon

/-- The choice of the next step: the environment's next event, or the device's own move where it has none. -/
def State.choice (s : State) : Choice :=
  match s.env with
  | [] => s.deviceChoice
  | e :: rest => { s with env := rest }.envChoice e

/-- The state in which the next step reads the line `c` as `decodeTableWord` does: a message at the head of `TXQ` with
the host to move, any other line at the head of `RXQ` with the device in `WaitQuery`, `BUSY = 0`, to move. -/
def State.withLine (s : State) (c : Bytes) : State :=
  match decode Config.params .host c with
  | .ok _ =>
    { s with txq := c ++ eol :: s.txq, env := .hostRead :: s.env,
             client := if s.clientAsleep then Client.fresh else s.client }
  | .error _ =>
    { s with rxq := c ++ eol :: s.rxq, state := .waitQuery, busy := false, env := .dts :: s.env }

end Sys2Proof.Machine
end

