-- ==== Sys2Proof/Machine/Step.lean ====
section
/-! DEFINITION. One step (spec/00_scope.md R13): the choice of Machine/Select.lean, and the instruction it names. -/

namespace Sys2Proof.Machine

/-- One step of the machine. -/
def step (s : State) : Host.Outcome State Fault Refusal :=
  match s.choice with
  | .run i t => exec i t
  | .settle t => .next t
  | .refuse r => .refused r
  | .stop f => .fault f

/-- The state with the line of a table row's bits where the next step reads it (log entry 1). -/
def State.withFetchWord (s : State) (nbits w : Nat) : State := s.withLine (bytesOfNumber (nbits / 8) w)

end Sys2Proof.Machine
end

