-- ==== Sys2Proof/Safety.lean ====
section
/-! DEFINITION. What counts as a safe run, in the terms the statements use: the invariants of spec/10_state.md R36, the
lines the device may put on `TXQ` (spec/30_encoding.md R90), rest and stop (spec/42_transfer_server.md R185). -/

namespace Sys2Proof.Machine

/-- A running account of the history (R35): the content last received, and the bytes of the chunks accepted since the
last grant. -/
structure SessionLog where
  last : Bytes
  accepted : Bytes
  deriving DecidableEq, Repr

/-- The account after one more line: `YES` opens a session, `OK` accepts the chunk last received. -/
def SessionLog.after (upperOk : Bool) (l : SessionLog) (e : LinkEvent) : SessionLog :=
  match e with
  | .received c => { l with last := c }
  | .sent c =>
    if c = litYes then { l with accepted := [] }
    else if c = litOk then
      match hxDecode upperOk l.last with
      | .ok b => { l with accepted := l.accepted ++ b }
      | .error _ => l
    else l

/-- The account of a whole history. -/
def sessionLog (upperOk : Bool) (h : List LinkEvent) : SessionLog :=
  h.foldl (SessionLog.after upperOk) { last := [], accepted := [] }

/-- The decoded bytes, in order, of every chunk accepted since the last grant (R36(f)). -/
def State.sessionBytes (s : State) : Bytes := (sessionLog s.cfg.hexUpperOk s.hist).accepted

/-- Every cell of `FB` lies below FRAME_SIZE (spec/20_memory.md R50, R58). -/
def Memory.below (m : Memory) (n : Nat) : Bool := m.all (fun c => decide (c.1 < n))

/-- The invariants between steps: R36 (a) to (f), the ranges of R20, and the canonical form of `FB`. -/
structure State.Inv (s : State) : Prop where
  /-- The parameters are admissible (spec/00_scope.md R8). -/
  cfgWf : s.cfg.wf = true
  /-- `FB` is in its canonical form and inside its addresses. -/
  fbWf : s.fb.wf = true
  fbBelow : s.fb.below s.cfg.frameSize = true
  /-- R36(a) -/
  receiving : s.state = .receiving → s.busy = true ∧ s.pos.toNat < s.cfg.frameSize
  /-- R36(b) -/
  refresh : s.state = .refresh → s.busy = true ∧ s.pos.toNat = s.cfg.frameSize
  /-- R36(c), and `BUSY = 0` before the first session (R23). -/
  notBusy : s.state = .boot ∨ s.state = .signalReady ∨ s.state = .waitQuery → s.busy = false
  /-- R36(d) -/
  serving : s.state = .signalReady ∨ s.state = .waitQuery ∨ s.state = .receiving ∨ s.state = .refresh →
    s.fbValid = true
  /-- R36(e) -/
  cursor : s.pos.toNat ≤ s.cfg.frameSize
  /-- The range of `TCNT` (R20, R27). -/
  toggles : s.tcnt ≤ s.cfg.nToggle
  /-- R36(f), which holds in `Refresh` too, where no store happens. -/
  frame : s.state = .receiving ∨ s.state = .refresh →
    s.sessionBytes.length = s.pos.toNat ∧ ∀ a, a < s.pos.toNat → s.fb.read a = s.sessionBytes[a]?

/-- A line the device may send (spec/30_encoding.md R90, R92): a message with an admissible reason, never `READY`
(R95(c)). -/
def isDeviceLine (p : Params) (c : Bytes) : Bool :=
  match decode p .host c with
  | .ok i => i.wf p && i != .msgReady
  | .error _ => false

/-- `TXQ` holds whole device lines and nothing else (spec/10_state.md R20, R30). -/
def State.TxLines (s : State) : Prop :=
  ∃ lines : List Bytes, (∀ c ∈ lines, isDeviceLine s.cfg c = true) ∧ s.txq = lines.flatMap (fun c => c ++ [eol])

/-- The device is at rest (R185). -/
def State.AtRest (s : State) : Prop := s.state = .waitQuery ∧ splitLine s.rxq = none

/-- The device is stopped (R185). -/
def State.Stopped (s : State) : Prop := s.state = .fatal

/-- The device is in progress (R185). -/
def State.InProgress (s : State) : Prop := ¬ s.AtRest ∧ ¬ s.Stopped

/-- The device waits for an answer of the environment: the allocator's in `Boot`, the driver's in `Refresh` (R184). -/
def State.AwaitsAnswer (s : State) : Prop := (s.state = .boot ∧ s.fbValid = false) ∨ s.state = .refresh

end Sys2Proof.Machine
end

