-- ==== Sys2Proof/Certificates/Slice0/Obligations.lean ====
section
/-! DEFINITION. The statements for the provers, from the numbered rules of spec/. A statement's docstring names the rule;
where a clause rests on one of the spec's own decisions (D<n>) or on a choice of the model (a log entry), it says so. -/

namespace Sys2Proof.Machine

/-! ### Words of the statements -/

/-- The sixteen characters of R143, in order. -/
def lowerDigits : Bytes :=
  [0x30, 0x31, 0x32, 0x33, 0x34, 0x35, 0x36, 0x37, 0x38, 0x39, 0x61, 0x62, 0x63, 0x64, 0x65, 0x66]

/-- The upper-case row of R143 (D12). -/
def upperDigits : Bytes := [0x41, 0x42, 0x43, 0x44, 0x45, 0x46]

/-- The table `val` of R143, by position in its rows. -/
def digitValue (upperOk : Bool) (ch : Byte) : Option Nat :=
  match lowerDigits.idxOf? ch with
  | some n => some n
  | none => if upperOk then (upperDigits.idxOf? ch).map (fun n => n + 10) else none

/-- A character with `A`..`F` replaced by `a`..`f` (R147). -/
def lowerCase (ch : Byte) : Byte := if ch ∈ upperDigits then ch + 0x20 else ch

/-- The sample of a raster at row-major index `i`: `raster[i div W][i mod W]` (R123). -/
def sampleAt (r : Raster) (i : Nat) : Byte := (r.rows.getD (i / r.width) []).getD (i % r.width) 0

/-- The state with the oldest line of `RXQ` consumed: `rest` is left, the content enters the history (R86, R35). -/
def State.consumed (s : State) (c rest : Bytes) : State :=
  { s with rxq := rest, hist := s.hist ++ [.received c] }

/-- The state with one line more on `TXQ` and in the history (R12, R35). -/
def State.replied (s : State) (c : Bytes) : State :=
  { s with txq := s.txq ++ c ++ [0x0A], hist := s.hist ++ [.sent c] }

/-- A line of `RXQ` that an operation may read: `c` is the trimmed content of the oldest complete line, `rest` what
follows its EOL, and `c` is within LINE_MAX (R85, R87, R95(e)). -/
def State.Line (s : State) (c rest : Bytes) : Prop :=
  ∃ raw, splitLine s.rxq = some (raw, rest) ∧ trim raw = c ∧ c.length ≤ s.cfg.lineMax

/-- A line of `TXQ` that the host reads. -/
def State.Reply (s : State) (c rest : Bytes) : Prop := ∃ raw, splitLine s.txq = some (raw, rest) ∧ trim raw = c

/-- The host's attempt over, the reply taken off `TXQ` (R205). -/
def State.attemptOver (s : State) (rest : Bytes) (r : ClientResult) : State :=
  { s with txq := rest, client := { s.client with phase := .closed r, linkOpen := false } }

/-- The text of a reply surfaced to the caller, the reply taken off `TXQ`, the attempt going on (R207). -/
def State.surfacing (s : State) (c rest : Bytes) : State :=
  { s with txq := rest, client := { s.client with surfaced := s.client.surfaced ++ [c] } }

/-- The state of the host's transmit loop after an event: `text` is what is still to send (R203). -/
def State.sendsNext (s : State) (text : Bytes) : State :=
  if text = [] then { s with client := { s.client with phase := .complete } }
  else
    { s with
      rxq := s.rxq ++ text.take (2 * s.cfg.chunkRaw) ++ [0x0A]
      client := { s.client with
        phase := .transmit (text.take (2 * s.cfg.chunkRaw)).length (text.drop (2 * s.cfg.chunkRaw)) } }

/-- The lines of the chunks of a frame, on the wire (R80, R88). -/
def chunkWire (chunks : List Bytes) : Bytes := chunks.flatMap (fun b => hxEncode b ++ [0x0A])

/-- The pieces of the state, for the frame table. -/
inductive Field where
  | cfg | state | pos | busy | fb | fbValid | ind | tcnt | rphase | rxq | txq | hist | drvCalls | port | client | env
  deriving DecidableEq, Repr

/-- A piece of the state is the same in two states. -/
def Field.same (f : Field) (s t : State) : Prop :=
  match f with
  | .cfg => t.cfg = s.cfg
  | .state => t.state = s.state
  | .pos => t.pos = s.pos
  | .busy => t.busy = s.busy
  | .fb => t.fb = s.fb
  | .fbValid => t.fbValid = s.fbValid
  | .ind => t.ind = s.ind
  | .tcnt => t.tcnt = s.tcnt
  | .rphase => t.rphase = s.rphase
  | .rxq => t.rxq = s.rxq
  | .txq => t.txq = s.txq
  | .hist => t.hist = s.hist
  | .drvCalls => t.drvCalls = s.drvCalls
  | .port => t.port = s.port
  | .client => t.client = s.client
  | .env => t.env = s.env

/-- The pieces an instruction writes: the "Registers written" and "Lines sent" of its rule (and the column "written by"
of R20). -/
def writes : Instr → List Field
  | .fcQuant _ | .fcPack _ _ _ _ | .fcEncode _ | .hxEncByte _ | .hxEncode _ | .hxDecPair _ _ | .hxDecode _ => [.port]
  | .btAlloc .ok => [.fbValid, .fb]
  | .btAlloc .fail => [.txq, .hist]
  | .btLeave => [.tcnt, .ind, .state]
  | .srToggle => [.ind, .tcnt]
  | .srDone => [.ind, .state]
  | .wqIdle | .rxIdle => []
  | .wqBlank | .wqOther _ | .rxBlank => [.rxq, .hist]
  | .wqCanSend => [.rxq, .hist, .txq, .busy, .pos, .state]
  | .wqCanSendBusy => [.rxq, .hist, .txq]
  | .rxChunk _ => [.rxq, .hist, .txq, .fb, .pos]
  | .rxChunkLast _ => [.rxq, .hist, .txq, .fb, .pos, .rphase, .state]
  | .rxBadHex _ | .rxOverflow _ => [.rxq, .hist, .txq, .busy, .state]
  | .rfInit .ok | .rfDisplay .ok => [.drvCalls, .rphase]
  | .rfInit (.fail _) | .rfDisplay (.fail _) | .rfSleep _ => [.drvCalls, .txq, .hist, .busy, .state]
  | .ftEnter _ => [.txq, .hist, .state]
  | .ftBlink => [.ind]
  | .msgYes | .msgBusy | .msgOk | .msgErrOverflow | .msgErr _ | .msgErrDisp _ | .msgErrMem | .msgDone | .msgFatal _
  | .msgReady => [.txq, .rxq, .client]

/-- The column STATE of R182: the state an operation is enabled in; any state for FC, HX and the messages. -/
def enabledIn (i : Instr) (st : DevState) : Prop :=
  match i with
  | .btAlloc _ | .btLeave => st = .boot
  | .srToggle | .srDone => st = .signalReady
  | .wqIdle | .wqBlank | .wqCanSend | .wqCanSendBusy | .wqOther _ => st = .waitQuery
  | .rxIdle | .rxBlank | .rxChunk _ | .rxChunkLast _ | .rxBadHex _ | .rxOverflow _ => st = .receiving
  | .rfInit _ | .rfDisplay _ | .rfSleep _ => st = .refresh
  | .ftEnter _ => st ≠ .fatal
  | .ftBlink => st = .fatal
  | .fcQuant _ | .fcPack _ _ _ _ | .fcEncode _ | .hxEncByte _ | .hxEncode _ | .hxDecPair _ _ | .hxDecode _
  | .msgYes | .msgBusy | .msgOk | .msgErrOverflow | .msgErr _ | .msgErrDisp _ | .msgErrMem | .msgDone | .msgFatal _
  | .msgReady => True

/-- The column "next STATE" of R182. -/
def nextState (i : Instr) (st : DevState) : DevState :=
  match i with
  | .btLeave => .signalReady
  | .srDone => .waitQuery
  | .wqCanSend => .receiving
  | .rxChunkLast _ => .refresh
  | .rxBadHex _ | .rxOverflow _ | .rfInit (.fail _) | .rfDisplay (.fail _) | .rfSleep _ => .waitQuery
  | .ftEnter _ => .fatal
  | .btAlloc _ | .srToggle | .wqIdle | .wqBlank | .wqCanSendBusy | .wqOther _ | .rxIdle | .rxBlank | .rxChunk _
  | .rfInit .ok | .rfDisplay .ok | .ftBlink
  | .fcQuant _ | .fcPack _ _ _ _ | .fcEncode _ | .hxEncByte _ | .hxEncode _ | .hxDecPair _ _ | .hxDecode _
  | .msgYes | .msgBusy | .msgOk | .msgErrOverflow | .msgErr _ | .msgErrDisp _ | .msgErrMem | .msgDone | .msgFatal _
  | .msgReady => st

/-- The column "lines sent" of R182, of an operation of the device. -/
def linesSent (p : Params) : Instr → List Bytes
  | .btAlloc .fail => [litErrMem]
  | .wqCanSend => [litYes]
  | .wqCanSendBusy => [litBusy]
  | .rxChunk _ | .rxChunkLast _ => [litOk]
  | .rxBadHex _ => [litErr ++ p.reasonHex]
  | .rxOverflow _ => [litErrOverflow]
  | .rfInit (.fail f) | .rfDisplay (.fail f) | .rfSleep (.fail f) => [litErrDisp ++ p.reasonDisp.text f]
  | .rfSleep .ok => [litDone]
  | .ftEnter u => [litFatal ++ p.reasonFatal.text u]
  | .btAlloc .ok | .btLeave | .srToggle | .srDone | .wqIdle | .wqBlank | .wqOther _ | .rxIdle | .rxBlank
  | .rfInit .ok | .rfDisplay .ok | .ftBlink
  | .fcQuant _ | .fcPack _ _ _ _ | .fcEncode _ | .hxEncByte _ | .hxEncode _ | .hxDecPair _ _ | .hxDecode _
  | .msgYes | .msgBusy | .msgOk | .msgErrOverflow | .msgErr _ | .msgErrDisp _ | .msgErrMem | .msgDone | .msgFatal _
  | .msgReady => []

end Sys2Proof.Machine

open Sys2Proof Sys2Proof.Machine

/-! ### Unit FC (spec/40_frame_codec.md) -/

/-- R121 with the thresholds of R7 and the boundary of D8: the level is the two most significant bits of the sample, and
nothing but the function interface changes (log entry 12). -/
def Obligations.QuantLevelIsTopTwoBits : Prop :=
  ∀ (s : State) (v : Byte), s.cfg.t1 = 64 → s.cfg.t2 = 128 → s.cfg.t3 = 192 → s.cfg.qUpper = true →
    exec (.fcQuant v) s = .next { s with port := .level (v.extractLsb' 6 2) }

/-- R121, R125: quantization is monotonic, for every admissible threshold set and either reading of equality. -/
def Obligations.QuantIsMonotonic : Prop :=
  ∀ (s : State) (v w : Byte), s.cfg.wf = true → v.toNat ≤ w.toNat →
    ∃ l m : Level, exec (.fcQuant v) s = .next { s with port := .level l } ∧
      exec (.fcQuant w) s = .next { s with port := .level m } ∧ l.toNat ≤ m.toNat

/-- R122, R126: for every admissible `PACK_POS`, packing puts each level into its field and is a bijection from runs of
four levels onto bytes. -/
def Obligations.PackIsBijection : Prop :=
  ∀ s : State, s.cfg.packPos.wf = true →
    (∀ l0 l1 l2 l3 : Level, ∃ b : Byte, exec (.fcPack l0 l1 l2 l3) s = .next { s with port := .byte b } ∧
      fcUnpack s.cfg.packPos b = (l0, l1, l2, l3)) ∧
    (∀ b : Byte, exec (.fcPack (fcUnpack s.cfg.packPos b).1 (fcUnpack s.cfg.packPos b).2.1
      (fcUnpack s.cfg.packPos b).2.2.1 (fcUnpack s.cfg.packPos b).2.2.2) s = .next { s with port := .byte b })

/-- R123, R125, R51, with the PPB of R7: a raster of 4*FRAME_SIZE samples gives exactly FRAME_SIZE bytes, byte `a` the
packed levels of the samples 4a to 4a+3 in row-major order. -/
def Obligations.EncodePacksRowMajorRuns : Prop :=
  ∀ (s : State) (r : Raster), s.cfg.ppb = 4 → r.wf = true → r.width * r.height = 4 * s.cfg.frameSize →
    ∃ out : Bytes, exec (.fcEncode r) s = .next { s with port := .bytes out } ∧ out.length = s.cfg.frameSize ∧
      ∀ a, a < s.cfg.frameSize → out[a]? = some (fcPack s.cfg.packPos
        (fcQuant s.cfg (sampleAt r (4 * a))) (fcQuant s.cfg (sampleAt r (4 * a + 1)))
        (fcQuant s.cfg (sampleAt r (4 * a + 2))) (fcQuant s.cfg (sampleAt r (4 * a + 3))))

/-- R124 (D10, D32): a pixel count other than PPB*FRAME_SIZE is `SizeMismatch`, an error result, with no output and no
state change but at the function interface. -/
def Obligations.EncodeSizeMismatch : Prop :=
  ∀ (s : State) (r : Raster), r.width * r.height ≠ s.cfg.ppb * s.cfg.frameSize →
    exec (.fcEncode r) s = .next { s with port := .sizeMismatch }

/-! ### Unit HX (spec/41_hex_codec.md) -/

/-- R141 (high nibble first: D11): the two digits of a byte. -/
def Obligations.EncByteTwoDigits : Prop :=
  ∀ (s : State) (b : Byte), exec (.hxEncByte b) s = .next { s with
    port := .bytes [lowerDigits.getD (b.toNat / 16) 0, lowerDigits.getD (b.toNat % 16) 0] }

/-- R142: the digits of every byte in order (high nibble first: D11), two characters a byte, all of them lowercase
digits, concatenation into concatenation, and cutting the text every 2n characters is cutting the bytes every n. -/
def Obligations.HexTextOfBytes : Prop :=
  ∀ (s : State) (p q : Bytes), ∃ text : Bytes,
    exec (.hxEncode p) s = .next { s with port := .bytes text } ∧
      text = p.flatMap (fun b => [lowerDigits.getD (b.toNat / 16) 0, lowerDigits.getD (b.toNat % 16) 0]) ∧
      text.length = 2 * p.length ∧ (∀ ch ∈ text, ch ∈ lowerDigits) ∧ hxEncode (p ++ q) = text ++ hxEncode q ∧
      ∀ n, hxEncode (p.take n) = text.take (2 * n) ∧ hxEncode (p.drop n) = text.drop (2 * n)

/-- R144, R143: a pair of hex characters is the byte of its two values, first character high (D11); anything else is
`InvalidHex`. `A` to `F` are hex characters where HEX_UPPER_OK holds, as D12 decides, and none where it is overridden (log
entry 7). -/
def Obligations.DecPairByTable : Prop :=
  ∀ (s : State) (c0 c1 : Byte), exec (.hxDecPair c0 c1) s = .next { s with
    port := match digitValue s.cfg.hexUpperOk c0, digitValue s.cfg.hexUpperOk c1 with
      | some hi, some lo => .byte (BitVec.ofNat 8 (16 * hi + lo))
      | _, _ => .invalidHex }

/-- R145: `InvalidHex` on odd length or on a character that is no hex digit, else half as many bytes, each the value of
its pair. The empty text decodes to no bytes (D13). -/
def Obligations.DecodeByTable : Prop :=
  ∀ (s : State) (text : Bytes),
    if text.length % 2 = 1 ∨ ∃ ch ∈ text, digitValue s.cfg.hexUpperOk ch = none then
      exec (.hxDecode text) s = .next { s with port := .invalidHex }
    else ∃ b : Bytes, exec (.hxDecode text) s = .next { s with port := .bytes b } ∧ 2 * b.length = text.length ∧
      ∀ j, j < b.length → ∃ hi lo, digitValue s.cfg.hexUpperOk (text.getD (2 * j) 0) = some hi ∧
        digitValue s.cfg.hexUpperOk (text.getD (2 * j + 1) 0) = some lo ∧
        b[j]? = some (BitVec.ofNat 8 (16 * hi + lo))

/-- R147: decoding undoes encoding for every byte string, and encoding what a text decodes to gives the text in lower
case. -/
def Obligations.HexRoundTrip : Prop :=
  ∀ upperOk : Bool, (∀ p : Bytes, hxDecode upperOk (hxEncode p) = .ok p) ∧
    ∀ text b : Bytes, hxDecode upperOk text = .ok b → hxEncode b = text.map lowerCase

/-! ### Reset and boot -/

/-- R37 (D25), R7 and R8: what reset leaves, but for `POS` and `RPHASE`, which the spec leaves unspecified (log entries 3,
4). Of R8, the decided or default value of each parameter that the model lets be overridden and of LINE_MAX, the three
reasons written out from R92; N_TOGGLE and the three periods have no value there. -/
def Obligations.ResetValues : Prop :=
  State.reset.state = .boot ∧ State.reset.busy = false ∧ State.reset.fbValid = false ∧ State.reset.ind = false ∧
    State.reset.tcnt = 0 ∧ State.reset.rxq = [] ∧ State.reset.txq = [] ∧ (∀ a, State.reset.fb.read a = none) ∧
    State.reset.cfg.width = 800 ∧ State.reset.cfg.height = 480 ∧ State.reset.cfg.frameSize = 96000 ∧
    State.reset.cfg.bpp = 2 ∧ State.reset.cfg.ppb = 4 ∧ State.reset.cfg.sampleBits = 8 ∧
    State.reset.cfg.baud = 115200 ∧ State.reset.cfg.tChunkAck = 3 ∧ State.reset.cfg.tHandshake = 2 ∧
    State.reset.cfg.tBackoff = 2 ∧ State.reset.cfg.t1 = 64 ∧ State.reset.cfg.t2 = 128 ∧ State.reset.cfg.t3 = 192 ∧
    State.reset.cfg.chunkRaw = 512 ∧ State.reset.cfg.nHandshake = 5 ∧ State.reset.cfg.lineMax = 1024 ∧
    State.reset.cfg.qUpper = true ∧ State.reset.cfg.hexUpperOk = true ∧
    State.reset.cfg.packPos = { k0 := .p6, k1 := .p4, k2 := .p2, k3 := .p0 } ∧
    State.reset.cfg.reasonHex = [0x49, 0x4E, 0x56, 0x41, 0x4C, 0x49, 0x44, 0x5F, 0x48, 0x45, 0x58] ∧
    (∀ f, State.reset.cfg.reasonDisp.text f = [0x44, 0x49, 0x53, 0x50, 0x4C, 0x41, 0x59]) ∧
    (∀ u, State.reset.cfg.reasonFatal.text u =
      [0x55, 0x4E, 0x43, 0x4C, 0x41, 0x53, 0x53, 0x49, 0x46, 0x49, 0x45, 0x44]) ∧
    State.reset.cfg.chunkHex = 1024 ∧ State.reset.cfg.wf = true

/-- The invariants hold at reset, and `TXQ` holds device lines only. -/
def Obligations.ResetMeetsInvariants : Prop := State.reset.Inv ∧ State.reset.TxLines

/-- R270, R271 (D25): a reset from outside puts the block into the state of R37 from every state; the parameters, the
host and the outputs already made are not the block's. -/
def Obligations.ResetEventClearsBlock : Prop :=
  ∀ (s : State) (rest : List EnvEvent), s.env = .reset :: rest → ∃ t, step s = .next t ∧
    t.state = .boot ∧ t.busy = false ∧ t.fbValid = false ∧ t.ind = false ∧ t.tcnt = 0 ∧ t.rxq = [] ∧ t.txq = [] ∧
    (∀ a, t.fb.read a = none) ∧ t.cfg = s.cfg ∧ t.client = s.client ∧ t.drvCalls = s.drvCalls ∧ t.hist = s.hist ∧
    t.port = s.port ∧ t.env = rest

/-- R160, R233 (D17): the allocator's answer; `ok` gives a framebuffer of unspecified bytes, `fail` sends `ERR_MEM` and
the device asks again. -/
def Obligations.AllocAnswered : Prop :=
  ∀ s : State, s.state = .boot → s.fbValid = false →
    exec (.btAlloc .ok) s = .next { s with fbValid := true, fb := [] } ∧
    exec (.btAlloc .fail) s = .next (s.replied litErrMem)

/-- R161. -/
def Obligations.BootLeaves : Prop :=
  ∀ s : State, s.state = .boot → s.fbValid = true →
    exec .btLeave s = .next { s with tcnt := 0, ind := false, state := .signalReady }

/-- R162 (the count: D19). -/
def Obligations.IndicatorToggles : Prop :=
  ∀ s : State, s.state = .signalReady → s.tcnt < s.cfg.nToggle →
    exec .srToggle s = .next { s with ind := !s.ind, tcnt := s.tcnt + 1 }

/-- R163. -/
def Obligations.SignalReadyEnds : Prop :=
  ∀ s : State, s.state = .signalReady → s.tcnt = s.cfg.nToggle →
    exec .srDone s = .next { s with ind := false, state := .waitQuery }

/-- R272, R184: from `Boot` with a framebuffer, after `BT.LEAVE`, N_TOGGLE toggles and `SR.DONE` the device serves, the
indicator is off and nothing has been sent or read. -/
def Obligations.BootReachesWaitQuery : Prop :=
  ∀ s : State, s.state = .boot → s.fbValid = true → s.env = [] →
    core.run (s.cfg.nToggle + 2) s = .next { s with tcnt := s.cfg.nToggle, ind := false, state := .waitQuery }

/-! ### WaitQuery and Receiving -/

/-- R164, R170: with no complete line nothing changes. -/
def Obligations.IdlePollsChangeNothing : Prop :=
  ∀ s : State, splitLine s.rxq = none →
    (s.state = .waitQuery → exec .wqIdle s = .next s) ∧ (s.state = .receiving → exec .rxIdle s = .next s)

/-- R165, R171, with the trimming of R87 (D4): a line of nothing but bytes of `WS` (spaces, tabs, carriage returns, or no
byte at all) is blank and is consumed without a reply. Of any other line R87 removes the bytes of `WS` at its ends and keeps
those inside: in `WaitQuery` the line of `WQ.OTHER` (R168) is then `c`. -/
def Obligations.BlankLinesConsumed : Prop :=
  (∀ (s : State) (raw rest : Bytes), s.rxq = raw ++ [0x0A] ++ rest →
    (∀ b ∈ raw, b ∈ ([0x20, 0x09, 0x0D] : Bytes)) →
    (s.state = .waitQuery → exec .wqBlank s = .next (s.consumed [] rest)) ∧
    (s.state = .receiving → exec .rxBlank s = .next (s.consumed [] rest))) ∧
  ∀ (s : State) (before after c rest : Bytes) (first last : Byte), s.state = .waitQuery →
    s.rxq = before ++ c ++ after ++ [0x0A] ++ rest →
    (∀ b ∈ before ++ after, b ∈ ([0x20, 0x09, 0x0D] : Bytes)) → 0x0A ∉ c →
    c.head? = some first → first ∉ ([0x20, 0x09, 0x0D] : Bytes) →
    c.getLast? = some last → last ∉ ([0x20, 0x09, 0x0D] : Bytes) →
    c.length ≤ s.cfg.lineMax → c ≠ litCanSend → exec (.wqOther c) s = .next (s.consumed c rest)

/-- R166. -/
def Obligations.HandshakeGranted : Prop :=
  ∀ (s : State) (rest : Bytes), s.state = .waitQuery → s.busy = false → s.Line litCanSend rest →
    exec .wqCanSend s = .next { (s.consumed litCanSend rest).replied litYes with
      busy := true, pos := 0, state := .receiving }

/-- R167. -/
def Obligations.HandshakeRefused : Prop :=
  ∀ (s : State) (rest : Bytes), s.state = .waitQuery → s.busy = true → s.Line litCanSend rest →
    exec .wqCanSendBusy s = .next ((s.consumed litCanSend rest).replied litBusy)

/-- R168. -/
def Obligations.OtherLinesIgnored : Prop :=
  ∀ (s : State) (c rest : Bytes), s.state = .waitQuery → s.Line c rest → c ≠ [] → c ≠ litCanSend →
    exec (.wqOther c) s = .next (s.consumed c rest)

/-- R172, R53: the chunk is stored at the cursor, the cursor advances, `OK` is sent, nothing else changes. -/
def Obligations.ChunkStored : Prop :=
  ∀ (s : State) (c rest b : Bytes), s.state = .receiving → s.cfg.frameSize < 2 ^ 17 → s.Line c rest → c ≠ [] →
    hxDecode s.cfg.hexUpperOk c = .ok b → s.pos.toNat + b.length < s.cfg.frameSize →
    ∃ (pos' : Cursor) (fb' : Memory),
      exec (.rxChunk b) s = .next { (s.consumed c rest).replied litOk with pos := pos', fb := fb' } ∧
      pos'.toNat = s.pos.toNat + b.length ∧
      ∀ a, fb'.read a = if s.pos.toNat ≤ a ∧ a < s.pos.toNat + b.length then b[a - s.pos.toNat]? else s.fb.read a

/-- R173: the chunk that completes the frame is stored and acknowledged, and the refresh starts. -/
def Obligations.LastChunkStartsRefresh : Prop :=
  ∀ (s : State) (c rest b : Bytes), s.state = .receiving → s.cfg.frameSize < 2 ^ 17 → s.Line c rest → c ≠ [] →
    hxDecode s.cfg.hexUpperOk c = .ok b → s.pos.toNat + b.length = s.cfg.frameSize →
    ∃ (pos' : Cursor) (fb' : Memory),
      exec (.rxChunkLast b) s = .next { (s.consumed c rest).replied litOk with
        pos := pos', fb := fb', rphase := .init, state := .refresh } ∧
      pos'.toNat = s.cfg.frameSize ∧
      ∀ a, fb'.read a = if s.pos.toNat ≤ a ∧ a < s.cfg.frameSize then b[a - s.pos.toNat]? else s.fb.read a

/-- R231 (raised by R174): a line that is not valid hex aborts the session. -/
def Obligations.BadHexAborts : Prop :=
  ∀ (s : State) (c rest : Bytes), s.state = .receiving → s.Line c rest → c ≠ [] →
    hxDecode s.cfg.hexUpperOk c = .error .invalidHex →
    exec (.rxBadHex c) s = .next { (s.consumed c rest).replied (litErr ++ s.cfg.reasonHex) with
      busy := false, state := .waitQuery }

/-- R175, R232: a chunk that would pass the end of the framebuffer aborts the session, and no byte of it is stored. -/
def Obligations.OverflowAborts : Prop :=
  ∀ (s : State) (c rest b : Bytes), s.state = .receiving → s.Line c rest → c ≠ [] →
    hxDecode s.cfg.hexUpperOk c = .ok b → s.cfg.frameSize < s.pos.toNat + b.length →
    exec (.rxOverflow b) s = .next { (s.consumed c rest).replied litErrOverflow with
      busy := false, state := .waitQuery }

/-- R169, R95(e) (D6): a line over LINE_MAX is refused by the step, in either reading state, and by every operation that
would read it. -/
def Obligations.OverlongLineRefused : Prop :=
  ∀ (s : State) (raw rest b c : Bytes), splitLine s.rxq = some (raw, rest) → s.cfg.lineMax < (trim raw).length →
    (s.state = .waitQuery → s.env = [] → step s = .refused .lineTooLong) ∧
    (s.state = .receiving → s.env = [] → step s = .refused .lineTooLong) ∧
    (s.state = .waitQuery → exec .wqBlank s = .refused .lineTooLong ∧ exec .wqCanSend s = .refused .lineTooLong ∧
      exec .wqCanSendBusy s = .refused .lineTooLong ∧ exec (.wqOther c) s = .refused .lineTooLong) ∧
    (s.state = .receiving → exec .rxBlank s = .refused .lineTooLong ∧ exec (.rxChunk b) s = .refused .lineTooLong ∧
      exec (.rxChunkLast b) s = .refused .lineTooLong ∧ exec (.rxBadHex c) s = .refused .lineTooLong ∧
      exec (.rxOverflow b) s = .refused .lineTooLong)

/-! ### Refresh and Fatal -/

/-- R176, R177 (three steps: D20): an answer `ok` to `init` and to `display` advances `RPHASE`; the call, with the bytes
of `FB` for `display`, enters the output (log entry 13). -/
def Obligations.RefreshAdvances : Prop :=
  ∀ s : State, s.state = .refresh →
    (s.rphase = .init → exec (.rfInit .ok) s = .next { s with
      rphase := .display, drvCalls := s.drvCalls ++ [.init] }) ∧
    (s.rphase = .display → ∃ frame, exec (.rfDisplay .ok) s = .next { s with
      rphase := .sleep, drvCalls := s.drvCalls ++ [.display frame] } ∧
      frame.length = s.cfg.frameSize ∧ ∀ a, a < s.cfg.frameSize → frame[a]? = some (s.fb.read a))

/-- R178: the last answer ends the session with `DONE` or with `ERR_DISP:`reason. -/
def Obligations.SleepEndsSession : Prop :=
  ∀ s : State, s.state = .refresh → s.rphase = .sleep →
    exec (.rfSleep .ok) s = .next { s.replied litDone with
      busy := false, state := .waitQuery, drvCalls := s.drvCalls ++ [.sleep] } ∧
    ∀ f, exec (.rfSleep (.fail f)) s = .next { s.replied (litErrDisp ++ s.cfg.reasonDisp.text f) with
      busy := false, state := .waitQuery, drvCalls := s.drvCalls ++ [.sleep] }

/-- R234: a failing answer to any of the three calls ends the session; the remaining calls are not made. -/
def Obligations.DriverFailureEndsSession : Prop :=
  ∀ (s : State) (f : Nat), s.state = .refresh →
    (s.rphase = .init → exec (.rfInit (.fail f)) s = .next { s.replied (litErrDisp ++ s.cfg.reasonDisp.text f) with
      busy := false, state := .waitQuery, drvCalls := s.drvCalls ++ [.init] }) ∧
    (s.rphase = .display → ∃ frame, exec (.rfDisplay (.fail f)) s = .next
      { s.replied (litErrDisp ++ s.cfg.reasonDisp.text f) with
        busy := false, state := .waitQuery, drvCalls := s.drvCalls ++ [.display frame] }) ∧
    (s.rphase = .sleep → exec (.rfSleep (.fail f)) s = .next { s.replied (litErrDisp ++ s.cfg.reasonDisp.text f) with
      busy := false, state := .waitQuery, drvCalls := s.drvCalls ++ [.sleep] })

/-- R235 (raised by R179): an unclassified fault sends `FATAL:`reason and stops the device; nothing else is written, and
from then on, of the device's operations, only `FT.BLINK` runs. -/
def Obligations.FaultEntersFatal : Prop :=
  (∀ (s : State) (u : Nat), s.state ≠ .fatal →
    exec (.ftEnter u) s = .next { s.replied (litFatal ++ s.cfg.reasonFatal.text u) with state := .fatal }) ∧
  ∀ (s t : State) (i : Instr), s.state = .fatal → i.isFunc = false → i.isMessage = false → exec i s = .next t →
    i = .ftBlink

/-- R180 (D24): the only operation of the terminal state toggles the indicator. -/
def Obligations.FatalBlinks : Prop := ∀ s : State, s.state = .fatal → exec .ftBlink s = .next { s with ind := !s.ind }

/-! ### The host reads the messages (spec/43_host_contract.md; log entries 16, 17, 18) -/

/-- R201, R203 (D30): what each message does to a host that waits for the answer to its handshake. The payload may have any
length (log entry 26). -/
def Obligations.HandshakeReplies : Prop :=
  ∀ (s : State) (c rest : Bytes) (k : Nat), s.Reply c rest → s.client.phase = .handshake k →
    (c = litYes → exec .msgYes s = .next (State.sendsNext { s with
      txq := rest
      client := { s.client with bytesSent := 0, totalHexLength := 2 * s.client.payload.length } }
      (hxEncode s.client.payload))) ∧
    (c = litBusy → exec .msgBusy s = .next { s with txq := rest, client := { s.client with phase := .backoff k } }) ∧
    (∀ r, c = litErr ++ r → exec (.msgErr r) s = .next (s.attemptOver rest (.deviceError c))) ∧
    (c = litErrOverflow → exec .msgErrOverflow s = .next (s.attemptOver rest (.deviceError c))) ∧
    (c = litOk → exec .msgOk s = .next (s.attemptOver rest (.protocolError c))) ∧
    (∀ r, c = litErrDisp ++ r → exec (.msgErrDisp r) s = .next (s.attemptOver rest (.protocolError c))) ∧
    (c = litErrMem → exec .msgErrMem s = .next (s.attemptOver rest (.protocolError c))) ∧
    (c = litDone → exec .msgDone s = .next (s.attemptOver rest (.protocolError c))) ∧
    (∀ r, c = litFatal ++ r → exec (.msgFatal r) s = .next (s.attemptOver rest (.protocolError c))) ∧
    (c = litReady → exec .msgReady s = .next (s.attemptOver rest (.protocolError c)))

/-- R203, R206, R208 (D30): what each message does to a host that waits for the answer to a chunk line of `n`
characters. A `FATAL:` line counts as an error reply only where its reason holds `ERR`. -/
def Obligations.ChunkReplies : Prop :=
  ∀ (s : State) (c rest text : Bytes) (n : Nat), s.Reply c rest → s.client.phase = .transmit n text →
    (c = litOk → exec .msgOk s = .next (State.sendsNext { s with
      txq := rest, client := { s.client with bytesSent := s.client.bytesSent + n } } text)) ∧
    (∀ r, c = litErr ++ r → exec (.msgErr r) s = .next (s.attemptOver rest (.deviceError c))) ∧
    (c = litErrOverflow → exec .msgErrOverflow s = .next (s.attemptOver rest (.deviceError c))) ∧
    (∀ r, c = litErrDisp ++ r → exec (.msgErrDisp r) s = .next (s.attemptOver rest (.deviceError c))) ∧
    (c = litErrMem → exec .msgErrMem s = .next (s.attemptOver rest (.deviceError c))) ∧
    (c = litYes → exec .msgYes s = .next (s.attemptOver rest (.protocolError c))) ∧
    (c = litBusy → exec .msgBusy s = .next (s.attemptOver rest (.protocolError c))) ∧
    (c = litDone → exec .msgDone s = .next (s.attemptOver rest (.protocolError c))) ∧
    (∀ r, c = litFatal ++ r → exec (.msgFatal r) s = .next (s.attemptOver rest
      (if litErrText <:+: r then .deviceError c else .protocolError c))) ∧
    (c = litReady → exec .msgReady s = .next (s.attemptOver rest (.protocolError c)))

/-- R204, R207: in the completion phase `DONE` is success, and the canonical host keeps waiting at any other message (log
entry 18). The text of an `ERR:` or `ERR_DISP:` line is surfaced to the caller (R207; that it is the whole line, log entry
28); nothing else of the host changes. -/
def Obligations.CompletionReplies : Prop :=
  ∀ (s : State) (c rest : Bytes), s.Reply c rest → s.client.phase = .complete →
    (c = litDone → exec .msgDone s = .next (s.attemptOver rest .success)) ∧
    (∀ r, c = litErrDisp ++ r → exec (.msgErrDisp r) s = .next (s.surfacing c rest)) ∧
    (∀ r, c = litFatal ++ r → exec (.msgFatal r) s = .next { s with txq := rest }) ∧
    (∀ r, c = litErr ++ r → exec (.msgErr r) s = .next (s.surfacing c rest)) ∧
    (c = litErrOverflow → exec .msgErrOverflow s = .next (s.surfacing c rest)) ∧
    (c = litErrMem → exec .msgErrMem s = .next { s with txq := rest }) ∧
    (c = litYes → exec .msgYes s = .next { s with txq := rest }) ∧
    (c = litBusy → exec .msgBusy s = .next { s with txq := rest }) ∧
    (c = litOk → exec .msgOk s = .next { s with txq := rest }) ∧
    (c = litReady → exec .msgReady s = .next { s with txq := rest })

/-- R201, R203, R204, R210: the host's waits and its sleep end by events (log entry 17); what each does in each phase. The
result `abandoned` (log entry 25) and a payload of any length (log entry 26) are the model's choices. -/
def Obligations.HostEvents : Prop :=
  ∀ (s : State) (rest : List EnvEvent) (payload text : Bytes) (k n : Nat) (res : ClientResult), 0 < s.cfg.nHandshake →
    (s.env = .hostOpen payload :: rest → s.client.phase = .idle ∨ s.client.phase = .closed res →
      step s = .next { s with
        env := rest, rxq := s.rxq ++ litCanSend ++ [0x0A]
        client := { phase := .handshake 1, payload := payload, bytesSent := 0,
                    totalHexLength := 2 * payload.length, linkOpen := true, surfaced := [] } }) ∧
    (s.env = .hostTimeout :: rest → s.client.phase = .handshake k → k < s.cfg.nHandshake →
      step s = .next { s with
        env := rest, rxq := s.rxq ++ litCanSend ++ [0x0A], client := { s.client with phase := .handshake (k + 1) } }) ∧
    (s.env = .hostTimeout :: rest → s.client.phase = .handshake k → s.cfg.nHandshake ≤ k →
      step s = .next (State.attemptOver { s with env := rest } s.txq .hostTimeout)) ∧
    (s.env = .hostTimeout :: rest → s.client.phase = .transmit n text →
      step s = .next (State.attemptOver { s with env := rest } s.txq .hostTimeout)) ∧
    (s.env = .hostTimeout :: rest → s.client.phase = .complete → step s = .next { s with env := rest }) ∧
    (s.env = .hostWake :: rest → s.client.phase = .backoff k → k < s.cfg.nHandshake →
      step s = .next { s with
        env := rest, rxq := s.rxq ++ litCanSend ++ [0x0A], client := { s.client with phase := .handshake (k + 1) } }) ∧
    (s.env = .hostWake :: rest → s.client.phase = .backoff k → s.cfg.nHandshake ≤ k →
      step s = .next (State.attemptOver { s with env := rest } s.txq .busyRetryExhausted)) ∧
    (s.env = .hostAbandon :: rest → s.client.phase = .handshake k ∨ s.client.phase = .backoff k ∨
      s.client.phase = .transmit n text ∨ s.client.phase = .complete →
      step s = .next (State.attemptOver { s with env := rest } s.txq .abandoned))

/-- R201, R203, R208 (D30): a reply that is no message of R90 ends an attempt that waits for its handshake or for a chunk
acknowledgment; while a chunk is unanswered a reply that holds `ERR` is the device's error. In the completion phase the host
keeps waiting, and a host outside an attempt drops the line: the model's choice (log entry 18). -/
def Obligations.UnknownReplies : Prop :=
  ∀ (s : State) (c rest text : Bytes) (k n : Nat) (res : ClientResult) (more : List EnvEvent), s.Reply c rest →
    decode s.cfg .host c = .error .notAMessage → s.env = .hostRead :: more →
    (s.client.phase = .handshake k →
      step s = .next (State.attemptOver { s with env := more } rest (.protocolError c))) ∧
    (s.client.phase = .transmit n text → step s = .next (State.attemptOver { s with env := more } rest
      (if litErrText <:+: c then .deviceError c else .protocolError c))) ∧
    (s.client.phase = .complete → step s = .next { s with env := more, txq := rest }) ∧
    (s.client.phase = .idle ∨ s.client.phase = .closed res → step s = .next { s with env := more, txq := rest })

/-- R214, R18, R201: a raster handed to a host that is in no attempt (none made yet, or the last one over) is encoded and
the result is the payload of a new attempt; one of the wrong size starts none (R124). -/
def Obligations.RasterStartsAttempt : Prop :=
  ∀ (s : State) (r : Raster) (out : Bytes) (res : ClientResult) (more : List EnvEvent),
    s.env = .hostOpenRaster r :: more → s.client.phase = .idle ∨ s.client.phase = .closed res →
    0 < s.cfg.nHandshake →
    (exec (.fcEncode r) s = .next { s with port := .bytes out } → step s = .next { s with
      env := more, port := .bytes out, rxq := s.rxq ++ litCanSend ++ [0x0A]
      client := { phase := .handshake 1, payload := out, bytesSent := 0, totalHexLength := 2 * out.length,
                  linkOpen := true, surfaced := [] } }) ∧
    (r.width * r.height ≠ s.cfg.ppb * s.cfg.frameSize → step s = .next { s with env := more, port := .sizeMismatch })

/-- R29, R30 (D7): bytes that a host sends are appended at the tail of `RXQ` in every state, and nothing else changes. The
host's turn finds nothing where `TXQ` holds no complete line; a sleeping host reads nothing, and a host outside an attempt
drops the line that it reads, be it a message or not (the model's choices, log entry 18). -/
def Obligations.HostLinkEvents : Prop :=
  ∀ (s : State) (bs c rest : Bytes) (k : Nat) (res : ClientResult) (more : List EnvEvent),
    (s.env = .hostBytes bs :: more → step s = .next { s with env := more, rxq := s.rxq ++ bs }) ∧
    (s.env = .hostRead :: more → 0x0A ∉ s.txq → step s = .next { s with env := more }) ∧
    (s.env = .hostRead :: more → s.client.phase = .backoff k → step s = .next { s with env := more }) ∧
    (s.env = .hostRead :: more → s.client.phase = .idle ∨ s.client.phase = .closed res → s.Reply c rest →
      step s = .next { s with env := more, txq := rest })

/-- R98, R203, R206, R9: the lines that the host puts on `RXQ` over a transmit phase. `YES` and then one `OK` a line wait on
`TXQ`: `YES` puts the first line there, each `OK` the next, and the last `OK` ends the phase. Line i carries the payload's
bytes from CHUNK_RAW*i on, CHUNK_RAW of them or those that are left; there are ceil(len/CHUNK_RAW) lines, they are
`CHUNKS` of the payload, and together they are its whole hex text. The payload may have any length (log entry 26). -/
def Obligations.ChunkLinesCoverPayload : Prop :=
  ∀ (s : State) (p : Bytes) (line : Nat → Bytes) (c n k : Nat) (rest : Bytes) (more : List EnvEvent),
    c = s.cfg.chunkRaw → 0 < c → p = s.client.payload → n = (p.length + c - 1) / c →
    (∀ i, line i = hxEncode ((p.drop (c * i)).take c)) →
    ((List.range n).flatMap line = hxEncode p ∧ chunkLines c p = (List.range n).map line ∧
      ∀ i, i < n → (line i).length = 2 * min c (p.length - c * i)) ∧
    (s.client.phase = .handshake k →
      s.txq = litYes ++ [0x0A] ++ (List.range n).flatMap (fun _ => litOk ++ [0x0A]) ++ rest →
      s.env = List.replicate (n + 1) .hostRead ++ more →
      ∀ j, j ≤ n → ∃ t, core.run (j + 1) s = .next t ∧
        t.rxq = s.rxq ++ (List.range (min (j + 1) n)).flatMap (fun i => line i ++ [0x0A]) ∧
        t.txq = (List.range (n - j)).flatMap (fun _ => litOk ++ [0x0A]) ++ rest ∧
        t.client.phase = (if j < n then .transmit (line j).length (hxEncode (p.drop (c * (j + 1)))) else .complete) ∧
        t.client.bytesSent = 2 * min (c * j) p.length ∧ t.client.totalHexLength = 2 * p.length)

/-! ### Decoding -/

/-- R89, R90, R93, R99: every reader that R89 gives a well-formed line instruction to finds it in its encoding. -/
def Obligations.DecodeEncodeRoundTrip : Prop :=
  ∀ (p : Params) (i : Instr) (r : Reader) (c : Bytes), p.wf = true → i.wf p = true → i.readBy p r = true →
    encode i = some c → decode p r c = .ok i

/-- R89, R90, R99: nothing is lost the other way: a message's content is the encoding of what it decodes to, and a
line of the device encodes, up to the letter case of hex digits, what it decodes to. -/
def Obligations.EncodeDecodeRoundTrip : Prop :=
  ∀ (p : Params) (r : Reader) (c : Bytes) (i : Instr), decode p r c = .ok i → i.readBy p r = true ∧
    ∃ c', encode i = some c' ∧ (r = .host → c' = c) ∧ (c' = c ∨ c' = c.map lowerCase)

/-- R84, R99: words of the table written out from the spec's encodings, and what the decoder finds in them. The word of
`CAN_SEND` is that of two rows, which R89 tells apart by `BUSY`; that it is read with `BUSY = 0`, and a word as a message
first, is the model's choice (log entry 22). -/
def Obligations.LiteralsDecode : Prop :=
  decodeTableWord 64 0x43414E5F53454E44 = some .wqCanSend ∧ decodeTableWord 24 0x594553 = some .msgYes ∧
    decodeTableWord 32 0x42555359 = some .msgBusy ∧ decodeTableWord 16 0x4F4B = some .msgOk ∧
    decodeTableWord 96 0x4552523A4F564552464C4F57 = some .msgErrOverflow ∧
    decodeTableWord 56 0x4552525F4D454D = some .msgErrMem ∧ decodeTableWord 32 0x444F4E45 = some .msgDone ∧
    decodeTableWord 40 0x5245414459 = some .msgReady ∧
    decodeTableWord 120 0x4552523A494E56414C49445F484558 = some (.msgErr Config.reasonHex) ∧
    decodeTableWord 128 0x4552525F444953503A444953504C4159 = some (.msgErrDisp Config.reasonDisp) ∧
    decodeTableWord 144 0x464154414C3A554E434C4153534946494544 = some (.msgFatal Config.reasonFatal) ∧
    decode Config.params (.device .receiving true 0) [0x31, 0x62, 0x65, 0x34] = .ok (.rxChunk [0x1B, 0xE4]) ∧
    decode Config.params (.device .receiving true 95998) [0x31, 0x62, 0x65, 0x34] = .ok (.rxChunkLast [0x1B, 0xE4]) ∧
    decode Config.params (.device .receiving true 95999) [0x31, 0x62, 0x65, 0x34] = .ok (.rxOverflow [0x1B, 0xE4]) ∧
    decode Config.params (.device .receiving true 0) [0x30, 0x67] = .ok (.rxBadHex [0x30, 0x67])

/-! ### The step -/

/-- R184, R89: with nothing from the environment, the device runs the instruction that the oldest complete line decodes
to, in a reading state. The model's choices: whose turn it is (log entry 9), that the host's turn runs the message it finds
on `TXQ` (log entry 16), and that a sleeping host has none (log entry 18). -/
def Obligations.StepRunsDecodedLine : Prop :=
  ∀ (s : State) (raw rest : Bytes) (i : Instr) (more : List EnvEvent),
    (s.state = .waitQuery ∨ s.state = .receiving → splitLine s.rxq = some (raw, rest) →
      decode s.cfg (.device s.state s.busy s.pos.toNat) (trim raw) = .ok i →
      (s.env = [] → step s = exec i s) ∧ (s.env = .dts :: more → step s = exec i { s with env := more })) ∧
    (splitLine s.txq = some (raw, rest) → decode s.cfg .host (trim raw) = .ok i → (∀ k, s.client.phase ≠ .backoff k) →
      s.env = .hostRead :: more → step s = exec i { s with env := more })

/-- R184, R101: with nothing from the environment, the operation that the registers alone enable runs. -/
def Obligations.StepRunsStateOperation : Prop :=
  ∀ s : State, s.env = [] →
    (s.state = .boot → s.fbValid = true → step s = exec .btLeave s) ∧
    (s.state = .signalReady → s.tcnt < s.cfg.nToggle → step s = exec .srToggle s) ∧
    (s.state = .signalReady → s.tcnt = s.cfg.nToggle → step s = exec .srDone s) ∧
    (s.state = .waitQuery → splitLine s.rxq = none → step s = exec .wqIdle s) ∧
    (s.state = .receiving → splitLine s.rxq = none → step s = exec .rxIdle s) ∧
    (s.state = .fatal → step s = exec .ftBlink s) ∧
    (s.AwaitsAnswer → step s = .next s)

/-- R184, R101: an answer runs the operation that waits for it, a fault runs `FT.ENTER` in any state but `Fatal`,
operands at a function interface run the function; an answer to no call does nothing (R239, log entry 10). -/
def Obligations.StepRunsEvents : Prop :=
  ∀ (s : State) (more : List EnvEvent) (ra : AllocAnswer) (call : RPhase) (rd : DriverAnswer) (u : Nat) (i : Instr),
    (s.env = .alloc ra :: more → s.state = .boot → s.fbValid = false →
      step s = exec (.btAlloc ra) { s with env := more }) ∧
    (s.env = .alloc ra :: more → s.state ≠ .boot ∨ s.fbValid = true → step s = .next { s with env := more }) ∧
    (s.env = .driver .init rd :: more → s.state = .refresh → s.rphase = .init →
      step s = exec (.rfInit rd) { s with env := more }) ∧
    (s.env = .driver .display rd :: more → s.state = .refresh → s.rphase = .display →
      step s = exec (.rfDisplay rd) { s with env := more }) ∧
    (s.env = .driver .sleep rd :: more → s.state = .refresh → s.rphase = .sleep →
      step s = exec (.rfSleep rd) { s with env := more }) ∧
    (s.env = .driver call rd :: more → s.state ≠ .refresh ∨ s.rphase ≠ call → step s = .next { s with env := more }) ∧
    (s.env = .ufault u :: more → s.state ≠ .fatal → step s = exec (.ftEnter u) { s with env := more }) ∧
    (s.env = .ufault u :: more → s.state = .fatal → step s = .next { s with env := more }) ∧
    (s.env = .call i :: more → i.isFunc = true → step s = exec i { s with env := more })

/-! ### Frames and the transition table -/

/-- The frame of every instruction: what its rule does not name as written is unchanged. -/
def Obligations.InstructionFrame : Prop :=
  ∀ (i : Instr) (s t : State) (f : Field), exec i s = .next t → f ∉ writes i → f.same s t

/-- R50, R57, R58, R172, R173, R160: the bytes of `FB`. Only the two chunk stores write bytes, exactly those at the
cursor; a successful allocation leaves every byte unspecified; every other instruction leaves every byte. -/
def Obligations.FramebufferWriters : Prop :=
  ∀ (i : Instr) (s t : State) (a : Nat), exec i s = .next t →
    match i with
    | .rxChunk b | .rxChunkLast b =>
      t.fb.read a = if s.pos.toNat ≤ a ∧ a < s.pos.toNat + b.length then b[a - s.pos.toNat]? else s.fb.read a
    | .btAlloc .ok => t.fb.read a = none
    | _ => t.fb.read a = s.fb.read a

/-- R182: an operation runs only in its STATE, sends exactly its lines and leaves its next STATE; the operations of the
device and the functions leave the rest of `TXQ` alone. -/
def Obligations.TransitionTable : Prop :=
  ∀ (i : Instr) (s t : State), exec i s = .next t → enabledIn i s.state ∧ t.state = nextState i s.state ∧
    (i.isMessage = false → t.txq = s.txq ++ (linesSent s.cfg i).flatMap (fun c => c ++ [0x0A]))

/-! ### Whole-machine rules -/

/-- R36, R20: the invariants survive every step, from every state that meets them. -/
def Obligations.StepKeepsInvariants : Prop := ∀ s t : State, s.Inv → step s = .next t → t.Inv

/-- R90, R95(c), R20: from a state with admissible parameters whose `TXQ` holds device lines only, every step leaves one;
in particular no step sends `READY`. -/
def Obligations.StepKeepsDeviceLines : Prop :=
  ∀ s t : State, s.cfg.wf = true → s.TxLines → step s = .next t → t.TxLines

/-- R184: under the invariants a step answers a next state, except at a line over LINE_MAX that the device is about to
read; and in every state no step asks for a disabled operation or for a load or a store outside `FB`. -/
def Obligations.StepNeverStops : Prop :=
  (∀ s : State, s.Inv → (∃ t, step s = .next t) ∨ (step s = .refused .lineTooLong ∧
    (s.state = .waitQuery ∨ s.state = .receiving) ∧
    ∃ raw rest, splitLine s.rxq = some (raw, rest) ∧ s.cfg.lineMax < (trim raw).length)) ∧
  ∀ s : State, step s ≠ .fault .notEnabled ∧ step s ≠ .fault .memOutOfRange

/-- R186(c): while a session is active no step sends `YES`. -/
def Obligations.NoYesWhileBusy : Prop :=
  ∀ s t : State, s.busy = true → step s = .next t → ∃ new, t.hist = s.hist ++ new ∧ LinkEvent.sent litYes ∉ new

/-- R238: every transition out of `Receiving` or `Refresh` sends exactly one line: one `sent` event enters the history, and
`TXQ` grows by its content and one EOL, the content holding no EOL (under admissible parameters, whose reasons hold none:
R92). From `Receiving` to `WaitQuery` it is an `ERR:` line. -/
def Obligations.LeavingSessionAnswers : Prop :=
  ∀ (i : Instr) (s t : State), s.cfg.wf = true → exec i s = .next t → s.state = .receiving ∨ s.state = .refresh →
    t.state ≠ s.state →
    ∃ c, 0x0A ∉ c ∧ t.txq = s.txq ++ c ++ [0x0A] ∧
      (∃ read, t.hist = s.hist ++ read ++ [.sent c] ∧ ∀ d, LinkEvent.sent d ∉ read) ∧
      (s.state = .receiving → t.state = .waitQuery → ∃ reason, c = litErr ++ reason)

/-- R180, R235 (D24): in `Fatal`, but for a reset, no line is read or sent, and `STATE`, `POS`, `BUSY` and every byte of
`FB` stay. -/
def Obligations.FatalIsTerminal : Prop :=
  ∀ s t : State, s.state = .fatal → s.env.head? ≠ some .reset → step s = .next t →
    t.state = .fatal ∧ t.hist = s.hist ∧ s.rxq <+: t.rxq ∧ t.pos = s.pos ∧ t.busy = s.busy ∧
      ∀ a, t.fb.read a = s.fb.read a

/-- R289, R60(d), R65: in `Refresh`, but for a reset, no line is read and no byte of `FB` is written. -/
def Obligations.RefreshIsExclusive : Prop :=
  ∀ s t : State, s.state = .refresh → s.env.head? ≠ some .reset → step s = .next t →
    s.rxq <+: t.rxq ∧ (∀ c, LinkEvent.received c ∉ t.hist.drop s.hist.length) ∧ t.pos = s.pos ∧
      ∀ a, t.fb.read a = s.fb.read a

/-- R36(b), R36(f), R177: under the invariants the driver is handed a complete frame: the accepted bytes of the session,
FRAME_SIZE of them. -/
def Obligations.DisplayHandsWholeFrame : Prop :=
  ∀ (s : State) (r : DriverAnswer), s.Inv → s.state = .refresh → s.rphase = .display →
    s.sessionBytes.length = s.cfg.frameSize ∧
    ∃ t, exec (.rfDisplay r) s = .next t ∧ t.drvCalls = s.drvCalls ++ [.display (s.sessionBytes.map some)]

/-- R186(a), without interleaved blank lines and for answers ok only: a granted handshake, any chunks of 1 byte to
LINE_MAX/2 that sum to FRAME_SIZE, and a driver that answers ok three times: the framebuffer and what the driver was handed
are the chunks' concatenation, the replies are `YES`, one `OK` a chunk and `DONE`, and the device serves again. -/
def Obligations.SessionDisplaysFrame : Prop :=
  ∀ (s : State) (chunks : List Bytes) (rest : Bytes) (more : List EnvEvent), s.cfg.wf = true →
    s.state = .waitQuery → s.busy = false →
    (∀ b ∈ chunks, 1 ≤ b.length ∧ 2 * b.length ≤ s.cfg.lineMax) → chunks.flatten.length = s.cfg.frameSize →
    s.rxq = litCanSend ++ [0x0A] ++ chunkWire chunks ++ rest →
    s.env = List.replicate (chunks.length + 1) .dts ++
      [.driver .init .ok, .driver .display .ok, .driver .sleep .ok] ++ more →
    ∃ t, core.run (chunks.length + 4) s = .next t ∧ t.state = .waitQuery ∧ t.busy = false ∧
      t.pos.toNat = s.cfg.frameSize ∧ t.rxq = rest ∧ t.env = more ∧
      t.txq = s.txq ++ (litYes ++ [0x0A]) ++ (chunks.flatMap fun _ => litOk ++ [0x0A]) ++ (litDone ++ [0x0A]) ∧
      t.drvCalls = s.drvCalls ++ [.init, .display (chunks.flatten.map some), .sleep] ∧
      ∀ a, a < s.cfg.frameSize → t.fb.read a = chunks.flatten[a]?

/-- R281, R284: a stalled session is ended by the next host's first `CAN_SEND`, answered `ERR:`reason, and its second is
granted. -/
def Obligations.StalledSessionSuperseded : Prop :=
  ∀ (s : State) (rest : Bytes), s.cfg.wf = true → s.state = .receiving → s.env = [] →
    s.rxq = litCanSend ++ [0x0A] ++ litCanSend ++ [0x0A] ++ rest →
    ∃ t, core.run 2 s = .next t ∧ t.state = .receiving ∧ t.busy = true ∧ t.pos = 0 ∧ t.rxq = rest ∧
      t.txq = s.txq ++ (litErr ++ s.cfg.reasonHex ++ [0x0A]) ++ (litYes ++ [0x0A]) ∧
      ∀ a, t.fb.read a = s.fb.read a
end

