-- ==== Sys2Proof/Laws/Codec.lean ====
section
/-! SUPPORT. Small lemmas of the pure units and of the literals: the hex digits (spec/41_hex_codec.md R143), the shape of
encoded text, and admissible reasons (spec/30_encoding.md R92). -/

namespace Sys2Proof

/-- `val(HEXCH(n)) = n` (R143). -/
@[simp] theorem hexVal_hexCh (up : Bool) (n : Nibble) : hexVal up (hexCh n) = some n := by
  revert up n
  decide

theorem hexCh_ne_eol (n : Nibble) : hexCh n ≠ eol := by
  revert n
  decide

theorem hexCh_not_ws (n : Nibble) : isWs (hexCh n) = false := by
  revert n
  decide

/-- The two nibbles of a byte give the byte back (R93). -/
@[simp] theorem joinNibbles_extract (b : Byte) : joinNibbles (b.extractLsb' 4 4) (b.extractLsb' 0 4) = b := by
  revert b
  decide

@[simp] theorem hxEncode_nil : hxEncode [] = [] := rfl

theorem hxEncode_cons (b : Byte) (p : Bytes) :
    hxEncode (b :: p) = hexCh (b.extractLsb' 4 4) :: hexCh (b.extractLsb' 0 4) :: hxEncode p := rfl

theorem mem_hxEncode {p : Bytes} {ch : Byte} (h : ch ∈ hxEncode p) : ∃ n, ch = hexCh n := by
  induction p with
  | nil => simp at h
  | cons b t ih =>
    rw [hxEncode_cons, List.mem_cons, List.mem_cons] at h
    rcases h with rfl | rfl | h
    · exact ⟨_, rfl⟩
    · exact ⟨_, rfl⟩
    · exact ih h

theorem isWs_of_printable {b : Byte} (h : isPrintable b = true) (hs : b ≠ 0x20) : isWs b = false := by
  revert b
  decide

theorem printable_ne_eol {b : Byte} (h : isPrintable b = true) : b ≠ eol := by
  revert b
  decide

/-- What an admissible reason is (R92). -/
theorem admissibleReason_iff (r : Bytes) : admissibleReason r = true ↔
    1 ≤ r.length ∧ r.length ≤ 64 ∧ (∀ b ∈ r, isPrintable b = true) ∧ r.head? ≠ some 0x20 ∧ r.getLast? ≠ some 0x20 := by
  simp [admissibleReason, and_assoc]

end Sys2Proof
end

