-- ==== Sys2Proof/Laws/Link.lean ====
section
/-! SUPPORT. The line layer (spec/30_encoding.md R85 to R87) and the shared operations of the reading states: one lemma
each that says everything the operation can do. -/

namespace Sys2Proof

theorem splitLine_none {q : Bytes} : splitLine q = none ↔ eol ∉ q := by
  induction q with
  | nil => simp [splitLine]
  | cons b t ih =>
    by_cases hb : b = eol
    · simp [splitLine, hb]
    · simp [splitLine, hb, ih, Ne.symm hb]

/-- The oldest line: no EOL in its content, the line and its EOL at the head of the stream. -/
theorem splitLine_some {q raw rest : Bytes} : splitLine q = some (raw, rest) ↔ eol ∉ raw ∧ q = raw ++ eol :: rest := by
  induction q generalizing raw with
  | nil => simp [splitLine]
  | cons b t ih =>
    by_cases hb : b = eol
    · subst hb
      cases raw with
      | nil => simp [splitLine, eq_comm]
      | cons c u =>
        simp only [splitLine, if_true, Option.some.injEq, Prod.mk.injEq, List.cons_append, List.cons.injEq,
          List.mem_cons, not_or]
        constructor
        · rintro ⟨h, -⟩
          cases h
        · rintro ⟨⟨h, -⟩, h', -⟩
          exact absurd h' h
    · cases raw with
      | nil =>
        simp only [splitLine, hb, if_false, Option.map_eq_some_iff, List.nil_append, List.cons.injEq, false_and,
          and_false, iff_false]
        rintro ⟨r, -, h⟩
        cases h
      | cons c u =>
        simp only [splitLine, hb, if_false, Option.map_eq_some_iff, Prod.exists, Prod.mk.injEq, List.cons.injEq,
          List.cons_append, List.mem_cons, not_or]
        constructor
        · rintro ⟨u', r', h, ⟨rfl, rfl⟩, rfl⟩
          obtain ⟨h1, h2⟩ := ih.mp h
          exact ⟨⟨Ne.symm hb, h1⟩, rfl, h2⟩
        · rintro ⟨⟨-, h1⟩, rfl, h2⟩
          exact ⟨u, rest, ih.mpr ⟨h1, h2⟩, ⟨rfl, rfl⟩, rfl⟩

theorem splitLine_append {raw : Bytes} (rest : Bytes) (h : eol ∉ raw) :
    splitLine (raw ++ eol :: rest) = some (raw, rest) := splitLine_some.mpr ⟨h, rfl⟩

/-- Everything `TRIM` does: the bytes of `WS` at both ends go, what lies between them stays, `WS` inside included (R87). -/
theorem trim_between {before c after : Bytes} (hb : ∀ b ∈ before, isWs b = true) (ha : ∀ b ∈ after, isWs b = true)
    (hf : ∀ b, c.head? = some b → isWs b = false) (hl : ∀ b, c.getLast? = some b → isWs b = false) :
    trim (before ++ c ++ after) = c := by
  have stop : ∀ l : Bytes, (∀ b, l.head? = some b → isWs b = false) → l.dropWhile isWs = l := by
    intro l h
    cases l with
    | nil => rfl
    | cons b t => simp [h b rfl]
  have front : ∀ l m : Bytes, (∀ b ∈ l, isWs b = true) → (l ++ m).dropWhile isWs = m.dropWhile isWs := by
    intro l m h
    rw [List.dropWhile_append, List.dropWhile_eq_nil_iff.mpr h, List.isEmpty_nil, if_pos rfl]
  have hr : (c.reverse).dropWhile isWs = c.reverse := stop _ (by simpa using hl)
  cases c with
  | nil => rw [trim, List.append_nil, front _ _ hb, List.dropWhile_eq_nil_iff.mpr ha]; rfl
  | cons d t =>
    have hd : isWs d = false := hf d rfl
    rw [trim, List.append_assoc, front _ _ hb, List.cons_append, List.dropWhile_cons_of_neg (by simp [hd]),
      ← List.cons_append, List.reverse_append, front _ _ (by simpa using ha), hr, List.reverse_reverse]

/-- A content with no byte of `WS` at either end is its own trimming. -/
theorem trim_eq_self {c : Bytes} (hf : ∀ b, c.head? = some b → isWs b = false)
    (hl : ∀ b, c.getLast? = some b → isWs b = false) : trim c = c := by
  simpa using trim_between (before := []) (after := []) (by simp) (by simp) hf hl

theorem trim_nil : trim [] = [] := rfl

namespace Machine

theorem State.rxLine_eq {s : State} {raw rest : Bytes} (h : splitLine s.rxq = some (raw, rest)) :
    s.rxLine = some (trim raw, { s with rxq := rest, hist := s.hist ++ [.received (trim raw)] }) := by
  simp [State.rxLine, h]

theorem State.rxLine_some {s t : State} {c : Bytes} (h : s.rxLine = some (c, t)) :
    ∃ raw rest, splitLine s.rxq = some (raw, rest) ∧ c = trim raw ∧
      t = { s with rxq := rest, hist := s.hist ++ [.received (trim raw)] } := by
  unfold State.rxLine at h
  split at h
  · cases h
  · next raw rest hs =>
    cases h
    exact ⟨raw, rest, hs, rfl, rfl⟩

theorem State.txLine_some {s t : State} {c : Bytes} (h : s.txLine = some (c, t)) :
    ∃ raw rest, splitLine s.txq = some (raw, rest) ∧ c = trim raw ∧ t = { s with txq := rest } := by
  unfold State.txLine at h
  split at h
  · cases h
  · next raw rest hs =>
    cases h
    exact ⟨raw, rest, hs, rfl, rfl⟩

theorem whenEnabled_next {b : Bool} {t u : State} : whenEnabled b t = .next u ↔ b = true ∧ t = u := by
  cases b <;> simp [whenEnabled]

@[simp] theorem whenEnabled_true (t : State) : whenEnabled true t = .next t := rfl

/-- Everything an operation of a reading state can do when it answers a next state. -/
theorem onLine_next {st : DevState} {s t : State} {isClass : Bytes → Bool} {act : State → Outcome}
    (h : onLine st s isClass act = .next t) :
    s.state = st ∧ ∃ raw rest, splitLine s.rxq = some (raw, rest) ∧ (trim raw).length ≤ s.cfg.lineMax ∧
      isClass (trim raw) = true ∧
      act { s with rxq := rest, hist := s.hist ++ [.received (trim raw)] } = .next t := by
  unfold onLine at h
  split at h
  · next hst =>
    split at h
    · cases h
    · next c s1 hrx =>
      obtain ⟨raw, rest, hs, rfl, rfl⟩ := State.rxLine_some hrx
      split at h
      · cases h
      · next hlen =>
        split at h
        · next hc => exact ⟨hst, raw, rest, hs, Nat.le_of_not_lt hlen, hc, h⟩
        · cases h
  · cases h

/-- An operation of a reading state on a line of its class. -/
theorem onLine_eq {s : State} {raw rest : Bytes} {isClass : Bytes → Bool} (act : State → Outcome)
    (hs : splitLine s.rxq = some (raw, rest)) (hlen : (trim raw).length ≤ s.cfg.lineMax)
    (hc : isClass (trim raw) = true) :
    onLine s.state s isClass act = act { s with rxq := rest, hist := s.hist ++ [.received (trim raw)] } := by
  simp [onLine, State.rxLine_eq hs, Nat.not_lt.mpr hlen, hc]

/-- The store of an accepted chunk, inside `FB`. -/
theorem State.storeChunk_eq {s : State} {b : Bytes} (after : State → State)
    (h : s.pos.toNat + b.length ≤ s.cfg.frameSize) :
    s.storeChunk b after = .next (after ({ s with
      fb := s.fb.write s.pos.toNat b, pos := BitVec.ofNat 17 (s.pos.toNat + b.length) }.tx litOk)) := by
  simp [State.storeChunk, State.memWrite, h]

/-- Everything the store of an accepted chunk can do when it answers a next state. -/
theorem State.storeChunk_next {s t : State} {b : Bytes} {after : State → State} (h : s.storeChunk b after = .next t) :
    s.pos.toNat + b.length ≤ s.cfg.frameSize ∧ t = after ({ s with
      fb := s.fb.write s.pos.toNat b, pos := BitVec.ofNat 17 (s.pos.toNat + b.length) }.tx litOk) := by
  by_cases hb : s.pos.toNat + b.length ≤ s.cfg.frameSize
  · rw [State.storeChunk_eq after hb] at h
    cases h
    exact ⟨hb, rfl⟩
  · simp [State.storeChunk, State.memWrite, hb] at h

/-- Everything the host's reading of a message can do when it answers a next state. -/
theorem State.clientReceive_next {s t : State} {line : Bytes} (h : s.clientReceive line = .next t) :
    ∃ raw rest, splitLine s.txq = some (raw, rest) ∧ trim raw = line ∧ s.clientAsleep = false ∧
      t = State.clientReply { s with txq := rest } line := by
  unfold State.clientReceive at h
  split at h
  · cases h
  · next c u htx =>
    obtain ⟨raw, rest, hs, rfl, rfl⟩ := State.txLine_some htx
    obtain ⟨hb, rfl⟩ := whenEnabled_next.mp h
    simp only [Bool.and_eq_true, beq_iff_eq, Bool.not_eq_true'] at hb
    exact ⟨raw, rest, hs, hb.1, hb.2, by rw [hb.1]⟩

/-! ### The host writes `RXQ`, its own record and nothing else -/

theorem State.clientNextLine_frame (s : State) (text : Bytes) :
    ∃ out c, s.clientNextLine text = { s with rxq := s.rxq ++ out, client := c } := by
  unfold State.clientNextLine
  split
  · exact ⟨[], _, by simp; rfl⟩
  · exact ⟨_, _, rfl⟩

theorem State.clientReply_frame (s : State) (r : Bytes) :
    ∃ out c, s.clientReply r = { s with rxq := s.rxq ++ out, client := c } := by
  have same : ∃ out c, s = { s with rxq := s.rxq ++ out, client := c } := ⟨[], s.client, by simp⟩
  have only : ∀ c : Client, ∃ out c', { s with client := c } = { s with rxq := s.rxq ++ out, client := c' } :=
    fun c => ⟨[], c, by simp⟩
  unfold State.clientReply
  split
  · split
    · exact State.clientNextLine_frame _ _
    · split
      · exact only _
      · split
        · exact only _
        · exact only _
  · split
    · exact State.clientNextLine_frame _ _
    · split
      · exact only _
      · exact only _
  · split
    · exact only _
    · split
      · exact only _
      · exact same
  · exact same
  · exact same
  · exact same

end Machine

end Sys2Proof
end

