-- ==== Sys2Proof/Laws/Memory.lean ====
section
/-! SUPPORT. The framebuffer: a read after a store, the canonical form and the address range, which every operation over
memory keeps (spec/20_memory.md R53, R57). -/

namespace Sys2Proof.Machine

@[simp] theorem Memory.read_nil (a : Nat) : Memory.read [] a = none := rfl

theorem Memory.read_append (m n : Memory) (x : Nat) :
    Memory.read (m ++ n) x = (Memory.read m x).or (Memory.read n x) := List.lookup_append

theorem Memory.read_cons (c : Host.Cell) (m : Memory) (x : Nat) :
    Memory.read (c :: m) x = if x = c.1 then some c.2 else Memory.read m x := by
  obtain ⟨k, b⟩ := c
  by_cases h : x = k
  · simp [Memory.read, h]
  · have hb : (x == k) = false := by simpa using h
    simp [Memory.read, List.lookup_cons, h, hb]

theorem Memory.read_filter (m : Memory) (keep : Nat → Bool) (x : Nat) :
    Memory.read (m.filter (fun c => keep c.1)) x = if keep x then Memory.read m x else none := by
  induction m with
  | nil => simp
  | cons c t ih =>
    by_cases hk : keep c.1 <;> by_cases hx : x = c.1 <;>
      simp_all [Memory.read_cons]

theorem Memory.read_cells (v : Bytes) (a x : Nat) :
    Memory.read (Memory.cells a v) x = if a ≤ x then v[x - a]? else none := by
  induction v generalizing a with
  | nil => simp [Memory.cells]
  | cons b t ih =>
    rw [Memory.cells, Memory.read_cons, ih]
    by_cases hx : x = a
    · simp [hx]
    · by_cases hl : a ≤ x
      · have h1 : a + 1 ≤ x := by omega
        have h2 : x - a = (x - (a + 1)) + 1 := by omega
        simp [hx, hl, h1, h2]
      · have h1 : ¬ a + 1 ≤ x := by omega
        simp [hx, hl, h1]

/-- A read after a store: the stored byte inside the store, what was there before outside it. -/
theorem Memory.read_write (m : Memory) (a : Nat) (v : Bytes) (x : Nat) :
    Memory.read (m.write a v) x = if a ≤ x ∧ x < a + v.length then v[x - a]? else Memory.read m x := by
  have h1 := Memory.read_filter m (fun k => decide (k < a)) x
  have h2 := Memory.read_filter m (fun k => decide (a + v.length ≤ k)) x
  simp only [Memory.write, Memory.read_append, Memory.read_cells, h1, h2, decide_eq_true_eq]
  by_cases hlo : a ≤ x
  · by_cases hhi : x < a + v.length
    · have hsome : (v[x - a]?).isSome := by simp; omega
      obtain ⟨b, hb⟩ := Option.isSome_iff_exists.mp hsome
      simp [hlo, hhi, hb, Nat.not_lt.mpr hlo]
    · have hnone : v[x - a]? = none := by simp; omega
      simp [hlo, hhi, hnone, Nat.not_lt.mp hhi, Nat.not_lt.mpr hlo]
  · have h3 : ¬ a + v.length ≤ x := by omega
    simp [hlo, h3, Nat.lt_of_not_le hlo]

theorem Memory.wf_iff (m : Memory) : m.wf = true ↔ m.Pairwise (fun c d => c.1 < d.1) := by
  induction m with
  | nil => simp [Memory.wf]
  | cons c t ih =>
    cases t with
    | nil => simp [Memory.wf]
    | cons d u =>
      rw [Memory.wf, Bool.and_eq_true, decide_eq_true_eq, ih, List.pairwise_cons (a := c)]
      constructor
      · rintro ⟨hcd, hp⟩
        refine ⟨fun e he => ?_, hp⟩
        rcases List.mem_cons.mp he with rfl | he
        · exact hcd
        · exact Nat.lt_trans hcd ((List.pairwise_cons.mp hp).1 e he)
      · rintro ⟨hall, hp⟩
        exact ⟨hall d (by simp), hp⟩

theorem Memory.mem_cells {v : Bytes} {a : Nat} {c : Host.Cell} (h : c ∈ Memory.cells a v) :
    a ≤ c.1 ∧ c.1 < a + v.length := by
  induction v generalizing a with
  | nil => simp [Memory.cells] at h
  | cons b t ih =>
    rcases List.mem_cons.mp h with rfl | h
    · simp
    · have := ih h
      simp only [List.length_cons]
      omega

theorem Memory.cells_rising (v : Bytes) (a : Nat) : (Memory.cells a v).Pairwise (fun c d => c.1 < d.1) := by
  induction v generalizing a with
  | nil => simp [Memory.cells]
  | cons b t ih =>
    refine List.pairwise_cons.mpr ⟨fun c hc => ?_, ih (a + 1)⟩
    exact (Memory.mem_cells hc).1

/-- A store keeps the canonical form. -/
theorem Memory.wf_write (m : Memory) (a : Nat) (v : Bytes) (h : m.wf = true) : (m.write a v).wf = true := by
  rw [Memory.wf_iff] at h ⊢
  simp only [Memory.write, List.append_assoc]
  refine List.pairwise_append.mpr ⟨h.filter _, ?_, ?_⟩
  · refine List.pairwise_append.mpr ⟨Memory.cells_rising v a, h.filter _, fun c hc d hd => ?_⟩
    have h1 := Memory.mem_cells hc
    have h2 : a + v.length ≤ d.1 := by simpa using (List.mem_filter.mp hd).2
    omega
  · intro c hc d hd
    have h1 : c.1 < a := by simpa using (List.mem_filter.mp hc).2
    rcases List.mem_append.mp hd with hd | hd
    · have := Memory.mem_cells hd
      omega
    · have h2 : a + v.length ≤ d.1 := by simpa using (List.mem_filter.mp hd).2
      omega

theorem Memory.wf_nil : Memory.wf [] = true := rfl

/-- What `MemWrite` answers (R53). -/
theorem State.memWrite_eq (s : State) (a : Nat) (v : Bytes) (h : a + v.length ≤ s.cfg.frameSize) :
    s.memWrite a v = .next { s with fb := s.fb.write a v } := by
  simp [State.memWrite, h]

/-- What `MemRead` answers (R53). -/
theorem State.memRead_eq (s : State) (a n : Nat) (h : a + n ≤ s.cfg.frameSize) :
    s.memRead a n = .ok ((List.range n).map (fun j => s.fb.read (a + j))) := by
  simp [State.memRead, h]

/-- The whole of `FB`, as `RF.DISPLAY` reads it (R177). -/
theorem State.memRead_all (s : State) : s.memRead 0 s.cfg.frameSize = .ok ((List.range s.cfg.frameSize).map s.fb.read) := by
  simp [State.memRead]

/-- Every store that happens keeps the canonical form of `FB`. -/
theorem State.memWrite_wf {s t : State} {a : Nat} {v : Bytes} (h : s.memWrite a v = .next t) (hw : s.fb.wf = true) :
    t.fb.wf = true := by
  unfold State.memWrite at h
  split at h
  · cases h
    exact Memory.wf_write _ _ _ hw
  · cases h

end Sys2Proof.Machine
end

