-- ==== Sys2Proof/Laws/State.lean ====
section
/-! SUPPORT. One lemma per field per named update of the state, true by rfl, so that no later proof unfolds a record
update; and what an error entry leaves unchanged. -/

namespace Sys2Proof.Machine

/-! ### `State.openSession` -/

@[simp] theorem State.openSession_cfg (s : State) : s.openSession.cfg = s.cfg := rfl
@[simp] theorem State.openSession_state (s : State) : s.openSession.state = .receiving := rfl
@[simp] theorem State.openSession_pos (s : State) : s.openSession.pos = 0 := rfl
@[simp] theorem State.openSession_busy (s : State) : s.openSession.busy = true := rfl
@[simp] theorem State.openSession_fb (s : State) : s.openSession.fb = s.fb := rfl
@[simp] theorem State.openSession_fbValid (s : State) : s.openSession.fbValid = s.fbValid := rfl
@[simp] theorem State.openSession_ind (s : State) : s.openSession.ind = s.ind := rfl
@[simp] theorem State.openSession_tcnt (s : State) : s.openSession.tcnt = s.tcnt := rfl
@[simp] theorem State.openSession_rphase (s : State) : s.openSession.rphase = s.rphase := rfl
@[simp] theorem State.openSession_rxq (s : State) : s.openSession.rxq = s.rxq := rfl
@[simp] theorem State.openSession_txq (s : State) : s.openSession.txq = s.txq := rfl
@[simp] theorem State.openSession_hist (s : State) : s.openSession.hist = s.hist := rfl
@[simp] theorem State.openSession_drvCalls (s : State) : s.openSession.drvCalls = s.drvCalls := rfl
@[simp] theorem State.openSession_port (s : State) : s.openSession.port = s.port := rfl
@[simp] theorem State.openSession_client (s : State) : s.openSession.client = s.client := rfl
@[simp] theorem State.openSession_env (s : State) : s.openSession.env = s.env := rfl

/-! ### `State.endSession` -/

@[simp] theorem State.endSession_cfg (s : State) : s.endSession.cfg = s.cfg := rfl
@[simp] theorem State.endSession_state (s : State) : s.endSession.state = .waitQuery := rfl
@[simp] theorem State.endSession_pos (s : State) : s.endSession.pos = s.pos := rfl
@[simp] theorem State.endSession_busy (s : State) : s.endSession.busy = false := rfl
@[simp] theorem State.endSession_fb (s : State) : s.endSession.fb = s.fb := rfl
@[simp] theorem State.endSession_fbValid (s : State) : s.endSession.fbValid = s.fbValid := rfl
@[simp] theorem State.endSession_ind (s : State) : s.endSession.ind = s.ind := rfl
@[simp] theorem State.endSession_tcnt (s : State) : s.endSession.tcnt = s.tcnt := rfl
@[simp] theorem State.endSession_rphase (s : State) : s.endSession.rphase = s.rphase := rfl
@[simp] theorem State.endSession_rxq (s : State) : s.endSession.rxq = s.rxq := rfl
@[simp] theorem State.endSession_txq (s : State) : s.endSession.txq = s.txq := rfl
@[simp] theorem State.endSession_hist (s : State) : s.endSession.hist = s.hist := rfl
@[simp] theorem State.endSession_drvCalls (s : State) : s.endSession.drvCalls = s.drvCalls := rfl
@[simp] theorem State.endSession_port (s : State) : s.endSession.port = s.port := rfl
@[simp] theorem State.endSession_client (s : State) : s.endSession.client = s.client := rfl
@[simp] theorem State.endSession_env (s : State) : s.endSession.env = s.env := rfl

/-! ### `State.toggleInd` -/

@[simp] theorem State.toggleInd_cfg (s : State) : s.toggleInd.cfg = s.cfg := rfl
@[simp] theorem State.toggleInd_state (s : State) : s.toggleInd.state = s.state := rfl
@[simp] theorem State.toggleInd_pos (s : State) : s.toggleInd.pos = s.pos := rfl
@[simp] theorem State.toggleInd_busy (s : State) : s.toggleInd.busy = s.busy := rfl
@[simp] theorem State.toggleInd_fb (s : State) : s.toggleInd.fb = s.fb := rfl
@[simp] theorem State.toggleInd_fbValid (s : State) : s.toggleInd.fbValid = s.fbValid := rfl
@[simp] theorem State.toggleInd_ind (s : State) : s.toggleInd.ind = !s.ind := rfl
@[simp] theorem State.toggleInd_tcnt (s : State) : s.toggleInd.tcnt = s.tcnt := rfl
@[simp] theorem State.toggleInd_rphase (s : State) : s.toggleInd.rphase = s.rphase := rfl
@[simp] theorem State.toggleInd_rxq (s : State) : s.toggleInd.rxq = s.rxq := rfl
@[simp] theorem State.toggleInd_txq (s : State) : s.toggleInd.txq = s.txq := rfl
@[simp] theorem State.toggleInd_hist (s : State) : s.toggleInd.hist = s.hist := rfl
@[simp] theorem State.toggleInd_drvCalls (s : State) : s.toggleInd.drvCalls = s.drvCalls := rfl
@[simp] theorem State.toggleInd_port (s : State) : s.toggleInd.port = s.port := rfl
@[simp] theorem State.toggleInd_client (s : State) : s.toggleInd.client = s.client := rfl
@[simp] theorem State.toggleInd_env (s : State) : s.toggleInd.env = s.env := rfl

/-! ### `State.indOff` -/

@[simp] theorem State.indOff_cfg (s : State) : s.indOff.cfg = s.cfg := rfl
@[simp] theorem State.indOff_state (s : State) : s.indOff.state = s.state := rfl
@[simp] theorem State.indOff_pos (s : State) : s.indOff.pos = s.pos := rfl
@[simp] theorem State.indOff_busy (s : State) : s.indOff.busy = s.busy := rfl
@[simp] theorem State.indOff_fb (s : State) : s.indOff.fb = s.fb := rfl
@[simp] theorem State.indOff_fbValid (s : State) : s.indOff.fbValid = s.fbValid := rfl
@[simp] theorem State.indOff_ind (s : State) : s.indOff.ind = false := rfl
@[simp] theorem State.indOff_tcnt (s : State) : s.indOff.tcnt = s.tcnt := rfl
@[simp] theorem State.indOff_rphase (s : State) : s.indOff.rphase = s.rphase := rfl
@[simp] theorem State.indOff_rxq (s : State) : s.indOff.rxq = s.rxq := rfl
@[simp] theorem State.indOff_txq (s : State) : s.indOff.txq = s.txq := rfl
@[simp] theorem State.indOff_hist (s : State) : s.indOff.hist = s.hist := rfl
@[simp] theorem State.indOff_drvCalls (s : State) : s.indOff.drvCalls = s.drvCalls := rfl
@[simp] theorem State.indOff_port (s : State) : s.indOff.port = s.port := rfl
@[simp] theorem State.indOff_client (s : State) : s.indOff.client = s.client := rfl
@[simp] theorem State.indOff_env (s : State) : s.indOff.env = s.env := rfl

/-! ### `State.allocated` -/

@[simp] theorem State.allocated_cfg (s : State) : s.allocated.cfg = s.cfg := rfl
@[simp] theorem State.allocated_state (s : State) : s.allocated.state = s.state := rfl
@[simp] theorem State.allocated_pos (s : State) : s.allocated.pos = s.pos := rfl
@[simp] theorem State.allocated_busy (s : State) : s.allocated.busy = s.busy := rfl
@[simp] theorem State.allocated_fb (s : State) : s.allocated.fb = [] := rfl
@[simp] theorem State.allocated_fbValid (s : State) : s.allocated.fbValid = true := rfl
@[simp] theorem State.allocated_ind (s : State) : s.allocated.ind = s.ind := rfl
@[simp] theorem State.allocated_tcnt (s : State) : s.allocated.tcnt = s.tcnt := rfl
@[simp] theorem State.allocated_rphase (s : State) : s.allocated.rphase = s.rphase := rfl
@[simp] theorem State.allocated_rxq (s : State) : s.allocated.rxq = s.rxq := rfl
@[simp] theorem State.allocated_txq (s : State) : s.allocated.txq = s.txq := rfl
@[simp] theorem State.allocated_hist (s : State) : s.allocated.hist = s.hist := rfl
@[simp] theorem State.allocated_drvCalls (s : State) : s.allocated.drvCalls = s.drvCalls := rfl
@[simp] theorem State.allocated_port (s : State) : s.allocated.port = s.port := rfl
@[simp] theorem State.allocated_client (s : State) : s.allocated.client = s.client := rfl
@[simp] theorem State.allocated_env (s : State) : s.allocated.env = s.env := rfl

/-! ### `State.tx` -/

@[simp] theorem State.tx_cfg (s : State) (c : Bytes) : (s.tx c).cfg = s.cfg := rfl
@[simp] theorem State.tx_state (s : State) (c : Bytes) : (s.tx c).state = s.state := rfl
@[simp] theorem State.tx_pos (s : State) (c : Bytes) : (s.tx c).pos = s.pos := rfl
@[simp] theorem State.tx_busy (s : State) (c : Bytes) : (s.tx c).busy = s.busy := rfl
@[simp] theorem State.tx_fb (s : State) (c : Bytes) : (s.tx c).fb = s.fb := rfl
@[simp] theorem State.tx_fbValid (s : State) (c : Bytes) : (s.tx c).fbValid = s.fbValid := rfl
@[simp] theorem State.tx_ind (s : State) (c : Bytes) : (s.tx c).ind = s.ind := rfl
@[simp] theorem State.tx_tcnt (s : State) (c : Bytes) : (s.tx c).tcnt = s.tcnt := rfl
@[simp] theorem State.tx_rphase (s : State) (c : Bytes) : (s.tx c).rphase = s.rphase := rfl
@[simp] theorem State.tx_rxq (s : State) (c : Bytes) : (s.tx c).rxq = s.rxq := rfl
@[simp] theorem State.tx_txq (s : State) (c : Bytes) : (s.tx c).txq = s.txq ++ (c ++ [eol]) := rfl
@[simp] theorem State.tx_hist (s : State) (c : Bytes) : (s.tx c).hist = s.hist ++ [.sent c] := rfl
@[simp] theorem State.tx_drvCalls (s : State) (c : Bytes) : (s.tx c).drvCalls = s.drvCalls := rfl
@[simp] theorem State.tx_port (s : State) (c : Bytes) : (s.tx c).port = s.port := rfl
@[simp] theorem State.tx_client (s : State) (c : Bytes) : (s.tx c).client = s.client := rfl
@[simp] theorem State.tx_env (s : State) (c : Bytes) : (s.tx c).env = s.env := rfl

/-! ### `State.hostSend` -/

@[simp] theorem State.hostSend_cfg (s : State) (c : Bytes) : (s.hostSend c).cfg = s.cfg := rfl
@[simp] theorem State.hostSend_state (s : State) (c : Bytes) : (s.hostSend c).state = s.state := rfl
@[simp] theorem State.hostSend_pos (s : State) (c : Bytes) : (s.hostSend c).pos = s.pos := rfl
@[simp] theorem State.hostSend_busy (s : State) (c : Bytes) : (s.hostSend c).busy = s.busy := rfl
@[simp] theorem State.hostSend_fb (s : State) (c : Bytes) : (s.hostSend c).fb = s.fb := rfl
@[simp] theorem State.hostSend_fbValid (s : State) (c : Bytes) : (s.hostSend c).fbValid = s.fbValid := rfl
@[simp] theorem State.hostSend_ind (s : State) (c : Bytes) : (s.hostSend c).ind = s.ind := rfl
@[simp] theorem State.hostSend_tcnt (s : State) (c : Bytes) : (s.hostSend c).tcnt = s.tcnt := rfl
@[simp] theorem State.hostSend_rphase (s : State) (c : Bytes) : (s.hostSend c).rphase = s.rphase := rfl
@[simp] theorem State.hostSend_rxq (s : State) (c : Bytes) : (s.hostSend c).rxq = s.rxq ++ (c ++ [eol]) := rfl
@[simp] theorem State.hostSend_txq (s : State) (c : Bytes) : (s.hostSend c).txq = s.txq := rfl
@[simp] theorem State.hostSend_hist (s : State) (c : Bytes) : (s.hostSend c).hist = s.hist := rfl
@[simp] theorem State.hostSend_drvCalls (s : State) (c : Bytes) : (s.hostSend c).drvCalls = s.drvCalls := rfl
@[simp] theorem State.hostSend_port (s : State) (c : Bytes) : (s.hostSend c).port = s.port := rfl
@[simp] theorem State.hostSend_client (s : State) (c : Bytes) : (s.hostSend c).client = s.client := rfl
@[simp] theorem State.hostSend_env (s : State) (c : Bytes) : (s.hostSend c).env = s.env := rfl

/-! ### `State.clientClose` -/

@[simp] theorem State.clientClose_cfg (s : State) (r : ClientResult) : (s.clientClose r).cfg = s.cfg := rfl
@[simp] theorem State.clientClose_state (s : State) (r : ClientResult) : (s.clientClose r).state = s.state := rfl
@[simp] theorem State.clientClose_pos (s : State) (r : ClientResult) : (s.clientClose r).pos = s.pos := rfl
@[simp] theorem State.clientClose_busy (s : State) (r : ClientResult) : (s.clientClose r).busy = s.busy := rfl
@[simp] theorem State.clientClose_fb (s : State) (r : ClientResult) : (s.clientClose r).fb = s.fb := rfl
@[simp] theorem State.clientClose_fbValid (s : State) (r : ClientResult) : (s.clientClose r).fbValid = s.fbValid := rfl
@[simp] theorem State.clientClose_ind (s : State) (r : ClientResult) : (s.clientClose r).ind = s.ind := rfl
@[simp] theorem State.clientClose_tcnt (s : State) (r : ClientResult) : (s.clientClose r).tcnt = s.tcnt := rfl
@[simp] theorem State.clientClose_rphase (s : State) (r : ClientResult) : (s.clientClose r).rphase = s.rphase := rfl
@[simp] theorem State.clientClose_rxq (s : State) (r : ClientResult) : (s.clientClose r).rxq = s.rxq := rfl
@[simp] theorem State.clientClose_txq (s : State) (r : ClientResult) : (s.clientClose r).txq = s.txq := rfl
@[simp] theorem State.clientClose_hist (s : State) (r : ClientResult) : (s.clientClose r).hist = s.hist := rfl
@[simp] theorem State.clientClose_drvCalls (s : State) (r : ClientResult) : (s.clientClose r).drvCalls = s.drvCalls := rfl
@[simp] theorem State.clientClose_port (s : State) (r : ClientResult) : (s.clientClose r).port = s.port := rfl
@[simp] theorem State.clientClose_client (s : State) (r : ClientResult) : (s.clientClose r).client = { s.client with phase := .closed r, linkOpen := false } := rfl
@[simp] theorem State.clientClose_env (s : State) (r : ClientResult) : (s.clientClose r).env = s.env := rfl

/-! ### `State.clientSurface` -/

@[simp] theorem State.clientSurface_cfg (s : State) (r : Bytes) : (s.clientSurface r).cfg = s.cfg := rfl
@[simp] theorem State.clientSurface_state (s : State) (r : Bytes) : (s.clientSurface r).state = s.state := rfl
@[simp] theorem State.clientSurface_pos (s : State) (r : Bytes) : (s.clientSurface r).pos = s.pos := rfl
@[simp] theorem State.clientSurface_busy (s : State) (r : Bytes) : (s.clientSurface r).busy = s.busy := rfl
@[simp] theorem State.clientSurface_fb (s : State) (r : Bytes) : (s.clientSurface r).fb = s.fb := rfl
@[simp] theorem State.clientSurface_fbValid (s : State) (r : Bytes) : (s.clientSurface r).fbValid = s.fbValid := rfl
@[simp] theorem State.clientSurface_ind (s : State) (r : Bytes) : (s.clientSurface r).ind = s.ind := rfl
@[simp] theorem State.clientSurface_tcnt (s : State) (r : Bytes) : (s.clientSurface r).tcnt = s.tcnt := rfl
@[simp] theorem State.clientSurface_rphase (s : State) (r : Bytes) : (s.clientSurface r).rphase = s.rphase := rfl
@[simp] theorem State.clientSurface_rxq (s : State) (r : Bytes) : (s.clientSurface r).rxq = s.rxq := rfl
@[simp] theorem State.clientSurface_txq (s : State) (r : Bytes) : (s.clientSurface r).txq = s.txq := rfl
@[simp] theorem State.clientSurface_hist (s : State) (r : Bytes) : (s.clientSurface r).hist = s.hist := rfl
@[simp] theorem State.clientSurface_drvCalls (s : State) (r : Bytes) : (s.clientSurface r).drvCalls = s.drvCalls := rfl
@[simp] theorem State.clientSurface_port (s : State) (r : Bytes) : (s.clientSurface r).port = s.port := rfl
@[simp] theorem State.clientSurface_client (s : State) (r : Bytes) : (s.clientSurface r).client = { s.client with surfaced := s.client.surfaced ++ [r] } := rfl
@[simp] theorem State.clientSurface_env (s : State) (r : Bytes) : (s.clientSurface r).env = s.env := rfl

/-! ### `State.raise` -/

@[simp] theorem State.raise_cfg (s : State) (e : DevError) : (s.raise e).cfg = s.cfg := by cases e <;> rfl
@[simp] theorem State.raise_pos (s : State) (e : DevError) : (s.raise e).pos = s.pos := by cases e <;> rfl
@[simp] theorem State.raise_fb (s : State) (e : DevError) : (s.raise e).fb = s.fb := by cases e <;> rfl
@[simp] theorem State.raise_fbValid (s : State) (e : DevError) : (s.raise e).fbValid = s.fbValid := by cases e <;> rfl
@[simp] theorem State.raise_ind (s : State) (e : DevError) : (s.raise e).ind = s.ind := by cases e <;> rfl
@[simp] theorem State.raise_tcnt (s : State) (e : DevError) : (s.raise e).tcnt = s.tcnt := by cases e <;> rfl
@[simp] theorem State.raise_rphase (s : State) (e : DevError) : (s.raise e).rphase = s.rphase := by cases e <;> rfl
@[simp] theorem State.raise_rxq (s : State) (e : DevError) : (s.raise e).rxq = s.rxq := by cases e <;> rfl
@[simp] theorem State.raise_drvCalls (s : State) (e : DevError) : (s.raise e).drvCalls = s.drvCalls := by cases e <;> rfl
@[simp] theorem State.raise_port (s : State) (e : DevError) : (s.raise e).port = s.port := by cases e <;> rfl
@[simp] theorem State.raise_client (s : State) (e : DevError) : (s.raise e).client = s.client := by cases e <;> rfl
@[simp] theorem State.raise_env (s : State) (e : DevError) : (s.raise e).env = s.env := by cases e <;> rfl
@[simp] theorem State.raise_txq (s : State) (e : DevError) : (s.raise e).txq = s.txq ++ (e.line s.cfg ++ [eol]) := by
  cases e <;> rfl
@[simp] theorem State.raise_hist (s : State) (e : DevError) : (s.raise e).hist = s.hist ++ [.sent (e.line s.cfg)] := by
  cases e <;> rfl

end Sys2Proof.Machine
end

