-- ==== Sys2Proof/Laws/Exec.lean ====
section
/-! SUPPORT. What each operation of the device can do: if its meaning answers a next state, then its enabling condition
held and the next state is the one named. Later proofs cite these instead of unfolding the meanings. -/

namespace Sys2Proof.Machine

/-- The state a line operation acts on: the line consumed, its content in the history. -/
abbrev State.took (s : State) (raw rest : Bytes) : State :=
  { s with rxq := rest, hist := s.hist ++ [.received (trim raw)] }

/-- A line that a line operation of `st` reads, in a state. -/
abbrev State.Reads (s : State) (st : DevState) (raw rest : Bytes) : Prop :=
  s.state = st ∧ splitLine s.rxq = some (raw, rest) ∧ (trim raw).length ≤ s.cfg.lineMax

theorem isChunk_iff {p : Params} {b c : Bytes} :
    isChunk p b c = true ↔ c ≠ [] ∧ hxDecode p.hexUpperOk c = .ok b := by
  unfold isChunk
  cases h : hxDecode p.hexUpperOk c <;> simp

theorem notHex_iff {p : Params} {c : Bytes} : notHex p c = true ↔ hxDecode p.hexUpperOk c = .error .invalidHex := by
  unfold notHex
  cases h : hxDecode p.hexUpperOk c with
  | ok b => simp
  | error e => cases e; simp

/-- A line over LINE_MAX is refused by every operation that reads it (R169). -/
theorem onLine_overlong {s : State} {raw rest : Bytes} (isClass : Bytes → Bool) (act : State → Outcome)
    (hs : splitLine s.rxq = some (raw, rest)) (hlen : s.cfg.lineMax < (trim raw).length) :
    onLine s.state s isClass act = .refused .lineTooLong := by
  simp [onLine, State.rxLine_eq hs, hlen]

theorem execBtAlloc_next {r : AllocAnswer} {s t : State} (h : execBtAlloc r s = .next t) :
    s.state = .boot ∧ s.fbValid = false ∧
      ((r = .ok ∧ t = s.allocated) ∨ (r = .fail ∧ t = s.raise .allocationError)) := by
  obtain ⟨hb, rfl⟩ := whenEnabled_next.mp h
  simp only [State.awaitsAlloc, Bool.and_eq_true, beq_iff_eq, Bool.not_eq_true'] at hb
  refine ⟨hb.1, hb.2, ?_⟩
  cases r with
  | ok => exact .inl ⟨rfl, rfl⟩
  | fail => exact .inr ⟨rfl, rfl⟩

theorem execBtLeave_next {s t : State} (h : execBtLeave s = .next t) :
    s.state = .boot ∧ s.fbValid = true ∧ t = { s with ind := false, tcnt := 0, state := .signalReady } := by
  obtain ⟨hb, rfl⟩ := whenEnabled_next.mp h
  simp only [Bool.and_eq_true, beq_iff_eq] at hb
  exact ⟨hb.1, hb.2, rfl⟩

theorem execSrToggle_next {s t : State} (h : execSrToggle s = .next t) :
    s.state = .signalReady ∧ s.tcnt < s.cfg.nToggle ∧ t = { s with ind := !s.ind, tcnt := s.tcnt + 1 } := by
  obtain ⟨hb, rfl⟩ := whenEnabled_next.mp h
  simp only [Bool.and_eq_true, beq_iff_eq, decide_eq_true_eq] at hb
  exact ⟨hb.1, hb.2, rfl⟩

theorem execSrDone_next {s t : State} (h : execSrDone s = .next t) :
    s.state = .signalReady ∧ s.tcnt = s.cfg.nToggle ∧ t = { s with ind := false, state := .waitQuery } := by
  obtain ⟨hb, rfl⟩ := whenEnabled_next.mp h
  simp only [Bool.and_eq_true, beq_iff_eq, decide_eq_true_eq] at hb
  exact ⟨hb.1, hb.2, rfl⟩

theorem execWqIdle_next {s t : State} (h : execWqIdle s = .next t) : s.state = .waitQuery ∧ t = s := by
  obtain ⟨hb, rfl⟩ := whenEnabled_next.mp h
  simp only [Bool.and_eq_true, beq_iff_eq] at hb
  exact ⟨hb.1, rfl⟩

theorem execRxIdle_next {s t : State} (h : execRxIdle s = .next t) : s.state = .receiving ∧ t = s := by
  obtain ⟨hb, rfl⟩ := whenEnabled_next.mp h
  simp only [Bool.and_eq_true, beq_iff_eq] at hb
  exact ⟨hb.1, rfl⟩

theorem execWqBlank_next {s t : State} (h : execWqBlank s = .next t) :
    ∃ raw rest, s.Reads .waitQuery raw rest ∧ trim raw = [] ∧ t = s.took raw rest := by
  obtain ⟨hst, raw, rest, hs, hlen, hc, ht⟩ := onLine_next h
  cases ht
  exact ⟨raw, rest, ⟨hst, hs, hlen⟩, by simpa using hc, rfl⟩

theorem execRxBlank_next {s t : State} (h : execRxBlank s = .next t) :
    ∃ raw rest, s.Reads .receiving raw rest ∧ trim raw = [] ∧ t = s.took raw rest := by
  obtain ⟨hst, raw, rest, hs, hlen, hc, ht⟩ := onLine_next h
  cases ht
  exact ⟨raw, rest, ⟨hst, hs, hlen⟩, by simpa using hc, rfl⟩

theorem execWqCanSend_next {s t : State} (h : execWqCanSend s = .next t) :
    ∃ raw rest, s.Reads .waitQuery raw rest ∧ trim raw = litCanSend ∧ s.busy = false ∧
      t = ((s.took raw rest).tx litYes).openSession := by
  obtain ⟨hst, raw, rest, hs, hlen, hc, ht⟩ := onLine_next h
  cases ht
  simp only [Bool.and_eq_true, beq_iff_eq, Bool.not_eq_true'] at hc
  exact ⟨raw, rest, ⟨hst, hs, hlen⟩, hc.1, hc.2, rfl⟩

theorem execWqCanSendBusy_next {s t : State} (h : execWqCanSendBusy s = .next t) :
    ∃ raw rest, s.Reads .waitQuery raw rest ∧ trim raw = litCanSend ∧ s.busy = true ∧
      t = (s.took raw rest).tx litBusy := by
  obtain ⟨hst, raw, rest, hs, hlen, hc, ht⟩ := onLine_next h
  cases ht
  simp only [Bool.and_eq_true, beq_iff_eq] at hc
  exact ⟨raw, rest, ⟨hst, hs, hlen⟩, hc.1, hc.2, rfl⟩

theorem execWqOther_next {c : Bytes} {s t : State} (h : execWqOther c s = .next t) :
    ∃ raw rest, s.Reads .waitQuery raw rest ∧ trim raw = c ∧ c ≠ [] ∧ c ≠ litCanSend ∧ t = s.took raw rest := by
  obtain ⟨hst, raw, rest, hs, hlen, hc, ht⟩ := onLine_next h
  cases ht
  simp only [Bool.and_eq_true, beq_iff_eq, bne_iff_ne, ne_eq] at hc
  obtain ⟨⟨rfl, h1⟩, h2⟩ := hc
  exact ⟨raw, rest, ⟨hst, hs, hlen⟩, rfl, h1, h2, rfl⟩

theorem execRxChunk_next {b : Bytes} {s t : State} (h : execRxChunk b s = .next t) :
    ∃ raw rest, s.Reads .receiving raw rest ∧ trim raw ≠ [] ∧ hxDecode s.cfg.hexUpperOk (trim raw) = .ok b ∧
      s.pos.toNat + b.length < s.cfg.frameSize ∧
      t = { s.took raw rest with
        fb := s.fb.write s.pos.toNat b, pos := BitVec.ofNat 17 (s.pos.toNat + b.length) }.tx litOk := by
  obtain ⟨hst, raw, rest, hs, hlen, hc, ht⟩ := onLine_next h
  obtain ⟨-, rfl⟩ := State.storeChunk_next ht
  simp only [Bool.and_eq_true, decide_eq_true_eq, isChunk_iff] at hc
  exact ⟨raw, rest, ⟨hst, hs, hlen⟩, hc.1.1, hc.1.2, hc.2, rfl⟩

theorem execRxChunkLast_next {b : Bytes} {s t : State} (h : execRxChunkLast b s = .next t) :
    ∃ raw rest, s.Reads .receiving raw rest ∧ trim raw ≠ [] ∧ hxDecode s.cfg.hexUpperOk (trim raw) = .ok b ∧
      s.pos.toNat + b.length = s.cfg.frameSize ∧
      t = { { s.took raw rest with
        fb := s.fb.write s.pos.toNat b, pos := BitVec.ofNat 17 (s.pos.toNat + b.length) }.tx litOk with
        rphase := .init, state := .refresh } := by
  obtain ⟨hst, raw, rest, hs, hlen, hc, ht⟩ := onLine_next h
  obtain ⟨-, rfl⟩ := State.storeChunk_next ht
  simp only [Bool.and_eq_true, decide_eq_true_eq, isChunk_iff] at hc
  exact ⟨raw, rest, ⟨hst, hs, hlen⟩, hc.1.1, hc.1.2, hc.2, rfl⟩

theorem execRxBadHex_next {c : Bytes} {s t : State} (h : execRxBadHex c s = .next t) :
    ∃ raw rest, s.Reads .receiving raw rest ∧ trim raw = c ∧ c ≠ [] ∧
      hxDecode s.cfg.hexUpperOk c = .error .invalidHex ∧ t = (s.took raw rest).raise .decodeError := by
  obtain ⟨hst, raw, rest, hs, hlen, hc, ht⟩ := onLine_next h
  cases ht
  simp only [Bool.and_eq_true, beq_iff_eq, bne_iff_ne, ne_eq, notHex_iff] at hc
  obtain ⟨⟨rfl, h1⟩, h2⟩ := hc
  exact ⟨raw, rest, ⟨hst, hs, hlen⟩, rfl, h1, h2, rfl⟩

theorem execRxOverflow_next {b : Bytes} {s t : State} (h : execRxOverflow b s = .next t) :
    ∃ raw rest, s.Reads .receiving raw rest ∧ trim raw ≠ [] ∧ hxDecode s.cfg.hexUpperOk (trim raw) = .ok b ∧
      s.cfg.frameSize < s.pos.toNat + b.length ∧ t = (s.took raw rest).raise .overflowError := by
  obtain ⟨hst, raw, rest, hs, hlen, hc, ht⟩ := onLine_next h
  cases ht
  simp only [Bool.and_eq_true, decide_eq_true_eq, isChunk_iff] at hc
  exact ⟨raw, rest, ⟨hst, hs, hlen⟩, hc.1.1, hc.1.2, hc.2, rfl⟩

/-- A call of the driver: it enters the output, then the answer decides. -/
theorem driverCall_cases (s : State) (call : DriverCall) (r : DriverAnswer) (onOk : State → State) :
    (r = .ok ∧ s.driverCall call r onOk = onOk { s with drvCalls := s.drvCalls ++ [call] }) ∨
    ∃ f, r = .fail f ∧
      s.driverCall call r onOk = { s with drvCalls := s.drvCalls ++ [call] }.raise (.displayDriverError f) := by
  cases r with
  | ok => exact .inl ⟨rfl, rfl⟩
  | fail f => exact .inr ⟨f, rfl, rfl⟩

theorem execRfInit_next {r : DriverAnswer} {s t : State} (h : execRfInit r s = .next t) :
    s.state = .refresh ∧ s.rphase = .init ∧
      ((r = .ok ∧ t = { s with drvCalls := s.drvCalls ++ [DriverCall.init], rphase := .display }) ∨
       ∃ f, r = .fail f ∧ t = { s with drvCalls := s.drvCalls ++ [DriverCall.init] }.raise (.displayDriverError f)) := by
  obtain ⟨hb, rfl⟩ := whenEnabled_next.mp h
  simp only [State.awaitsDriver, Bool.and_eq_true, beq_iff_eq] at hb
  exact ⟨hb.1, hb.2, driverCall_cases s .init r _⟩

/-- `RF.DISPLAY` reads inside `FB`: its load is no fault. -/
theorem execRfDisplay_eq (r : DriverAnswer) (s : State) : execRfDisplay r s =
    whenEnabled (s.awaitsDriver .display) (s.driverCall (.display ((List.range s.cfg.frameSize).map s.fb.read)) r
      (fun t => { t with rphase := .sleep })) := by
  simp only [execRfDisplay, State.memRead_all]

theorem execRfDisplay_next {r : DriverAnswer} {s t : State} (h : execRfDisplay r s = .next t) :
    s.state = .refresh ∧ s.rphase = .display ∧
      ((r = .ok ∧ t = { s with
          drvCalls := s.drvCalls ++ [DriverCall.display ((List.range s.cfg.frameSize).map s.fb.read)], rphase := .sleep }) ∨
       ∃ f, r = .fail f ∧ t = { s with
          drvCalls := s.drvCalls ++ [DriverCall.display ((List.range s.cfg.frameSize).map s.fb.read)] }.raise (.displayDriverError f)) := by
  rw [execRfDisplay_eq] at h
  obtain ⟨hb, rfl⟩ := whenEnabled_next.mp h
  simp only [State.awaitsDriver, Bool.and_eq_true, beq_iff_eq] at hb
  exact ⟨hb.1, hb.2, driverCall_cases s (.display ((List.range s.cfg.frameSize).map s.fb.read)) r _⟩

theorem execRfSleep_next {r : DriverAnswer} {s t : State} (h : execRfSleep r s = .next t) :
    s.state = .refresh ∧ s.rphase = .sleep ∧
      ((r = .ok ∧ t = ({ s with drvCalls := s.drvCalls ++ [DriverCall.sleep] }.tx litDone).endSession) ∨
       ∃ f, r = .fail f ∧ t = { s with drvCalls := s.drvCalls ++ [DriverCall.sleep] }.raise (.displayDriverError f)) := by
  obtain ⟨hb, rfl⟩ := whenEnabled_next.mp h
  simp only [State.awaitsDriver, Bool.and_eq_true, beq_iff_eq] at hb
  exact ⟨hb.1, hb.2, driverCall_cases s .sleep r _⟩

theorem execFtEnter_next {u : Nat} {s t : State} (h : execFtEnter u s = .next t) :
    s.state ≠ .fatal ∧ t = s.raise (.unclassifiedFault u) := by
  obtain ⟨hb, rfl⟩ := whenEnabled_next.mp h
  exact ⟨by simpa using hb, rfl⟩

theorem execFtBlink_next {s t : State} (h : execFtBlink s = .next t) : s.state = .fatal ∧ t = s.toggleInd := by
  obtain ⟨hb, rfl⟩ := whenEnabled_next.mp h
  exact ⟨by simpa using hb, rfl⟩

/-- A function of FC or HX writes its answer at the function interface and nothing else. -/
theorem exec_func {i : Instr} (hi : i.isFunc = true) (s : State) : ∃ r, exec i s = .next { s with port := r } := by
  cases i <;> simp only [Instr.isFunc, Bool.false_eq_true] at hi
  case fcQuant v => exact ⟨_, rfl⟩
  case fcPack l0 l1 l2 l3 => exact ⟨_, rfl⟩
  case fcEncode r =>
    simp only [exec, execFcEncode]
    split
    · exact ⟨_, rfl⟩
    · exact ⟨_, rfl⟩
  case hxEncByte b => exact ⟨_, rfl⟩
  case hxEncode p => exact ⟨_, rfl⟩
  case hxDecPair c0 c1 =>
    simp only [exec, execHxDecPair]
    split
    · exact ⟨_, rfl⟩
    · exact ⟨_, rfl⟩
  case hxDecode t =>
    simp only [exec, execHxDecode]
    split
    · exact ⟨_, rfl⟩
    · exact ⟨_, rfl⟩

/-- A message as the host reads it: its encoding is the content taken off `TXQ`. -/
theorem exec_message {i : Instr} (hi : i.isMessage = true) (s : State) :
    ∃ c, encode i = some c ∧ exec i s = s.clientReceive c := by
  cases i <;> simp only [Instr.isMessage, Bool.false_eq_true] at hi <;> exact ⟨_, rfl, rfl⟩

end Sys2Proof.Machine
end

