-- ==== Sys2Proof/Laws/PerInstr.lean ====
section
/-! SUPPORT. Framing, instruction by instruction: the content that encodes a well-formed instruction survives the line
layer, so that the reader of the line sees exactly it (spec/30_encoding.md R85 to R87, spec/41_hex_codec.md R142). -/

namespace Sys2Proof.Laws.Framing

/-- The encoding of the instruction, followed by EOL, is read back as the oldest line, and trimming leaves it. -/
def Statement (i : Instr) : Prop :=
  ∀ (p : Params) (c : Bytes), i.wf p = true → encode i = some c →
    trim c = c ∧ ∀ rest, splitLine (c ++ eol :: rest) = some (c, rest)

/-- A content without EOL whose ends are no bytes of `WS` is framed. -/
theorem framed {c : Bytes} (he : eol ∉ c) (ht : trim c = c) :
    trim c = c ∧ ∀ rest, splitLine (c ++ eol :: rest) = some (c, rest) :=
  ⟨ht, fun rest => splitLine_append rest he⟩

theorem framed_hex (b : Bytes) :
    trim (hxEncode b) = hxEncode b ∧ ∀ rest, splitLine (hxEncode b ++ eol :: rest) = some (hxEncode b, rest) := by
  have noWs : ∀ ch ∈ hxEncode b, isWs ch = false := fun ch h => by
    obtain ⟨n, rfl⟩ := mem_hxEncode h
    exact hexCh_not_ws n
  refine framed (fun h => ?_) (trim_eq_self (fun ch h => noWs ch (List.mem_of_head? h))
    (fun ch h => noWs ch (List.mem_of_getLast? h)))
  obtain ⟨n, hn⟩ := mem_hxEncode h
  exact hexCh_ne_eol n hn.symm

theorem framed_reason (lit r : Bytes) (hlit : eol ∉ lit) (hhead : ∀ b, lit.head? = some b → isWs b = false)
    (hne : lit ≠ []) (hr : admissibleReason r = true) :
    trim (lit ++ r) = lit ++ r ∧ ∀ rest, splitLine (lit ++ r ++ eol :: rest) = some (lit ++ r, rest) := by
  obtain ⟨hlen, -, hp, -, hlast⟩ := (admissibleReason_iff r).mp hr
  have hrne : r ≠ [] := by
    rintro rfl
    simp at hlen
  refine framed ?_ (trim_eq_self ?_ ?_)
  · simp only [List.mem_append, not_or]
    exact ⟨hlit, fun h => printable_ne_eol (hp _ h) rfl⟩
  · intro b hb
    rw [List.head?_append_of_ne_nil _ hne] at hb
    exact hhead b hb
  · intro b hb
    rw [List.getLast?_append_of_ne_nil _ hrne] at hb
    refine isWs_of_printable (hp b (List.mem_of_getLast? hb)) ?_
    rintro rfl
    exact hlast hb

theorem framed_content {p : Params} {c : Bytes} (h : contentWf p c = true) :
    trim c = c ∧ ∀ rest, splitLine (c ++ eol :: rest) = some (c, rest) := by
  simp only [contentWf, Bool.and_eq_true, decide_eq_true_eq, Bool.not_eq_true', List.contains_eq_mem,
    decide_eq_false_iff_not] at h
  exact framed h.1.1.1 h.1.1.2

/-- The rows that have no wire encoding (R100) say nothing here. -/
theorem unencoded {i : Instr} (h : encode i = none) : Statement i := fun _ c _ he => by
  rw [h] at he
  cases he

/-- The rows whose encoding is a literal. -/
theorem literal {i : Instr} {c : Bytes} (h : encode i = some c) (he : eol ∉ c) (ht : trim c = c) : Statement i :=
  fun _ c' _ he' => by
    rw [h] at he'
    cases he'
    exact framed he ht

theorem fcQuant (v : Byte) : Statement (.fcQuant v) := unencoded rfl
theorem fcPack (l0 l1 l2 l3 : Level) : Statement (.fcPack l0 l1 l2 l3) := unencoded rfl
theorem fcEncode (r : Raster) : Statement (.fcEncode r) := unencoded rfl
theorem hxEncByte (b : Byte) : Statement (.hxEncByte b) := unencoded rfl
theorem hxEncode (p : Bytes) : Statement (.hxEncode p) := unencoded rfl
theorem hxDecPair (c0 c1 : Byte) : Statement (.hxDecPair c0 c1) := unencoded rfl
theorem hxDecode (text : Bytes) : Statement (.hxDecode text) := unencoded rfl
theorem btAlloc (r : AllocAnswer) : Statement (.btAlloc r) := unencoded rfl
theorem btLeave : Statement .btLeave := unencoded rfl
theorem srToggle : Statement .srToggle := unencoded rfl
theorem srDone : Statement .srDone := unencoded rfl
theorem wqIdle : Statement .wqIdle := unencoded rfl
theorem wqBlank : Statement .wqBlank := literal rfl (by decide) (by decide)
theorem wqCanSend : Statement .wqCanSend := literal rfl (by decide) (by decide)
theorem wqCanSendBusy : Statement .wqCanSendBusy := literal rfl (by decide) (by decide)
theorem wqOther (c : Bytes) : Statement (.wqOther c) := fun p _ hw he => by
  cases he
  exact framed_content (p := p) (by simp only [Instr.wf, Bool.and_eq_true] at hw; exact hw.1)
theorem rxIdle : Statement .rxIdle := unencoded rfl
theorem rxBlank : Statement .rxBlank := literal rfl (by decide) (by decide)
theorem rxChunk (b : Bytes) : Statement (.rxChunk b) := fun _ _ _ he => by
  cases he
  exact framed_hex b
theorem rxChunkLast (b : Bytes) : Statement (.rxChunkLast b) := fun _ _ _ he => by
  cases he
  exact framed_hex b
theorem rxBadHex (c : Bytes) : Statement (.rxBadHex c) := fun p _ hw he => by
  cases he
  exact framed_content (p := p) (by simp only [Instr.wf, Bool.and_eq_true] at hw; exact hw.1)
theorem rxOverflow (b : Bytes) : Statement (.rxOverflow b) := fun _ _ _ he => by
  cases he
  exact framed_hex b
theorem rfInit (r : DriverAnswer) : Statement (.rfInit r) := unencoded rfl
theorem rfDisplay (r : DriverAnswer) : Statement (.rfDisplay r) := unencoded rfl
theorem rfSleep (r : DriverAnswer) : Statement (.rfSleep r) := unencoded rfl
theorem ftEnter (u : Nat) : Statement (.ftEnter u) := unencoded rfl
theorem ftBlink : Statement .ftBlink := unencoded rfl
theorem msgYes : Statement .msgYes := literal rfl (by decide) (by decide)
theorem msgBusy : Statement .msgBusy := literal rfl (by decide) (by decide)
theorem msgOk : Statement .msgOk := literal rfl (by decide) (by decide)
theorem msgErrOverflow : Statement .msgErrOverflow := literal rfl (by decide) (by decide)
theorem msgErr (r : Bytes) : Statement (.msgErr r) := fun _ _ hw he => by
  cases he
  simp only [Instr.wf, Bool.and_eq_true] at hw
  exact framed_reason litErr r (by decide) (by decide) (by decide) hw.1
theorem msgErrDisp (r : Bytes) : Statement (.msgErrDisp r) := fun _ _ hw he => by
  cases he
  exact framed_reason litErrDisp r (by decide) (by decide) (by decide) hw
theorem msgErrMem : Statement .msgErrMem := literal rfl (by decide) (by decide)
theorem msgDone : Statement .msgDone := literal rfl (by decide) (by decide)
theorem msgFatal (r : Bytes) : Statement (.msgFatal r) := fun _ _ hw he => by
  cases he
  exact framed_reason litFatal r (by decide) (by decide) (by decide) hw
theorem msgReady : Statement .msgReady := literal rfl (by decide) (by decide)

/-- Framing holds of every instruction. -/
theorem every (i : Instr) : Statement i := by
  cases i with
  | fcQuant v => exact fcQuant v
  | fcPack l0 l1 l2 l3 => exact fcPack l0 l1 l2 l3
  | fcEncode r => exact fcEncode r
  | hxEncByte b => exact hxEncByte b
  | hxEncode p => exact hxEncode p
  | hxDecPair c0 c1 => exact hxDecPair c0 c1
  | hxDecode t => exact hxDecode t
  | btAlloc r => exact btAlloc r
  | btLeave => exact btLeave
  | srToggle => exact srToggle
  | srDone => exact srDone
  | wqIdle => exact wqIdle
  | wqBlank => exact wqBlank
  | wqCanSend => exact wqCanSend
  | wqCanSendBusy => exact wqCanSendBusy
  | wqOther c => exact wqOther c
  | rxIdle => exact rxIdle
  | rxBlank => exact rxBlank
  | rxChunk b => exact rxChunk b
  | rxChunkLast b => exact rxChunkLast b
  | rxBadHex c => exact rxBadHex c
  | rxOverflow b => exact rxOverflow b
  | rfInit r => exact rfInit r
  | rfDisplay r => exact rfDisplay r
  | rfSleep r => exact rfSleep r
  | ftEnter u => exact ftEnter u
  | ftBlink => exact ftBlink
  | msgYes => exact msgYes
  | msgBusy => exact msgBusy
  | msgOk => exact msgOk
  | msgErrOverflow => exact msgErrOverflow
  | msgErr r => exact msgErr r
  | msgErrDisp r => exact msgErrDisp r
  | msgErrMem => exact msgErrMem
  | msgDone => exact msgDone
  | msgFatal r => exact msgFatal r
  | msgReady => exact msgReady

end Sys2Proof.Laws.Framing
end

