-- ==== Sys2Proof/Laws/Step.lean ====
section
/-! SUPPORT. The step by what it chooses: with nothing from the environment, at an event, and over several steps. -/

namespace Sys2Proof.Machine

theorem step_run {s t : State} {i : Instr} (h : s.choice = .run i t) : step s = exec i t := by
  simp [step, h]

theorem step_settle {s t : State} (h : s.choice = .settle t) : step s = .next t := by
  simp [step, h]

theorem choice_nil {s : State} (h : s.env = []) : s.choice = s.deviceChoice := by
  simp [State.choice, h]

theorem choice_cons {s : State} {e : EnvEvent} {rest : List EnvEvent} (h : s.env = e :: rest) :
    s.choice = State.envChoice { s with env := rest } e := by
  simp [State.choice, h]

/-- Everything a step can do when it answers a next state: it runs an instruction, or it settles. -/
theorem step_next {s t : State} (h : step s = .next t) :
    (∃ i u, s.choice = .run i u ∧ exec i u = .next t) ∨ s.choice = .settle t := by
  unfold step at h
  split at h
  · next i u hc => exact .inl ⟨i, u, hc, h⟩
  · next u hc => cases h; exact .inr hc
  · cases h
  · cases h

/-- Several steps: the first, then the rest. -/
theorem run_succ {s t : State} (k : Nat) (h : step s = .next t) : core.run (k + 1) s = core.run k t := by
  have h' : core.step s = .next t := h
  simp only [Host.Core.run]
  rw [h']

theorem run_zero (s : State) : core.run 0 s = .next s := rfl

/-- Steps in two parts. -/
theorem run_add {s t : State} {j : Nat} (k : Nat) (h : core.run j s = .next t) : core.run (j + k) s = core.run k t := by
  induction j generalizing s with
  | zero =>
    rw [run_zero] at h
    cases h
    rw [Nat.zero_add]
  | succ j ih =>
    have hs : core.step s = step s := rfl
    simp only [Host.Core.run] at h
    rw [hs] at h
    rw [Nat.succ_add]
    cases hc : step s with
    | next u =>
      rw [hc] at h
      rw [run_succ _ hc]
      exact ih h
    | fault r => rw [hc] at h; cases h
    | refused r => rw [hc] at h; cases h

/-- What a device choice runs, it runs in the same state. -/
theorem deviceChoice_run {s u : State} {i : Instr} (h : s.deviceChoice = .run i u) : u = s := by
  have hread : ∀ idle, s.readChoice idle = .run i u → u = s := by
    intro idle hr
    unfold State.readChoice at hr
    split at hr
    · cases hr; rfl
    · split at hr
      · cases hr; rfl
      · cases hr
  unfold State.deviceChoice at h
  split at h
  · split at h
    · cases h; rfl
    · cases h
  · split at h
    · cases h; rfl
    · split at h
      · cases h; rfl
      · cases h
  · exact hread _ h
  · exact hread _ h
  · cases h
  · cases h; rfl

/-- What the device settles, it leaves alone. -/
theorem deviceChoice_settle {s u : State} (h : s.deviceChoice = .settle u) : u = s := by
  have hread : ∀ idle, s.readChoice idle = .settle u → u = s := by
    intro idle hr
    unfold State.readChoice at hr
    split at hr
    · cases hr
    · split at hr
      · cases hr
      · cases hr
  unfold State.deviceChoice at h
  split at h
  · split at h
    · cases h
    · cases h; rfl
  · split at h
    · cases h
    · split at h
      · cases h
      · cases h
  · exact hread _ h
  · exact hread _ h
  · cases h; rfl
  · cases h

/-- The host's own events write `RXQ`, the host's record, and (with a raster) the function interface; nothing else. -/
def State.HostOnly (s t : State) : Prop :=
  ∃ out c r, t = { s with rxq := s.rxq ++ out, client := c, port := r }

theorem hostOnly_refl (s : State) : s.HostOnly s := ⟨[], s.client, s.port, by simp⟩

theorem hostOnly_client (s : State) (c : Client) : s.HostOnly { s with client := c } :=
  ⟨[], c, s.port, by simp⟩

theorem hostOnly_query (s : State) (k : Nat) : s.HostOnly (s.clientQuery k) := ⟨_, _, _, rfl⟩

theorem clientOpen_hostOnly (s : State) (p : Bytes) : s.HostOnly (s.clientOpen p) := by
  unfold State.clientOpen
  split
  · split
    · exact hostOnly_client s _
    · exact ⟨_, _, _, rfl⟩
  · split
    · exact hostOnly_client s _
    · exact ⟨_, _, _, rfl⟩
  · exact hostOnly_refl s
  · exact hostOnly_refl s
  · exact hostOnly_refl s
  · exact hostOnly_refl s

theorem clientOpenRaster_hostOnly (s : State) (r : Raster) : s.HostOnly (s.clientOpenRaster r) := by
  unfold State.clientOpenRaster
  split
  · obtain ⟨out, c, q, h⟩ := clientOpen_hostOnly { s with port := .bytes _ } _
    exact ⟨out, c, q, h⟩
  · exact ⟨[], s.client, _, by simp; rfl⟩

theorem clientTimeout_hostOnly (s : State) : s.HostOnly s.clientTimeout := by
  unfold State.clientTimeout
  split
  · split
    · exact hostOnly_query s _
    · exact hostOnly_client s _
  · exact hostOnly_client s _
  all_goals exact hostOnly_refl s

theorem clientWake_hostOnly (s : State) : s.HostOnly s.clientWake := by
  unfold State.clientWake
  split
  · split
    · exact hostOnly_query s _
    · exact hostOnly_client s _
  all_goals exact hostOnly_refl s

theorem clientAbandon_hostOnly (s : State) : s.HostOnly s.clientAbandon := by
  unfold State.clientAbandon
  split
  · exact hostOnly_client s _
  · exact hostOnly_client s _
  · exact hostOnly_client s _
  · exact hostOnly_client s _
  · exact hostOnly_refl s
  · exact hostOnly_refl s

/-- Everything an event of the environment can settle. -/
theorem envChoice_settle {s t : State} {e : EnvEvent} (h : s.envChoice e = .settle t) :
    (e = .reset ∧ t = s.resetBlock) ∨ s.HostOnly t ∨
      ∃ raw rest, splitLine s.txq = some (raw, rest) ∧ State.HostOnly { s with txq := rest } t := by
  have same : s.HostOnly s := hostOnly_refl s
  cases e with
  | dts => obtain rfl := deviceChoice_settle h; exact .inr (.inl same)
  | alloc r =>
    simp only [State.envChoice] at h
    split at h
    · cases h
    · cases h; exact .inr (.inl same)
  | driver c r =>
    simp only [State.envChoice] at h
    split at h
    · cases h
    · cases h; exact .inr (.inl same)
  | ufault u =>
    simp only [State.envChoice] at h
    split at h
    · cases h; exact .inr (.inl same)
    · cases h
  | reset => cases h; exact .inl ⟨rfl, rfl⟩
  | call i =>
    simp only [State.envChoice] at h
    split at h
    · cases h
    · cases h; exact .inr (.inl same)
  | hostBytes bs => cases h; exact .inr (.inl ⟨bs, _, _, rfl⟩)
  | hostRead =>
    simp only [State.envChoice, State.hostReadChoice] at h
    split at h
    · cases h; exact .inr (.inl same)
    · split at h
      · cases h; exact .inr (.inl same)
      · next c u htx =>
        obtain ⟨raw, rest, hs, rfl, rfl⟩ := State.txLine_some htx
        split at h
        · cases h
        · cases h
          obtain ⟨out, cl, hr⟩ := State.clientReply_frame { s with txq := rest } (trim raw)
          exact .inr (.inr ⟨raw, rest, hs, out, cl, s.port, hr⟩)
  | hostOpen p => cases h; exact .inr (.inl (clientOpen_hostOnly s p))
  | hostOpenRaster r => cases h; exact .inr (.inl (clientOpenRaster_hostOnly s r))
  | hostTimeout => cases h; exact .inr (.inl (clientTimeout_hostOnly s))
  | hostWake => cases h; exact .inr (.inl (clientWake_hostOnly s))
  | hostAbandon => cases h; exact .inr (.inl (clientAbandon_hostOnly s))

/-- What an event of the environment runs, it runs in the same state. -/
theorem envChoice_run {s u : State} {e : EnvEvent} {i : Instr} (h : s.envChoice e = .run i u) : u = s := by
  cases e with
  | dts => exact deviceChoice_run h
  | alloc r =>
    simp only [State.envChoice] at h
    split at h
    · cases h; rfl
    · cases h
  | driver c r =>
    simp only [State.envChoice] at h
    split at h
    · cases h; rfl
    · cases h
  | ufault u =>
    simp only [State.envChoice] at h
    split at h
    · cases h
    · cases h; rfl
  | call i =>
    simp only [State.envChoice] at h
    split at h
    · cases h; rfl
    · cases h
  | hostRead =>
    simp only [State.envChoice, State.hostReadChoice] at h
    split at h
    · cases h
    · split at h
      · cases h
      · split at h
        · cases h; rfl
        · cases h
  | reset | hostBytes _ | hostOpen _ | hostOpenRaster _ | hostTimeout | hostWake | hostAbandon => cases h

/-- Everything a step can do when it answers a next state, from the state without the event it consumed. -/
theorem step_cases {s t : State} (h : step s = .next t) :
    ∃ s', s' = { s with env := s.env.tail } ∧
      ((∃ i, exec i s' = .next t) ∨ (s.env.head? = some .reset ∧ t = s'.resetBlock) ∨ s'.HostOnly t ∨
        ∃ raw rest, splitLine s'.txq = some (raw, rest) ∧ State.HostOnly { s' with txq := rest } t) := by
  refine ⟨_, rfl, ?_⟩
  cases he : s.env with
  | nil =>
    have hs : ({ s with env := [] } : State) = s := by rw [← he]
    simp only [List.tail_nil, hs]
    rcases step_next h with ⟨i, u, hc, hx⟩ | hc
    · rw [choice_nil he] at hc
      obtain rfl := deviceChoice_run hc
      exact .inl ⟨i, hx⟩
    · rw [choice_nil he] at hc
      obtain rfl := deviceChoice_settle hc
      exact .inr (.inr (.inl (hostOnly_refl _)))
  | cons e rest =>
    simp only [List.tail_cons, List.head?_cons]
    rcases step_next h with ⟨i, u, hc, hx⟩ | hc
    · rw [choice_cons he] at hc
      obtain rfl := envChoice_run hc
      exact .inl ⟨i, hx⟩
    · rw [choice_cons he] at hc
      rcases envChoice_settle hc with ⟨rfl, rfl⟩ | hh | hh
      · exact .inr (.inl ⟨rfl, rfl⟩)
      · exact .inr (.inr (.inl hh))
      · exact .inr (.inr (.inr hh))

end Sys2Proof.Machine
end

