-- ==== Sys2Proof/Tests/Slice0.lean ====
section
/-! SUPPORT. Tests on the small instance of spec/95_test_vectors.md (FRAME_SIZE = 8), whose vectors (Q, K, E, X, Y, L, T,
H) give the expected results, and one witness for the hypotheses of every statement. -/

namespace Sys2Proof.Tests

open Sys2Proof.Machine

/-! ### The small instance -/

/-- The small instance of program P2; LINE_MAX is 18, so that a chunk of nine bytes, one more than `FB` holds, is a
line. -/
def small : Params where
  width := 8
  height := 4
  frameSize := 8
  bpp := 2
  ppb := 4
  sampleBits := 8
  t1 := 64
  t2 := 128
  t3 := 192
  qUpper := true
  packPos := Config.packPos
  hexUpperOk := true
  lineMax := 18
  chunkRaw := 4
  baud := 115200
  tChunkAck := 3
  tHandshake := 2
  tBackoff := 2
  tToggle := 0
  tBlink := 0
  tPoll := 0
  nToggle := 2
  nHandshake := 5
  reasonHex := Config.reasonHex
  reasonDisp := { named := [(7, [0x46])], other := Config.reasonDisp }
  reasonFatal := { named := [], other := Config.reasonFatal }

/-- A device of the small instance in a state, after boot. -/
def dev (st : DevState) : State := { State.reset with cfg := small, fbValid := true, state := st }

/-- A device in a session with the cursor at `pos`, the bytes of `line` and an EOL waiting. -/
def session (pos : Cursor) (line : Bytes) : State :=
  { dev .receiving with busy := true, pos := pos, rxq := line ++ [0x0A] }

/-- A device waiting for a handshake, the bytes of `line` and an EOL waiting. -/
def query (line : Bytes) : State := { dev .waitQuery with rxq := line ++ [0x0A] }

/-- A device that refreshes a complete frame and makes the call `call` next. -/
def refreshing (call : RPhase) : State := { dev .refresh with busy := true, pos := 8, rphase := call }

/-- A host in a phase of its attempt, the line `line` waiting for it. -/
def host (phase : ClientPhase) (line : Bytes) : State :=
  { dev .waitQuery with
    txq := line ++ [0x0A]
    client := { phase := phase, payload := [0x1B, 0xE4, 0, 0, 0], bytesSent := 0, totalHexLength := 10, linkOpen := true,
                surfaced := [] } }

/-- The next state of an outcome, if it is one. -/
def landed (o : Outcome) : Option State :=
  match o with
  | .next t => some t
  | .fault _ | .refused _ => none

/-- The refusal or the fault of an outcome, if it is one. -/
def stopped (o : Outcome) : Option (Refusal ⊕ Fault) :=
  match o with
  | .next _ => none
  | .fault f => some (.inr f)
  | .refused r => some (.inl r)

/-- The raster of the small instance of spec/95 section 2. -/
def raster : Raster where
  width := 8
  height := 4
  rows := [[0, 63, 64, 127, 128, 191, 192, 255], [255, 192, 191, 128, 127, 64, 63, 0],
    [10, 70, 130, 200, 200, 130, 70, 10], [64, 64, 64, 64, 192, 192, 192, 192]]

/-! ### Well-formedness: an ill-formed term for each check -/

theorem test_wf_params : small.wf = true ∧ Config.params.wf = true := by
  constructor
  · decide
  · decide

/-- One broken parameter after the other: the pixel count, the widths of a pixel and of a sample, no framebuffer, a
framebuffer beyond the cursor, thresholds out of order or out of range, two pixels in one field, a line too short for
`CAN_SEND` or for a chunk, no chunk, no attempt, the reasons. -/
theorem test_wf_params_refused :
    ({ small with height := 5 } : Params).wf = false ∧ ({ small with bpp := 1 } : Params).wf = false ∧
    ({ small with ppb := 8, height := 8 } : Params).wf = false ∧
    ({ small with sampleBits := 4 } : Params).wf = false ∧
    ({ small with height := 0, frameSize := 0 } : Params).wf = false ∧
    ({ small with width := 2 ^ 19, height := 1, frameSize := 2 ^ 17 } : Params).wf = false ∧
    ({ small with t1 := 128 } : Params).wf = false ∧ ({ small with t2 := 192 } : Params).wf = false ∧
    ({ small with t3 := 256 } : Params).wf = false ∧
    ({ small with packPos := { Config.packPos with k1 := .p6 } } : Params).wf = false ∧
    ({ small with packPos := { Config.packPos with k2 := .p6 } } : Params).wf = false ∧
    ({ small with packPos := { Config.packPos with k3 := .p6 } } : Params).wf = false ∧
    ({ small with packPos := { Config.packPos with k2 := .p4 } } : Params).wf = false ∧
    ({ small with packPos := { Config.packPos with k3 := .p4 } } : Params).wf = false ∧
    ({ small with packPos := { Config.packPos with k3 := .p2 } } : Params).wf = false ∧
    ({ small with lineMax := 7, chunkRaw := 1 } : Params).wf = false ∧
    ({ small with chunkRaw := 10 } : Params).wf = false ∧ ({ small with chunkRaw := 0 } : Params).wf = false ∧
    ({ small with nHandshake := 0 } : Params).wf = false ∧ ({ small with reasonHex := [] } : Params).wf = false ∧
    ({ small with reasonHex := litOverflow } : Params).wf = false ∧
    ({ small with reasonDisp := { named := [], other := [] } } : Params).wf = false ∧
    ({ small with reasonFatal := { named := [(1, [])], other := [0x41] } } : Params).wf = false := by
  decide

/-- R92: empty, 65 bytes, a control character, a space at either end. -/
theorem test_wf_reason_refused :
    admissibleReason [] = false ∧ admissibleReason (List.replicate 65 0x41) = false ∧
    admissibleReason [0x41, 0x0A, 0x41] = false ∧ admissibleReason [0x20, 0x41] = false ∧
    admissibleReason [0x41, 0x20] = false ∧ admissibleReason (List.replicate 64 0x41) = true := by
  decide

theorem test_wf_raster_refused :
    ({ raster with height := 5 } : Raster).wf = false ∧ ({ raster with width := 7 } : Raster).wf = false ∧
    raster.wf = true := by
  decide

/-- A content with an EOL, with a space at an end, blank, over LINE_MAX; `CAN_SEND` as another line; valid hex as bad
hex; no data; too much data; `OVERFLOW` as the reason of the `ERR:` row; reasons that are not admissible. -/
theorem test_wf_instr_refused :
    (Instr.wqOther [0x41, 0x0A, 0x41]).wf small = false ∧ (Instr.wqOther [0x41, 0x20]).wf small = false ∧
    (Instr.wqOther []).wf small = false ∧ (Instr.wqOther (List.replicate 19 0x41)).wf small = false ∧
    (Instr.wqOther litCanSend).wf small = false ∧ (Instr.wqOther [0x41]).wf small = true ∧
    (Instr.rxBadHex [0x31, 0x62]).wf small = false ∧ (Instr.rxBadHex [0x20]).wf small = false ∧
    (Instr.rxChunk []).wf small = false ∧ (Instr.rxChunkLast (List.replicate 10 0)).wf small = false ∧
    (Instr.rxOverflow []).wf small = false ∧ (Instr.msgErr litOverflow).wf small = false ∧
    (Instr.msgErr []).wf small = false ∧ (Instr.msgErrDisp []).wf small = false ∧
    (Instr.msgFatal []).wf small = false ∧ (Instr.fcEncode { raster with height := 3 }).wf small = false := by
  decide

/-! ### Decoding: words and lines written out from spec/30_encoding.md -/

/-- `CAN_SEND` is 43 41 4E 5F 53 45 4E 44 (R84): granted or refused by `BUSY`, bad hex in a session (R89). -/
theorem test_decode_can_send :
    decode small (.device .waitQuery false 0) [0x43, 0x41, 0x4E, 0x5F, 0x53, 0x45, 0x4E, 0x44] = .ok .wqCanSend ∧
    decode small (.device .waitQuery true 0) [0x43, 0x41, 0x4E, 0x5F, 0x53, 0x45, 0x4E, 0x44] = .ok .wqCanSendBusy ∧
    decode small (.device .receiving true 0) [0x43, 0x41, 0x4E, 0x5F, 0x53, 0x45, 0x4E, 0x44] =
      .ok (.rxBadHex [0x43, 0x41, 0x4E, 0x5F, 0x53, 0x45, 0x4E, 0x44]) := by
  decide

/-- Blank lines and other lines (T7, T10, T10b, T11b). -/
theorem test_decode_other :
    decode small (.device .waitQuery false 0) [] = .ok .wqBlank ∧
    decode small (.device .receiving true 0) [] = .ok .rxBlank ∧
    decode small (.device .waitQuery false 0) [0x31, 0x62, 0x65, 0x34] = .ok (.wqOther [0x31, 0x62, 0x65, 0x34]) ∧
    decode small (.device .waitQuery false 0) [0x63, 0x61, 0x6E, 0x5F, 0x73, 0x65, 0x6E, 0x64] =
      .ok (.wqOther [0x63, 0x61, 0x6E, 0x5F, 0x73, 0x65, 0x6E, 0x64]) := by
  decide

/-- `1be4` is the data 1B E4: a chunk below the end, the last one at it, an overflow beyond it (R89; T12 to T14). -/
theorem test_decode_chunk :
    decode small (.device .receiving true 5) [0x31, 0x62, 0x65, 0x34] = .ok (.rxChunk [0x1B, 0xE4]) ∧
    decode small (.device .receiving true 6) [0x31, 0x62, 0x65, 0x34] = .ok (.rxChunkLast [0x1B, 0xE4]) ∧
    decode small (.device .receiving true 7) [0x31, 0x62, 0x65, 0x34] = .ok (.rxOverflow [0x1B, 0xE4]) ∧
    decode small (.device .receiving true 7) [0x61, 0x62, 0x63] = .ok (.rxBadHex [0x61, 0x62, 0x63]) := by
  decide

/-- The ten message rows by their `match` words in spec/opcode_table.json, reasons after the literal starts. -/
theorem test_decode_messages :
    decodeTableWord 24 0x594553 = some .msgYes ∧ decodeTableWord 32 0x42555359 = some .msgBusy ∧
    decodeTableWord 16 0x4F4B = some .msgOk ∧
    decodeTableWord 96 0x4552523A4F564552464C4F57 = some .msgErrOverflow ∧
    decodeTableWord 40 0x4552523A41 = some (.msgErr [0x41]) ∧
    decodeTableWord 80 0x4552525F444953503A41 = some (.msgErrDisp [0x41]) ∧
    decodeTableWord 56 0x4552525F4D454D = some .msgErrMem ∧ decodeTableWord 32 0x444F4E45 = some .msgDone ∧
    decodeTableWord 56 0x464154414C3A41 = some (.msgFatal [0x41]) ∧
    decodeTableWord 40 0x5245414459 = some .msgReady := by
  decide

/-- What no reader takes: any line in `Boot` or `Refresh`, a line over LINE_MAX, a reply that is no message (H8). -/
theorem test_decode_refused :
    decode small (.device .boot false 0) [0x41] = .error .notReading ∧
    decode small (.device .signalReady false 0) [0x41] = .error .notReading ∧
    decode small (.device .refresh true 8) [0x41] = .error .notReading ∧
    decode small (.device .fatal true 8) [0x41] = .error .notReading ∧
    decode small (.device .waitQuery false 0) (List.replicate 19 0x41) = .error .lineTooLong ∧
    decode small (.device .receiving true 0) (List.replicate 20 0x30) = .error .lineTooLong ∧
    decode small .host [0x48, 0x45, 0x4C, 0x4C, 0x4F] = .error .notAMessage := by
  decide

/-- A table word placed by `withFetchWord` is what the next step runs. -/
theorem test_fetch_word :
    (landed (step (State.reset.withFetchWord 64 0x43414E5F53454E44))).map (fun t => (t.state, t.txq)) =
      some (.receiving, [0x59, 0x45, 0x53, 0x0A]) ∧
    (landed (step ((host (.handshake 1) []).withFetchWord 32 0x42555359))).map (fun t => t.client.phase) =
      some (.backoff 1) := by
  decide

/-! ### The line layer -/

/-- L2, L5, L6, L7, L9. -/
theorem test_lines :
    splitLine [0x31, 0x62] = none ∧ splitLine [0x31, 0x62, 0x0A, 0x65, 0x34] = some ([0x31, 0x62], [0x65, 0x34]) ∧
    trim [0x20, 0x20, 0x43, 0x41, 0x0D] = [0x43, 0x41] ∧ trim [0x20, 0x09, 0x0D] = [] ∧
    trim [0x31, 0x62, 0x20, 0x65, 0x34] = [0x31, 0x62, 0x20, 0x65, 0x34] := by
  decide

/-! ### Unit FC -/

/-- Q1, Q3, Q4, Q6, Q7, Q9, Q10, Q13. -/
theorem test_fc_quant :
    [0, 63, 64, 127, 128, 191, 192, 255].map (fun v => (landed (exec (.fcQuant v) State.reset)).map (·.port)) =
      [0, 0, 1, 1, 2, 2, 3, 3].map (fun l => some (.level l)) := by
  decide

/-- The other boundary reading that D8 rejects: Q4, Q7, Q10 fall one level. -/
theorem test_fc_quant_lower :
    [64, 128, 192, 65].map (fcQuant { small with qUpper := false }) = [0, 1, 2, 1] := by
  decide

/-- K3, K5, K10 in the default order. -/
theorem test_fc_pack :
    (landed (exec (.fcPack 0 1 2 3) State.reset)).map (·.port) = some (.byte 0x1B) ∧
    (landed (exec (.fcPack 1 0 0 0) State.reset)).map (·.port) = some (.byte 0x40) ∧
    (landed (exec (.fcPack 2 0 1 3) State.reset)).map (·.port) = some (.byte 0x87) := by
  decide

/-- K3, K10 in the reversed order. -/
theorem test_fc_pack_reversed :
    fcPack Config.packPosReversed 0 1 2 3 = 0xE4 ∧ fcPack Config.packPosReversed 2 0 1 3 = 0xD2 := by
  decide

/-- The small instance of section 2, in both orders. -/
theorem test_fc_encode :
    (landed (exec (.fcEncode raster) (dev .waitQuery))).map (·.port) =
      some (.bytes [0x05, 0xAF, 0xFA, 0x50, 0x1B, 0xE4, 0x55, 0xFF]) ∧
    fcEncode { small with packPos := Config.packPosReversed } raster =
      .ok [0x50, 0xFA, 0xAF, 0x05, 0xE4, 0x1B, 0x55, 0xFF] := by
  decide

/-- E7: a 3 by 1 raster. -/
theorem test_fc_encode_mismatch :
    (landed (exec (.fcEncode { width := 3, height := 1, rows := [[1, 2, 3]] }) (dev .waitQuery))).map (·.port) =
      some .sizeMismatch := by
  decide

/-! ### Unit HX -/

/-- X2, X3, X5. -/
theorem test_hx_enc_byte :
    (landed (exec (.hxEncByte 0x0F) State.reset)).map (·.port) = some (.bytes [0x30, 0x66]) ∧
    (landed (exec (.hxEncByte 0xF0) State.reset)).map (·.port) = some (.bytes [0x66, 0x30]) ∧
    (landed (exec (.hxEncByte 0xA5) State.reset)).map (·.port) = some (.bytes [0x61, 0x35]) := by
  decide

/-- X8, X7. -/
theorem test_hx_encode :
    (landed (exec (.hxEncode [0x00, 0x0F, 0xA5, 0xFF, 0x1B, 0xE4]) State.reset)).map (·.port) =
      some (.bytes [0x30, 0x30, 0x30, 0x66, 0x61, 0x35, 0x66, 0x66, 0x31, 0x62, 0x65, 0x34]) ∧
    (landed (exec (.hxEncode []) State.reset)).map (·.port) = some (.bytes []) := by
  decide

/-- Y3 (`Ff`), Y14 (`-1`), and `Ff` where upper case is not accepted (D12). -/
theorem test_hx_dec_pair :
    (landed (exec (.hxDecPair 0x46 0x66) State.reset)).map (·.port) = some (.byte 0xFF) ∧
    (landed (exec (.hxDecPair 0x2D 0x31) State.reset)).map (·.port) = some .invalidHex ∧
    hxDecPair false 0x46 0x66 = .error .invalidHex := by
  decide

/-- Y6 (`1BE4`), Y7 (empty), Y8 (`abc`), Y9 (`0g`), Y11 (two spaces). -/
theorem test_hx_decode :
    [[0x31, 0x42, 0x45, 0x34], [], [0x61, 0x62, 0x63], [0x30, 0x67], [0x31, 0x62, 0x20, 0x20, 0x65, 0x34]].map
      (fun t => (landed (exec (.hxDecode t) State.reset)).map (·.port)) =
      [some (.bytes [0x1B, 0xE4]), some (.bytes []), some .invalidHex, some .invalidHex, some .invalidHex] := by
  decide

/-! ### Boot -/

/-- T1, T2. -/
theorem test_bt_alloc :
    (landed (exec (.btAlloc .fail) State.reset)).map (fun t => (t.state, t.fbValid, t.txq)) =
      some (.boot, false, [0x45, 0x52, 0x52, 0x5F, 0x4D, 0x45, 0x4D, 0x0A]) ∧
    (landed (exec (.btAlloc .ok) State.reset)).map (fun t => (t.state, t.fbValid, t.txq)) = some (.boot, true, []) := by
  decide

/-- T3. -/
theorem test_bt_leave :
    (landed (exec .btLeave { dev .boot with tcnt := 2, ind := true })).map (fun t => (t.state, t.tcnt, t.ind)) =
      some (.signalReady, 0, false) := by
  decide

/-- T4, and the guard at N_TOGGLE. -/
theorem test_sr_toggle :
    (landed (exec .srToggle (dev .signalReady))).map (fun t => (t.state, t.tcnt, t.ind)) =
      some (.signalReady, 1, true) ∧
    stopped (exec .srToggle { dev .signalReady with tcnt := 2 }) = some (.inr .notEnabled) := by
  decide

/-- T5, T5b. -/
theorem test_sr_done :
    (landed (exec .srDone { dev .signalReady with tcnt := 2, ind := true })).map (fun t => (t.state, t.ind)) =
      some (.waitQuery, false) ∧
    (landed (step { dev .signalReady with cfg := { small with nToggle := 0 } })).map (·.state) = some .waitQuery ∧
    stopped (step { dev .signalReady with tcnt := 3 }) = some (.inr .noOperation) := by
  decide

/-! ### WaitQuery -/

/-- T6: `CAN_` without an EOL stays. -/
theorem test_wq_idle :
    (landed (step { dev .waitQuery with rxq := [0x43, 0x41, 0x4E, 0x5F] })).map (fun t => (t.state, t.rxq)) =
      some (.waitQuery, [0x43, 0x41, 0x4E, 0x5F]) := by
  decide

/-- T7, on the wire of L4. -/
theorem test_wq_blank :
    (landed (exec .wqBlank (query [0x20, 0x09, 0x0D]))).map (fun t => (t.state, t.rxq, t.txq)) =
      some (.waitQuery, [], []) := by
  decide

/-- T8, on the wire of T10c. -/
theorem test_wq_can_send :
    (landed (step { query ([0x20, 0x20] ++ litCanSend ++ [0x0D]) with pos := 5 })).map
      (fun t => (t.state, t.busy, t.pos, t.rxq, t.txq)) =
      some (.receiving, true, 0, [], [0x59, 0x45, 0x53, 0x0A]) := by
  decide

/-- T9. -/
theorem test_wq_can_send_busy :
    (landed (step { query litCanSend with busy := true })).map (fun t => (t.state, t.busy, t.rxq, t.txq)) =
      some (.waitQuery, true, [], [0x42, 0x55, 0x53, 0x59, 0x0A]) := by
  decide

/-- T10, T10d. -/
theorem test_wq_other :
    (landed (step (query [0x31, 0x62, 0x65, 0x34]))).map (fun t => (t.state, t.rxq, t.txq, t.fb.isEmpty)) =
      some (.waitQuery, [], [], true) ∧
    stopped (step (query (List.replicate 19 0x41))) = some (.inl .lineTooLong) := by
  decide

/-! ### Receiving -/

/-- T11. -/
theorem test_rx_idle :
    (landed (step { session 3 [] with rxq := [0x31, 0x62] })).map (fun t => (t.state, t.pos, t.rxq)) =
      some (.receiving, 3, [0x31, 0x62]) := by
  decide

/-- T11b. -/
theorem test_rx_blank :
    (landed (step (session 4 []))).map (fun t => (t.state, t.pos, t.rxq, t.txq)) = some (.receiving, 4, [], []) := by
  decide

/-- T12, and P6's `1234` at POS = 3 (no alignment, R56). -/
theorem test_rx_chunk :
    (landed (step (session 0 [0x31, 0x62, 0x65, 0x34]))).map (fun t => (t.pos, t.fb, t.txq)) =
      some (2, [(0, 0x1B), (1, 0xE4)], [0x4F, 0x4B, 0x0A]) ∧
    (landed (step (session 3 [0x31, 0x32, 0x33, 0x34]))).map (fun t => (t.pos, t.fb)) =
      some (5, [(3, 0x12), (4, 0x34)]) := by
  decide

/-- T14b: one byte at FRAME_SIZE - 1; P5's frame of eight bytes at once. -/
theorem test_rx_chunk_last :
    (landed (step (session 7 [0x37, 0x65]))).map (fun t => (t.state, t.rphase, t.busy, t.pos, t.txq)) =
      some (.refresh, .init, true, 8, [0x4F, 0x4B, 0x0A]) ∧
    (landed (step (session 0 (hxEncode [1, 2, 3, 4, 5, 6, 7, 8])))).map (fun t => (t.state, t.pos, t.fb.read 7)) =
      some (.refresh, 8, some 8) := by
  decide

/-- T15, T15c. -/
theorem test_rx_bad_hex :
    (landed (step (session 3 litCanSend))).map (fun t => (t.state, t.busy, t.pos, t.txq)) =
      some (.waitQuery, false, 3, [0x45, 0x52, 0x52, 0x3A, 0x49, 0x4E, 0x56, 0x41, 0x4C, 0x49, 0x44, 0x5F, 0x48, 0x45,
        0x58, 0x0A]) ∧
    (landed (step (session 7 [0x61, 0x62, 0x63]))).map (fun t => (t.state, t.pos)) = some (.waitQuery, 7) := by
  decide

/-- T13b, and P7's `55667788` at POS = 5: no byte of it is stored. -/
theorem test_rx_overflow :
    (landed (step (session 7 [0x30, 0x30, 0x30, 0x30]))).map (fun t => (t.state, t.busy, t.pos, t.txq)) =
      some (.waitQuery, false, 7, [0x45, 0x52, 0x52, 0x3A, 0x4F, 0x56, 0x45, 0x52, 0x46, 0x4C, 0x4F, 0x57, 0x0A]) ∧
    (landed (step (session 5 (hxEncode [0x55, 0x66, 0x77, 0x88])))).map (fun t => (t.pos, t.fb)) = some (5, []) := by
  decide

/-! ### Refresh and Fatal -/

/-- T16, T16b, with a named and an unnamed token. -/
theorem test_rf_init :
    (landed (exec (.rfInit .ok) (refreshing .init))).map (fun t => (t.state, t.rphase, t.txq)) =
      some (.refresh, .display, []) ∧
    (landed (exec (.rfInit (.fail 1)) (refreshing .init))).map (fun t => (t.state, t.busy, t.drvCalls, t.txq)) =
      some (.waitQuery, false, [.init], [0x45, 0x52, 0x52, 0x5F, 0x44, 0x49, 0x53, 0x50, 0x3A, 0x44, 0x49, 0x53, 0x50,
        0x4C, 0x41, 0x59, 0x0A]) ∧
    (landed (exec (.rfInit (.fail 7)) (refreshing .init))).map (·.txq) =
      some [0x45, 0x52, 0x52, 0x5F, 0x44, 0x49, 0x53, 0x50, 0x3A, 0x46, 0x0A] := by
  decide

/-- T17: the driver is handed FB[0..8), a byte nothing has written as no value; T17b. -/
theorem test_rf_display :
    (landed (exec (.rfDisplay .ok) { refreshing .display with fb := [(0, 0x1B), (7, 0xFF)] })).map
      (fun t => (t.rphase, t.drvCalls)) =
      some (.sleep, [.display [some 0x1B, none, none, none, none, none, none, some 0xFF]]) ∧
    (landed (exec (.rfDisplay (.fail 0)) (refreshing .display))).map (fun t => (t.state, t.rphase, t.busy)) =
      some (.waitQuery, .display, false) := by
  decide

/-- R53: a load up to the end of `FB`, and one beyond it. -/
theorem test_mem_read :
    (dev .refresh).memRead 6 2 = .ok [none, none] ∧ (dev .refresh).memRead 7 2 = .error .memOutOfRange := by
  decide

/-- T18, T18b. -/
theorem test_rf_sleep :
    (landed (exec (.rfSleep .ok) (refreshing .sleep))).map (fun t => (t.state, t.busy, t.pos, t.txq)) =
      some (.waitQuery, false, 8, [0x44, 0x4F, 0x4E, 0x45, 0x0A]) ∧
    (landed (exec (.rfSleep (.fail 7)) (refreshing .sleep))).map (fun t => (t.state, t.txq)) =
      some (.waitQuery, [0x45, 0x52, 0x52, 0x5F, 0x44, 0x49, 0x53, 0x50, 0x3A, 0x46, 0x0A]) := by
  decide

/-- T18c: no line is read in `Refresh`. -/
theorem test_refresh_waits :
    (landed (step { refreshing .init with rxq := litCanSend ++ [0x0A] })).map (fun t => (t.state, t.rxq)) =
      some (.refresh, litCanSend ++ [0x0A]) := by
  decide

/-- T19. -/
theorem test_ft_enter :
    (landed (exec (.ftEnter 3) (session 0 []))).map (fun t => (t.state, t.busy, t.txq)) =
      some (.fatal, true, [0x46, 0x41, 0x54, 0x41, 0x4C, 0x3A, 0x55, 0x4E, 0x43, 0x4C, 0x41, 0x53, 0x53, 0x49, 0x46,
        0x49, 0x45, 0x44, 0x0A]) ∧
    stopped (exec (.ftEnter 3) (dev .fatal)) = some (.inr .notEnabled) := by
  decide

/-- T20. -/
theorem test_ft_blink :
    (landed (step { dev .fatal with rxq := litCanSend ++ [0x0A] })).map (fun t => (t.ind, t.rxq, t.txq)) =
      some (true, litCanSend ++ [0x0A], []) := by
  decide

/-! ### The host reads the messages -/

/-- The phase a host is left in by a message. -/
def after (i : Instr) (phase : ClientPhase) (line : Bytes) : Option ClientPhase :=
  (landed (exec i (host phase line))).map (fun t => t.client.phase)

/-- H1: the first line of eight characters is sent, two characters remain. -/
theorem test_msg_yes :
    (landed (exec .msgYes (host (.handshake 1) litYes))).map (fun t => (t.client.phase, t.rxq)) =
      some (.transmit 8 [0x30, 0x30], [0x31, 0x62, 0x65, 0x34, 0x30, 0x30, 0x30, 0x30, 0x0A]) := by
  decide

/-- H2. -/
theorem test_msg_busy : after .msgBusy (.handshake 3) litBusy = some (.backoff 3) := by
  decide

/-- H1: a chunk acknowledged, with more and with nothing to send. -/
theorem test_msg_ok :
    after .msgOk (.transmit 8 [0x30, 0x30]) litOk = some (.transmit 2 []) ∧
    after .msgOk (.transmit 2 []) litOk = some .complete := by
  decide

/-- H6. -/
theorem test_msg_err_overflow :
    after .msgErrOverflow (.transmit 8 []) litErrOverflow = some (.closed (.deviceError litErrOverflow)) := by
  decide

/-- H5. -/
theorem test_msg_err :
    after (.msgErr [0x41]) (.handshake 1) (litErr ++ [0x41]) = some (.closed (.deviceError (litErr ++ [0x41]))) := by
  decide

/-- H7: the canonical host keeps waiting; R207: the text is surfaced, and a `FATAL:` line is none that R207 names. -/
theorem test_msg_err_disp :
    after (.msgErrDisp [0x41]) .complete (litErrDisp ++ [0x41]) = some .complete ∧
    (landed (exec (.msgErrDisp [0x41]) (host .complete (litErrDisp ++ [0x41])))).map (fun t => t.client.surfaced) =
      some [[0x45, 0x52, 0x52, 0x5F, 0x44, 0x49, 0x53, 0x50, 0x3A, 0x41]] ∧
    (landed (exec (.msgFatal [0x41]) (host .complete (litFatal ++ [0x41])))).map (fun t => t.client.surfaced) =
      some [] := by
  decide

theorem test_msg_err_mem :
    after .msgErrMem (.handshake 1) litErrMem = some (.closed (.protocolError litErrMem)) := by
  decide

/-- H1. -/
theorem test_msg_done : after .msgDone .complete litDone = some (.closed .success) := by
  decide

theorem test_msg_fatal :
    after (.msgFatal [0x41]) (.transmit 8 []) (litFatal ++ [0x41]) =
      some (.closed (.protocolError (litFatal ++ [0x41]))) := by
  decide

theorem test_msg_ready :
    after .msgReady (.handshake 1) litReady = some (.closed (.protocolError litReady)) := by
  decide

/-- H2 after the fifth `BUSY`, H3, H4 after the fifth attempt, H8. -/
theorem test_host_events :
    (landed (step { host (.backoff 5) [] with env := [.hostWake] })).map (fun t => t.client.phase) =
      some (.closed .busyRetryExhausted) ∧
    (landed (step { host (.transmit 8 []) [] with env := [.hostTimeout] })).map (fun t => t.client.phase) =
      some (.closed .hostTimeout) ∧
    (landed (step { host (.handshake 5) [] with env := [.hostTimeout] })).map (fun t => t.client.phase) =
      some (.closed .hostTimeout) ∧
    (landed (step { host (.handshake 1) [0x48, 0x45] with env := [.hostRead] })).map (fun t => t.client.phase) =
      some (.closed (.protocolError [0x48, 0x45])) := by
  decide

/-- R214: a raster handed to an idle host starts an attempt with its encoding. -/
theorem test_host_raster :
    (landed (step { dev .waitQuery with env := [.hostOpenRaster raster] })).map
      (fun t => (t.client.phase, t.client.payload, t.rxq)) =
      some (.handshake 1, [0x05, 0xAF, 0xFA, 0x50, 0x1B, 0xE4, 0x55, 0xFF], litCanSend ++ [0x0A]) := by
  decide

/-! ### Witnesses: what meets the hypotheses of each statement, every clause at a boundary of its range -/

theorem witness_QuantLevelIsTopTwoBits :
    State.reset.cfg.t1 = 64 ∧ State.reset.cfg.t2 = 128 ∧ State.reset.cfg.t3 = 192 ∧ State.reset.cfg.qUpper = true := by
  decide

theorem witness_QuantIsMonotonic :
    (dev .boot).cfg.wf = true ∧ (63 : Byte).toNat ≤ (64 : Byte).toNat ∧ (255 : Byte).toNat ≤ (255 : Byte).toNat := by
  decide

theorem witness_PackIsBijection : Config.packPos.wf = true ∧ Config.packPosReversed.wf = true := by
  decide

theorem witness_EncodePacksRowMajorRuns :
    (dev .boot).cfg.ppb = 4 ∧ raster.wf = true ∧ raster.width * raster.height = 4 * (dev .boot).cfg.frameSize := by
  decide

theorem witness_EncodeSizeMismatch :
    ({ raster with height := 3 } : Raster).width * ({ raster with height := 3 } : Raster).height ≠
      (dev .boot).cfg.ppb * (dev .boot).cfg.frameSize := by
  decide

/-- Odd length, a character that is no digit, and neither (the empty text, `1bE4`). -/
theorem witness_DecodeByTable :
    [0x61, 0x62, 0x63].length % 2 = 1 ∧ digitValue true 0x67 = none ∧ digitValue false 0x46 = none ∧
    ([] : Bytes).length % 2 = 0 ∧ ∀ ch ∈ ([0x31, 0x62, 0x45, 0x34] : Bytes), digitValue true ch ≠ none := by
  decide

theorem witness_HexRoundTrip :
    hxDecode true [0x31, 0x42, 0x45, 0x34] = .ok [0x1B, 0xE4] ∧ hxDecode false [0x66, 0x66] = .ok [0xFF] ∧
    hxDecode false [] = .ok [] := by
  decide

theorem witness_ResetEventClearsBlock : ({ session 3 [] with env := [.reset] } : State).env = .reset :: [] := rfl

theorem witness_AllocAnswered : State.reset.state = .boot ∧ State.reset.fbValid = false := by
  decide

theorem witness_BootLeaves : (dev .boot).state = .boot ∧ (dev .boot).fbValid = true := by
  decide

/-- The first and the last toggle. -/
theorem witness_IndicatorToggles :
    (dev .signalReady).state = .signalReady ∧ (dev .signalReady).tcnt < (dev .signalReady).cfg.nToggle ∧
    ({ dev .signalReady with tcnt := 1 } : State).tcnt < (dev .signalReady).cfg.nToggle := by
  decide

theorem witness_SignalReadyEnds :
    ({ dev .signalReady with tcnt := 2 } : State).state = .signalReady ∧
    ({ dev .signalReady with tcnt := 2 } : State).tcnt = (dev .signalReady).cfg.nToggle := by
  decide

theorem witness_BootReachesWaitQuery :
    (dev .boot).state = .boot ∧ (dev .boot).fbValid = true ∧ (dev .boot).env = [] := by
  decide

theorem witness_IdlePollsChangeNothing :
    splitLine (dev .waitQuery).rxq = none ∧ (dev .waitQuery).state = .waitQuery ∧
    splitLine { dev .receiving with rxq := [0x31] : State }.rxq = none ∧ (dev .receiving).state = .receiving := by
  decide

/-- No byte, each byte of `WS`, and the longest line of them and beyond; then `A B` between bytes of `WS`, one byte alone,
and LINE_MAX of them. -/
theorem witness_BlankLinesConsumed :
    (∀ raw ∈ [[], [0x20, 0x09, 0x0D], List.replicate 20 (0x20 : Byte)],
      (query raw).rxq = raw ++ [0x0A] ++ [] ∧ (query raw).state = .waitQuery ∧
      (session 4 raw).rxq = raw ++ [0x0A] ++ [] ∧ (session 4 raw).state = .receiving ∧
      ∀ b ∈ raw, b ∈ ([0x20, 0x09, 0x0D] : Bytes)) ∧
    ∀ e ∈ [([0x20, 0x09], [0x41, 0x20, 0x42], [0x0D]), ([], [0x41], []), ([], List.replicate 18 0x41, [0x20])],
      (query (e.1 ++ e.2.1 ++ e.2.2)).rxq = e.1 ++ e.2.1 ++ e.2.2 ++ [0x0A] ++ [] ∧
      (∀ b ∈ e.1 ++ e.2.2, b ∈ ([0x20, 0x09, 0x0D] : Bytes)) ∧ 0x0A ∉ e.2.1 ∧ e.2.1.head? = some 0x41 ∧
      (e.2.1.getLast? = some 0x41 ∨ e.2.1.getLast? = some 0x42) ∧ (0x41 : Byte) ∉ ([0x20, 0x09, 0x0D] : Bytes) ∧
      (0x42 : Byte) ∉ ([0x20, 0x09, 0x0D] : Bytes) ∧ e.2.1.length ≤ small.lineMax ∧ e.2.1 ≠ litCanSend := by
  decide

theorem witness_HandshakeGranted :
    (query litCanSend).state = .waitQuery ∧ (query litCanSend).busy = false ∧ (query litCanSend).Line litCanSend [] :=
  ⟨rfl, rfl, litCanSend, by decide, by decide, by decide⟩

theorem witness_HandshakeRefused :
    ∃ s : State, s.state = .waitQuery ∧ s.busy = true ∧ s.Line litCanSend [] :=
  ⟨{ query litCanSend with busy := true }, rfl, rfl, litCanSend, by decide, by decide, by decide⟩

/-- One byte, and LINE_MAX of them. -/
theorem witness_OtherLinesIgnored :
    ((query [0x41]).state = .waitQuery ∧ (query [0x41]).Line [0x41] []) ∧
    (query (List.replicate 18 0x41)).Line (List.replicate 18 0x41) [] ∧
    ([0x41] : Bytes) ≠ [] ∧ ([0x41] : Bytes) ≠ litCanSend :=
  ⟨⟨rfl, [0x41], by decide, by decide, by decide⟩, ⟨List.replicate 18 0x41, by decide, by decide, by decide⟩,
    by decide, by decide⟩

/-- One byte at the cursor 0, and a byte that leaves one byte free. -/
theorem witness_ChunkStored :
    ((session 0 [0x37, 0x65]).Line [0x37, 0x65] [] ∧ (session 6 [0x37, 0x65]).Line [0x37, 0x65] []) ∧
    (session 0 [0x37, 0x65]).state = .receiving ∧ small.frameSize < 2 ^ 17 ∧
    hxDecode small.hexUpperOk [0x37, 0x65] = .ok [0x7E] ∧
    (session 0 [0x37, 0x65]).pos.toNat + [(0x7E : Byte)].length < small.frameSize ∧
    (session 6 [0x37, 0x65]).pos.toNat + [(0x7E : Byte)].length < small.frameSize :=
  ⟨⟨⟨[0x37, 0x65], by decide, by decide, by decide⟩, ⟨[0x37, 0x65], by decide, by decide, by decide⟩⟩, by decide⟩

/-- The last byte alone, and the whole frame at once. -/
theorem witness_LastChunkStartsRefresh :
    ((session 7 [0x37, 0x65]).Line [0x37, 0x65] [] ∧
      (session 0 (List.replicate 16 0x30)).Line (List.replicate 16 0x30) []) ∧
    (session 7 [0x37, 0x65]).state = .receiving ∧
    hxDecode small.hexUpperOk [0x37, 0x65] = .ok [0x7E] ∧
    (session 7 [0x37, 0x65]).pos.toNat + [(0x7E : Byte)].length = small.frameSize ∧
    hxDecode small.hexUpperOk (List.replicate 16 0x30) = .ok (List.replicate 8 0) ∧
    (session 0 []).pos.toNat + (List.replicate 8 (0 : Byte)).length = small.frameSize :=
  ⟨⟨⟨[0x37, 0x65], by decide, by decide, by decide⟩,
    ⟨List.replicate 16 0x30, by decide, by decide, by decide⟩⟩, by decide⟩

theorem witness_BadHexAborts :
    (session 3 litCanSend).Line litCanSend [] ∧ (session 3 litCanSend).state = .receiving ∧ litCanSend ≠ [] ∧
    hxDecode small.hexUpperOk litCanSend = .error .invalidHex :=
  ⟨⟨litCanSend, by decide, by decide, by decide⟩, by decide⟩

/-- One byte at the end, and nine bytes at the cursor 0: the longest line. -/
theorem witness_OverflowAborts :
    ((session 8 [0x37, 0x65]).Line [0x37, 0x65] [] ∧
      (session 0 (List.replicate 18 0x30)).Line (List.replicate 18 0x30) []) ∧
    (session 8 [0x37, 0x65]).state = .receiving ∧
    hxDecode small.hexUpperOk [0x37, 0x65] = .ok [0x7E] ∧
    small.frameSize < (session 8 [0x37, 0x65]).pos.toNat + [(0x7E : Byte)].length ∧
    hxDecode small.hexUpperOk (List.replicate 18 0x30) = .ok (List.replicate 9 0) ∧
    small.frameSize < (session 0 []).pos.toNat + (List.replicate 9 (0 : Byte)).length :=
  ⟨⟨⟨[0x37, 0x65], by decide, by decide, by decide⟩,
    ⟨List.replicate 18 0x30, by decide, by decide, by decide⟩⟩, by decide⟩

/-- One byte over LINE_MAX, in either reading state. -/
theorem witness_OverlongLineRefused :
    splitLine (query (List.replicate 19 0x41)).rxq = some (List.replicate 19 0x41, []) ∧
    (query (List.replicate 19 0x41)).state = .waitQuery ∧ (query (List.replicate 19 0x41)).env = [] ∧
    splitLine (session 0 (List.replicate 19 0x41)).rxq = some (List.replicate 19 0x41, []) ∧
    (session 0 (List.replicate 19 0x41)).state = .receiving ∧ (session 0 (List.replicate 19 0x41)).env = [] ∧
    small.lineMax < (trim (List.replicate 19 0x41)).length := by
  decide

theorem witness_RefreshAdvances :
    (refreshing .init).state = .refresh ∧ (refreshing .init).rphase = .init ∧
    (refreshing .display).rphase = .display := by
  decide

theorem witness_SleepEndsSession : (refreshing .sleep).state = .refresh ∧ (refreshing .sleep).rphase = .sleep := by
  decide

theorem witness_DriverFailureEndsSession :
    (refreshing .init).state = .refresh ∧ (refreshing .init).rphase = .init ∧
    (refreshing .display).rphase = .display ∧ (refreshing .sleep).rphase = .sleep := by
  decide

theorem witness_FaultEntersFatal :
    (dev .boot).state ≠ .fatal ∧ (refreshing .sleep).state ≠ .fatal ∧ (dev .fatal).state = .fatal ∧
    Instr.ftBlink.isFunc = false ∧ Instr.ftBlink.isMessage = false ∧ ∃ t, exec .ftBlink (dev .fatal) = .next t :=
  ⟨by decide, by decide, rfl, rfl, rfl, _, rfl⟩

theorem witness_FatalBlinks : (dev .fatal).state = .fatal := rfl

/-- A line of each message row; a `FATAL:` line whose reason holds `ERR`, and one whose reason does not. -/
def messageLines : List Bytes :=
  [litYes, litBusy, litErr ++ [0x41], litErrOverflow, litOk, litErrDisp ++ [0x41], litErrMem, litDone,
    litFatal ++ [0x41], litFatal ++ litErrText, litReady]

theorem reply_waits (phase : ClientPhase) {c : Bytes} (h : c ∈ messageLines) : (host phase c).Reply c [] := by
  have both : ∀ c ∈ messageLines, splitLine (c ++ [0x0A]) = some (c, []) ∧ trim c = c := by decide
  exact ⟨c, both c h⟩

/-- Every clause has its line; the first and the last attempt. -/
theorem witness_HandshakeReplies : ∀ c ∈ messageLines, ∀ k ∈ [1, 5],
    (host (.handshake k) c).Reply c [] ∧ (host (.handshake k) c).client.phase = .handshake k :=
  fun _ hc k _ => ⟨reply_waits (.handshake k) hc, rfl⟩

/-- Every clause has its line; more to send and nothing to send; both arms of the `FATAL:` clause. -/
theorem witness_ChunkReplies : (∀ c ∈ messageLines, ∀ text ∈ [[], [(0x30 : Byte)]],
    (host (.transmit 8 text) c).Reply c [] ∧ (host (.transmit 8 text) c).client.phase = .transmit 8 text) ∧
    litErrText <:+: litErrText ∧ ¬ litErrText <:+: [0x41] :=
  ⟨fun _ hc text _ => ⟨reply_waits (.transmit 8 text) hc, rfl⟩, ⟨[], [], rfl⟩, by decide⟩

theorem witness_CompletionReplies : ∀ c ∈ messageLines,
    (host .complete c).Reply c [] ∧ (host .complete c).client.phase = .complete :=
  fun _ hc => ⟨reply_waits .complete hc, rfl⟩

/-- A host in a phase, an event of its own next. -/
def hostAt (phase : ClientPhase) (e : EnvEvent) : State := { host phase [] with env := [e] }

/-- Each event with the phase of its clause, at the last attempt that goes on and the first that does not. -/
theorem witness_HostEvents : 0 < small.nHandshake ∧ 4 < small.nHandshake ∧ small.nHandshake ≤ 5 ∧
    ∀ c ∈ [(ClientPhase.idle, EnvEvent.hostOpen [0x1B]), (.closed .success, .hostOpen []),
        (.handshake 4, .hostTimeout), (.handshake 5, .hostTimeout), (.transmit 8 [], .hostTimeout),
        (.complete, .hostTimeout), (.backoff 4, .hostWake), (.backoff 5, .hostWake),
        (.handshake 1, .hostAbandon), (.backoff 1, .hostAbandon), (.transmit 8 [], .hostAbandon),
        (.complete, .hostAbandon)],
      (hostAt c.1 c.2).client.phase = c.1 ∧ (hostAt c.1 c.2).env = c.2 :: [] ∧ (hostAt c.1 c.2).cfg = small :=
  ⟨by decide, by decide, by decide, fun _ _ => ⟨rfl, rfl, rfl⟩⟩

/-- `HELLO` (H8), and a reply that is no message but holds `ERR`, in every phase that the statement names. -/
theorem witness_UnknownReplies : ∀ c ∈ [[0x48, 0x45, 0x4C, 0x4C, 0x4F], litErrText],
    decode small .host c = .error .notAMessage ∧ splitLine (c ++ [0x0A]) = some (c, []) ∧ trim c = c ∧
    (hasText litErrText c = true ↔ c = litErrText) ∧
    ∀ ph ∈ [ClientPhase.handshake 1, .transmit 8 [], .complete, .idle, .closed .success],
      ({ hostAt ph .hostRead with txq := c ++ [0x0A] } : State).client.phase = ph ∧
      ({ hostAt ph .hostRead with txq := c ++ [0x0A] } : State).env = .hostRead :: [] := by
  decide

/-- The raster of the small instance, and one of the wrong size, before the first attempt and after one. -/
theorem witness_RasterStartsAttempt : 0 < small.nHandshake ∧
    ({ raster with height := 3 } : Raster).width * ({ raster with height := 3 } : Raster).height ≠
      small.ppb * small.frameSize ∧
    ∀ ph ∈ [ClientPhase.idle, .closed .success],
      (hostAt ph (.hostOpenRaster raster)).env = .hostOpenRaster raster :: [] ∧
      (hostAt ph (.hostOpenRaster raster)).client.phase = ph ∧
      (landed (exec (.fcEncode raster) (hostAt ph (.hostOpenRaster raster)))).map (·.port) =
        some (.bytes [0x05, 0xAF, 0xFA, 0x50, 0x1B, 0xE4, 0x55, 0xFF]) := by
  decide

/-- No byte and several; an empty `TXQ` and a line without its EOL; a sleeping host; a message and another line. -/
theorem witness_HostLinkEvents :
    (∀ bs ∈ [[], [(0x41 : Byte), 0x0A]], ({ dev .fatal with env := [.hostBytes bs] } : State).env = .hostBytes bs :: []) ∧
    (∀ q ∈ [[], litDone], ({ hostAt .complete .hostRead with txq := q } : State).env = .hostRead :: [] ∧
      0x0A ∉ ({ hostAt .complete .hostRead with txq := q } : State).txq) ∧
    (hostAt (.backoff 1) .hostRead).client.phase = .backoff 1 ∧
    ∀ c ∈ [litDone, [0x48, 0x45, 0x4C, 0x4C, 0x4F]], ∀ ph ∈ [ClientPhase.idle, .closed .success],
      ({ hostAt ph .hostRead with txq := c ++ [0x0A] } : State).env = .hostRead :: [] ∧
      ({ hostAt ph .hostRead with txq := c ++ [0x0A] } : State).client.phase = ph ∧
      splitLine ({ hostAt ph .hostRead with txq := c ++ [0x0A] } : State).txq = some (c, []) ∧ trim c = c := by
  decide

/-- A granted attempt: the host reads `YES` and then `n` times `OK`. -/
def granted (p : Bytes) (n : Nat) : State :=
  { host (.handshake 1) litYes with
    txq := litYes ++ [0x0A] ++ (List.range n).flatMap (fun _ => litOk ++ [0x0A]) ++ []
    client := { (host (.handshake 1) litYes).client with payload := p }
    env := List.replicate (n + 1) .hostRead ++ [] }

/-- No payload, one byte, one line exactly, one byte more, two lines: the lines there are, and that they are sent. -/
theorem witness_ChunkLinesCoverPayload : (0 : Nat) < small.chunkRaw ∧ 4 = small.chunkRaw ∧
    ∀ e ∈ [(0, 0), (1, 1), (4, 1), (5, 2), (8, 2)],
      e.2 = ((List.replicate e.1 (0x1B : Byte)).length + 4 - 1) / 4 ∧
      (granted (List.replicate e.1 0x1B) e.2).client.phase = .handshake 1 ∧
      (landed (core.run (e.2 + 1) (granted (List.replicate e.1 0x1B) e.2))).map (fun t => t.client.phase) =
        some .complete := by
  decide

/-- One instruction of every row that has an encoding, with a reader of it; the chunk rows where they meet. -/
def encodedRows : List (Instr × Reader) :=
  [(.wqBlank, .device .waitQuery false 0), (.wqCanSend, .device .waitQuery false 0),
    (.wqCanSendBusy, .device .waitQuery true 0), (.wqOther [0x41], .device .waitQuery false 0),
    (.rxBlank, .device .receiving true 0), (.rxChunk [0x7E], .device .receiving true 6),
    (.rxChunkLast [0x7E], .device .receiving true 7), (.rxOverflow [0x7E], .device .receiving true 8),
    (.rxBadHex [0x67], .device .receiving true 0), (.msgYes, .host), (.msgBusy, .host), (.msgOk, .host),
    (.msgErrOverflow, .host), (.msgErr [0x41], .host), (.msgErrDisp [0x41], .host), (.msgErrMem, .host),
    (.msgDone, .host), (.msgFatal [0x41], .host), (.msgReady, .host)]

theorem witness_DecodeEncodeRoundTrip : small.wf = true ∧ ∀ e ∈ encodedRows,
    e.1.wf small = true ∧ e.1.readBy small e.2 = true ∧ (encode e.1).isSome = true := by
  decide

/-- Upper-case data: the encoding is the line in lower case. -/
theorem witness_EncodeDecodeRoundTrip :
    decode small (.device .receiving true 0) [0x37, 0x45] = .ok (.rxChunk [0x7E]) ∧
    decode small .host litErrOverflow = .ok .msgErrOverflow := by
  decide

/-- Each reading state with nothing from the environment and with the device's turn given, and the host's turn. -/
theorem witness_StepRunsDecodedLine :
    (∀ env ∈ [[], [EnvEvent.dts]],
      (({ query litCanSend with env := env } : State).state = .waitQuery ∧
        ({ query litCanSend with env := env } : State).env = env ∧
        splitLine ({ query litCanSend with env := env } : State).rxq = some (litCanSend, []) ∧
        decode small (.device .waitQuery false 0) (trim litCanSend) = .ok .wqCanSend) ∧
      ({ session 0 [0x37, 0x65] with env := env } : State).state = .receiving ∧
        ({ session 0 [0x37, 0x65] with env := env } : State).env = env ∧
        splitLine ({ session 0 [0x37, 0x65] with env := env } : State).rxq = some ([0x37, 0x65], []) ∧
        decode small (.device .receiving true 0) (trim [0x37, 0x65]) = .ok (.rxChunk [0x7E])) ∧
    splitLine ({ host .complete litDone with env := [.hostRead] } : State).txq = some (litDone, []) ∧
    decode small .host (trim litDone) = .ok .msgDone ∧
    ({ host .complete litDone with env := [.hostRead] } : State).client.phase = .complete ∧
    ({ host .complete litDone with env := [.hostRead] } : State).env = .hostRead :: [] := by
  decide

theorem witness_StepRunsStateOperation :
    (∀ st, (dev st).env = [] ∧ (dev st).state = st ∧ (dev st).fbValid = true ∧ splitLine (dev st).rxq = none) ∧
    (dev .signalReady).tcnt < small.nToggle ∧ ({ dev .signalReady with tcnt := 2 } : State).tcnt = small.nToggle ∧
    State.reset.AwaitsAnswer ∧ (refreshing .init).AwaitsAnswer :=
  ⟨fun st => by cases st <;> decide, by decide, rfl, .inl ⟨rfl, rfl⟩, .inr rfl⟩

/-- Each event with the registers of its clause. -/
theorem witness_StepRunsEvents :
    (∀ e ∈ [EnvEvent.alloc .ok, .alloc .fail],
      ({ State.reset with env := [e] } : State).env = e :: [] ∧ ({ State.reset with env := [e] } : State).state = .boot ∧
      ({ State.reset with env := [e] } : State).fbValid = false ∧
      ({ dev .waitQuery with env := [e] } : State).env = e :: [] ∧
      ({ dev .waitQuery with env := [e] } : State).state ≠ .boot ∧
      ({ dev .boot with env := [e] } : State).env = e :: [] ∧ ({ dev .boot with env := [e] } : State).fbValid = true) ∧
    (∀ call ∈ [RPhase.init, .display, .sleep],
      ({ refreshing call with env := [.driver call .ok] } : State).env = .driver call .ok :: [] ∧
      ({ refreshing call with env := [.driver call .ok] } : State).state = .refresh ∧
      ({ refreshing call with env := [.driver call .ok] } : State).rphase = call) ∧
    ({ refreshing .init with env := [.driver .sleep .ok] } : State).rphase ≠ .sleep ∧
    ({ dev .boot with env := [.driver .init .ok] } : State).state ≠ .refresh ∧
    ({ dev .fatal with env := [.ufault 1] } : State).state = .fatal ∧
    ({ dev .boot with env := [.ufault 1] } : State).env = .ufault 1 :: [] ∧
    ({ dev .boot with env := [.ufault 1] } : State).state ≠ .fatal ∧
    ({ dev .fatal with env := [.call (.fcQuant 0)] } : State).env = .call (.fcQuant 0) :: [] ∧
    (Instr.fcQuant 0).isFunc = true := by
  decide

/-- A store, a register operation, a message; the pieces each leaves. -/
theorem witness_InstructionFrame :
    (∃ t, exec .ftBlink (dev .fatal) = .next t) ∧ Field.fb ∉ writes .ftBlink ∧
    (∃ t, exec (.rxChunk [0x7E]) (session 0 [0x37, 0x65]) = .next t) ∧ Field.busy ∉ writes (.rxChunk [0x7E]) ∧
    (∃ t, exec .msgDone (host .complete litDone) = .next t) ∧ Field.state ∉ writes .msgDone :=
  ⟨⟨_, rfl⟩, by decide, ⟨_, rfl⟩, by decide, ⟨_, rfl⟩, by decide⟩

/-- Both stores, the allocation, and an instruction that stores nothing. -/
theorem witness_FramebufferWriters :
    (∃ t, exec (.rxChunk [0x7E]) (session 6 [0x37, 0x65]) = .next t) ∧
    (∃ t, exec (.rxChunkLast [0x7E]) (session 7 [0x37, 0x65]) = .next t) ∧
    (∃ t, exec (.btAlloc .ok) State.reset = .next t) ∧ ∃ t, exec (.btAlloc .fail) State.reset = .next t :=
  ⟨⟨_, rfl⟩, ⟨_, rfl⟩, ⟨_, rfl⟩, ⟨_, rfl⟩⟩

theorem witness_TransitionTable :
    (∃ t, exec (.rfInit (.fail 0)) (refreshing .init) = .next t) ∧ (Instr.rfInit (.fail 0)).isMessage = false ∧
    ∃ t, exec .msgOk (host (.transmit 8 []) litOk) = .next t :=
  ⟨⟨_, rfl⟩, rfl, ⟨_, rfl⟩⟩

/-- A device in a session with two accepted bytes. -/
def halfway : State :=
  { session 2 [0x37, 0x65] with
    fb := [(0, 0x1B), (1, 0xE4)]
    hist := [.received litCanSend, .sent litYes, .received [0x31, 0x62, 0x65, 0x34], .sent litOk]
    txq := litYes ++ [0x0A] ++ litOk ++ [0x0A] }

/-- A device that shows a complete frame. -/
def showing : State :=
  { refreshing .display with
    fb := Memory.cells 0 [0, 1, 2, 3, 4, 5, 6, 7]
    hist := [.sent litYes, .received (hxEncode [0, 1, 2, 3, 4, 5, 6, 7]), .sent litOk] }

theorem halfway_inv : halfway.Inv := by
  constructor <;> decide

theorem showing_inv : showing.Inv := by
  constructor <;> decide

theorem witness_StepKeepsInvariants : halfway.Inv ∧ ∃ t, step halfway = .next t := ⟨halfway_inv, _, rfl⟩

theorem witness_StepKeepsDeviceLines :
    halfway.cfg.wf = true ∧ halfway.TxLines ∧ ∃ t, step halfway = .next t :=
  ⟨by decide, ⟨[litYes, litOk], by decide, by decide⟩, _, rfl⟩

/-- Both outcomes of the first clause. -/
theorem witness_StepNeverStops :
    (halfway.Inv ∧ ∃ t, step halfway = .next t) ∧
    ({ halfway with rxq := List.replicate 19 0x41 ++ [0x0A] } : State).Inv ∧
    step { halfway with rxq := List.replicate 19 0x41 ++ [0x0A] } = .refused .lineTooLong :=
  ⟨⟨halfway_inv, _, rfl⟩, by constructor <;> decide, rfl⟩

/-- In a session, and in `WaitQuery` with `BUSY = 1` (T9). -/
theorem witness_NoYesWhileBusy :
    halfway.busy = true ∧ (∃ t, step halfway = .next t) ∧
    ({ query litCanSend with busy := true } : State).busy = true ∧
    ∃ t, step { query litCanSend with busy := true } = .next t :=
  ⟨rfl, ⟨_, rfl⟩, rfl, ⟨_, rfl⟩⟩

/-- Out of `Receiving` with an `ERR:` line and into `Refresh`, out of `Refresh`, and into `Fatal`. -/
theorem witness_LeavingSessionAnswers :
    small.wf = true ∧
    (landed (exec (.rxBadHex litCanSend) (session 3 litCanSend))).map (·.state) = some .waitQuery ∧
    (landed (exec (.rxChunkLast [0x7E]) (session 7 [0x37, 0x65]))).map (·.state) = some .refresh ∧
    (landed (exec (.rfSleep .ok) (refreshing .sleep))).map (·.state) = some .waitQuery ∧
    (landed (exec (.ftEnter 0) (session 3 []))).map (·.state) = some .fatal := by
  decide

/-- The device's own move, and bytes that arrive. -/
theorem witness_FatalIsTerminal :
    (dev .fatal).state = .fatal ∧ (dev .fatal).env.head? ≠ some .reset ∧ (∃ t, step (dev .fatal) = .next t) ∧
    ({ dev .fatal with env := [.hostBytes [1]] } : State).env.head? ≠ some .reset ∧
    ∃ t, step { dev .fatal with env := [.hostBytes [1]] } = .next t :=
  ⟨rfl, by decide, ⟨_, rfl⟩, by decide, ⟨_, rfl⟩⟩

theorem witness_RefreshIsExclusive :
    (refreshing .init).state = .refresh ∧ (refreshing .init).env.head? ≠ some .reset ∧
    (∃ t, step (refreshing .init) = .next t) ∧
    ({ refreshing .sleep with env := [.driver .sleep .ok] } : State).env.head? ≠ some .reset ∧
    ∃ t, step { refreshing .sleep with env := [.driver .sleep .ok] } = .next t :=
  ⟨rfl, by decide, ⟨_, rfl⟩, by decide, ⟨_, rfl⟩⟩

theorem witness_DisplayHandsWholeFrame : showing.Inv ∧ showing.state = .refresh ∧ showing.rphase = .display :=
  ⟨showing_inv, rfl, rfl⟩

/-- Two chunks of four bytes, as in program P2, and one of eight. -/
theorem witness_SessionDisplaysFrame : ∀ chunks ∈ [[[1, 2, 3, 4], [5, 6, 7, 8]], [List.replicate 8 (0 : Byte)]],
    ∃ s : State, s.cfg.wf = true ∧ s.state = .waitQuery ∧ s.busy = false ∧
      (∀ b ∈ chunks, 1 ≤ b.length ∧ 2 * b.length ≤ s.cfg.lineMax) ∧ chunks.flatten.length = s.cfg.frameSize ∧
      s.rxq = litCanSend ++ [0x0A] ++ chunkWire chunks ++ [] ∧
      s.env = List.replicate (chunks.length + 1) .dts ++
        [.driver .init .ok, .driver .display .ok, .driver .sleep .ok] ++ [] := by
  intro chunks h
  have hall : ∀ chunks ∈ [[[1, 2, 3, 4], [5, 6, 7, 8]], [List.replicate 8 (0 : Byte)]],
      (∀ b ∈ chunks, 1 ≤ b.length ∧ 2 * b.length ≤ small.lineMax) ∧ chunks.flatten.length = small.frameSize := by
    decide
  exact ⟨{ dev .waitQuery with
      rxq := litCanSend ++ [0x0A] ++ chunkWire chunks ++ []
      env := List.replicate (chunks.length + 1) .dts ++
        [.driver .init .ok, .driver .display .ok, .driver .sleep .ok] ++ [] },
    test_wf_params.1, rfl, rfl, (hall chunks h).1, (hall chunks h).2, rfl, rfl⟩

theorem witness_StalledSessionSuperseded :
    (session 3 (litCanSend ++ [0x0A] ++ litCanSend)).cfg.wf = true ∧
    (session 3 (litCanSend ++ [0x0A] ++ litCanSend)).state = .receiving ∧
    (session 3 (litCanSend ++ [0x0A] ++ litCanSend)).env = [] ∧
    (session 3 (litCanSend ++ [0x0A] ++ litCanSend)).rxq = litCanSend ++ [0x0A] ++ litCanSend ++ [0x0A] ++ [] := by
  decide

end Sys2Proof.Tests
end

section
/-! PROOFS. The frame of every instruction (spec/10_state.md R20, spec/42_transfer_server.md R182): what one step of the
device, of a function or of the host leaves unchanged. -/

namespace Sys2Proof.Machine

/-- Two states agree on every piece outside the list. -/
def State.ChangesOnly (fs : List Field) (s t : State) : Prop := ∀ f, f ∉ fs → f.same s t

/-- Agreement outside a list, piece by piece. -/
theorem State.changesOnly_iff {fs : List Field} {s t : State} : State.ChangesOnly fs s t ↔
    (.cfg ∉ fs → t.cfg = s.cfg) ∧ (.state ∉ fs → t.state = s.state) ∧ (.pos ∉ fs → t.pos = s.pos) ∧
    (.busy ∉ fs → t.busy = s.busy) ∧ (.fb ∉ fs → t.fb = s.fb) ∧ (.fbValid ∉ fs → t.fbValid = s.fbValid) ∧
    (.ind ∉ fs → t.ind = s.ind) ∧ (.tcnt ∉ fs → t.tcnt = s.tcnt) ∧ (.rphase ∉ fs → t.rphase = s.rphase) ∧
    (.rxq ∉ fs → t.rxq = s.rxq) ∧ (.txq ∉ fs → t.txq = s.txq) ∧ (.hist ∉ fs → t.hist = s.hist) ∧
    (.drvCalls ∉ fs → t.drvCalls = s.drvCalls) ∧ (.port ∉ fs → t.port = s.port) ∧
    (.client ∉ fs → t.client = s.client) ∧ (.env ∉ fs → t.env = s.env) := by
  constructor
  · intro h
    exact ⟨h .cfg, h .state, h .pos, h .busy, h .fb, h .fbValid, h .ind, h .tcnt, h .rphase, h .rxq, h .txq, h .hist,
      h .drvCalls, h .port, h .client, h .env⟩
  · rintro ⟨_, _, _, _, _, _, _, _, _, _, _, _, _, _, _, _⟩ f
    cases f <;> assumption

/-- FC and HX have no state (R120, R140): a function writes the function interface only. -/
theorem exec_func_changesOnly {i : Instr} {s t : State} (hi : i.isFunc = true) (h : exec i s = .next t) :
    State.ChangesOnly [.port] s t := by
  obtain ⟨r, hr⟩ := exec_func hi s
  cases hr.symm.trans h
  simp [State.changesOnly_iff]

/-- The host writes its own record and the two ends of the link that it holds (R215). -/
theorem exec_message_changesOnly {i : Instr} {s t : State} (hi : i.isMessage = true) (h : exec i s = .next t) :
    State.ChangesOnly [.txq, .rxq, .client] s t := by
  obtain ⟨c, -, hc⟩ := exec_message hi s
  rw [hc] at h
  obtain ⟨raw, rest, -, -, -, rfl⟩ := State.clientReceive_next h
  obtain ⟨out, cl, hr⟩ := State.clientReply_frame { s with txq := rest } c
  rw [hr]
  simp [State.changesOnly_iff]

/-- What an instruction does not write stays (R20, the column "written by"). -/
theorem exec_changesOnly_writes {i : Instr} {s t : State} (h : exec i s = .next t) :
    State.ChangesOnly (writes i) s t := by
  cases i with
  | fcQuant _ | fcPack _ _ _ _ | fcEncode _ | hxEncByte _ | hxEncode _ | hxDecPair _ _ | hxDecode _ =>
    exact exec_func_changesOnly rfl h
  | msgYes | msgBusy | msgOk | msgErrOverflow | msgErr _ | msgErrDisp _ | msgErrMem | msgDone | msgFatal _ | msgReady =>
    exact exec_message_changesOnly rfl h
  | btAlloc r =>
    obtain ⟨-, -, ⟨rfl, rfl⟩ | ⟨rfl, rfl⟩⟩ := execBtAlloc_next h
    · simp [State.changesOnly_iff, writes]
    · simp [State.changesOnly_iff, writes, State.raise]
  | btLeave =>
    obtain ⟨-, -, rfl⟩ := execBtLeave_next h
    simp [State.changesOnly_iff, writes]
  | srToggle =>
    obtain ⟨-, -, rfl⟩ := execSrToggle_next h
    simp [State.changesOnly_iff, writes]
  | srDone =>
    obtain ⟨-, -, rfl⟩ := execSrDone_next h
    simp [State.changesOnly_iff, writes]
  | wqIdle =>
    obtain ⟨-, rfl⟩ := execWqIdle_next h
    simp [State.changesOnly_iff]
  | wqBlank =>
    obtain ⟨raw, rest, -, -, rfl⟩ := execWqBlank_next h
    simp [State.changesOnly_iff, writes]
  | wqCanSend =>
    obtain ⟨raw, rest, -, -, -, rfl⟩ := execWqCanSend_next h
    simp [State.changesOnly_iff, writes]
  | wqCanSendBusy =>
    obtain ⟨raw, rest, -, -, -, rfl⟩ := execWqCanSendBusy_next h
    simp [State.changesOnly_iff, writes]
  | wqOther c =>
    obtain ⟨raw, rest, -, -, -, -, rfl⟩ := execWqOther_next h
    simp [State.changesOnly_iff, writes]
  | rxIdle =>
    obtain ⟨-, rfl⟩ := execRxIdle_next h
    simp [State.changesOnly_iff]
  | rxBlank =>
    obtain ⟨raw, rest, -, -, rfl⟩ := execRxBlank_next h
    simp [State.changesOnly_iff, writes]
  | rxChunk b =>
    obtain ⟨raw, rest, -, -, -, -, rfl⟩ := execRxChunk_next h
    simp [State.changesOnly_iff, writes]
  | rxChunkLast b =>
    obtain ⟨raw, rest, -, -, -, -, rfl⟩ := execRxChunkLast_next h
    simp [State.changesOnly_iff, writes]
  | rxBadHex c =>
    obtain ⟨raw, rest, -, -, -, -, rfl⟩ := execRxBadHex_next h
    simp [State.changesOnly_iff, writes]
  | rxOverflow b =>
    obtain ⟨raw, rest, -, -, -, -, rfl⟩ := execRxOverflow_next h
    simp [State.changesOnly_iff, writes]
  | rfInit r =>
    obtain ⟨-, -, ⟨rfl, rfl⟩ | ⟨f, rfl, rfl⟩⟩ := execRfInit_next h
    · simp [State.changesOnly_iff, writes]
    · simp [State.changesOnly_iff, writes]
  | rfDisplay r =>
    obtain ⟨-, -, ⟨rfl, rfl⟩ | ⟨f, rfl, rfl⟩⟩ := execRfDisplay_next h
    · simp [State.changesOnly_iff, writes]
    · simp [State.changesOnly_iff, writes]
  | rfSleep r =>
    obtain ⟨-, -, ⟨rfl, rfl⟩ | ⟨f, rfl, rfl⟩⟩ := execRfSleep_next h
    · simp [State.changesOnly_iff, writes]
    · simp [State.changesOnly_iff, writes]
  | ftEnter u =>
    obtain ⟨-, rfl⟩ := execFtEnter_next h
    simp [State.changesOnly_iff, writes, State.raise]
  | ftBlink =>
    obtain ⟨-, rfl⟩ := execFtBlink_next h
    simp [State.changesOnly_iff, writes]

/-- Settles O47: the frame of every instruction, from what each operation can do. -/
theorem instructionFrame : Obligations.InstructionFrame := by
  intro i s t f h hf
  exact exec_changesOnly_writes h f hf

end Sys2Proof.Machine
end

section
/-! PROOFS. The accepted bytes of a session (spec/10_state.md R35, R36(f)), and the store of a chunk over memory, cursor
and account together (spec/42_transfer_server.md R172, R173). -/

namespace Sys2Proof.Machine

/-- The account of a history, some lines later. -/
@[simp] theorem sessionLog_append (up : Bool) (l new : List LinkEvent) :
    sessionLog up (l ++ new) = new.foldl (SessionLog.after up) (sessionLog up l) := List.foldl_append

/-- Reading a line accepts nothing yet. -/
theorem State.sessionBytes_took (s : State) (raw rest : Bytes) : (s.took raw rest).sessionBytes = s.sessionBytes := by
  simp [State.sessionBytes, SessionLog.after]

/-- A grant starts the account afresh (R166). -/
theorem State.sessionBytes_tx_yes (s : State) : (s.tx litYes).sessionBytes = [] := by
  simp [State.sessionBytes, SessionLog.after]

/-- `OK` accepts the data of the line just read (R172). -/
theorem State.sessionBytes_took_tx_ok {s : State} {raw b : Bytes} (rest : Bytes)
    (hb : hxDecode s.cfg.hexUpperOk (trim raw) = .ok b) :
    ((s.took raw rest).tx litOk).sessionBytes = s.sessionBytes ++ b := by
  have hne : litOk ≠ litYes := by decide
  simp [State.sessionBytes, SessionLog.after, hne, hb]

theorem Memory.below_iff (m : Memory) (n : Nat) : m.below n = true ↔ ∀ c ∈ m, c.1 < n := by
  simp [Memory.below]

/-- A store inside `FB` lists no address beyond it (R53, R58). -/
theorem Memory.below_write {m : Memory} {a n : Nat} {v : Bytes} (hm : m.below n = true) (hv : a + v.length ≤ n) :
    (m.write a v).below n = true := by
  rw [Memory.below_iff] at hm ⊢
  intro c hc
  simp only [Memory.write, List.mem_append, List.mem_filter] at hc
  obtain (⟨hc, -⟩ | hc) | ⟨hc, -⟩ := hc
  · exact hm c hc
  · have := Memory.mem_cells hc
    omega
  · exact hm c hc

/-- Bytes stored right after those that memory holds from address 0 on: memory holds both in a row. -/
theorem Memory.read_write_extends {m : Memory} {acc v : Bytes} (h : ∀ a, a < acc.length → m.read a = acc[a]?) :
    ∀ a, a < acc.length + v.length → (m.write acc.length v).read a = (acc ++ v)[a]? := by
  intro a ha
  rw [Memory.read_write]
  by_cases hin : acc.length ≤ a
  · rw [if_pos ⟨hin, ha⟩, List.getElem?_append_right hin]
  · have hlt : a < acc.length := Nat.lt_of_not_le hin
    rw [if_neg (fun hc => hin hc.1), List.getElem?_append_left hlt, h a hlt]

/-- The state after an accepted chunk: the line consumed, its data stored at the cursor, `OK` sent (R172, R173). -/
def State.stored (s : State) (raw rest b : Bytes) : State :=
  { s.took raw rest with
    fb := s.fb.write s.pos.toNat b, pos := BitVec.ofNat 17 (s.pos.toNat + b.length) }.tx litOk

theorem execRxChunk_stored {b : Bytes} {s t : State} (h : execRxChunk b s = .next t) :
    ∃ raw rest, s.state = .receiving ∧ hxDecode s.cfg.hexUpperOk (trim raw) = .ok b ∧
      s.pos.toNat + b.length < s.cfg.frameSize ∧ t = s.stored raw rest b := by
  obtain ⟨raw, rest, ⟨hst, -, -⟩, -, hb, hlt, rfl⟩ := execRxChunk_next h
  exact ⟨raw, rest, hst, hb, hlt, rfl⟩

theorem execRxChunkLast_stored {b : Bytes} {s t : State} (h : execRxChunkLast b s = .next t) :
    ∃ raw rest, s.state = .receiving ∧ hxDecode s.cfg.hexUpperOk (trim raw) = .ok b ∧
      s.pos.toNat + b.length = s.cfg.frameSize ∧
      t = { s.stored raw rest b with rphase := .init, state := .refresh } := by
  obtain ⟨raw, rest, ⟨hst, -, -⟩, -, hb, hlast, rfl⟩ := execRxChunkLast_next h
  exact ⟨raw, rest, hst, hb, hlast, rfl⟩

@[simp] theorem State.stored_cfg (s : State) (raw rest b : Bytes) : (s.stored raw rest b).cfg = s.cfg := rfl

/-- The cursor holds every position up to FRAME_SIZE (R22). -/
theorem State.stored_pos {s : State} {b : Bytes} (raw rest : Bytes) (hsize : s.cfg.frameSize < 2 ^ 17)
    (hfit : s.pos.toNat + b.length ≤ s.cfg.frameSize) :
    (s.stored raw rest b).pos.toNat = s.pos.toNat + b.length := by
  simp only [State.stored, State.tx_pos, BitVec.toNat_ofNat]
  exact Nat.mod_eq_of_lt (by omega)

theorem State.stored_sessionBytes {s : State} {raw b : Bytes} (rest : Bytes)
    (hb : hxDecode s.cfg.hexUpperOk (trim raw) = .ok b) :
    (s.stored raw rest b).sessionBytes = s.sessionBytes ++ b := State.sessionBytes_took_tx_ok rest hb

end Sys2Proof.Machine
end

section
/-! PROOFS. The invariants of spec/10_state.md R36: at reset, kept by every instruction and by every step, and what they
say of the frame that the driver is handed. -/

namespace Sys2Proof.Machine

/-- What admissible parameters say of FRAME_SIZE (R9, R22). -/
theorem Params.frameSize_of_wf {p : Params} (h : p.wf = true) : 0 < p.frameSize ∧ p.frameSize < 2 ^ 17 := by
  simp only [Params.wf, Bool.and_eq_true, decide_eq_true_eq] at h
  tauto

/-! ### What keeps the invariants -/

/-- The invariants speak of these pieces and of the accepted bytes only. -/
theorem State.Inv.congr {s t : State} (h : s.Inv) (hcfg : t.cfg = s.cfg) (hstate : t.state = s.state)
    (hpos : t.pos = s.pos) (hbusy : t.busy = s.busy) (hfb : t.fb = s.fb) (hvalid : t.fbValid = s.fbValid)
    (htcnt : t.tcnt = s.tcnt) (hbytes : t.sessionBytes = s.sessionBytes) : t.Inv := by
  obtain ⟨cfgWf, fbWf, fbBelow, receiving, refresh, notBusy, serving, cursor, toggles, frame⟩ := h
  rw [← hcfg] at cfgWf cursor toggles fbBelow receiving refresh
  constructor <;> simpa only [hstate, hpos, hbusy, hfb, hvalid, htcnt, hbytes]

/-- An instruction that writes none of those pieces keeps the invariants. -/
theorem State.Inv.of_changesOnly {fs : List Field} {s t : State} (h : s.Inv) (hc : State.ChangesOnly fs s t)
    (hfs : ∀ f ∈ [Field.cfg, .state, .pos, .busy, .fb, .fbValid, .tcnt, .hist], f ∉ fs) : t.Inv := by
  have same : ∀ f ∈ [Field.cfg, .state, .pos, .busy, .fb, .fbValid, .tcnt, .hist], f.same s t :=
    fun f hf => hc f (hfs f hf)
  have hcfg : t.cfg = s.cfg := same .cfg (by decide)
  have hhist : t.hist = s.hist := same .hist (by decide)
  exact h.congr hcfg (same .state (by decide)) (same .pos (by decide)) (same .busy (by decide)) (same .fb (by decide))
    (same .fbValid (by decide)) (same .tcnt (by decide)) (by simp [State.sessionBytes, hcfg, hhist])

/-- Outside a session nothing is said of the accepted bytes. -/
theorem State.Inv.of_no_session {t : State} (cfgWf : t.cfg.wf = true) (fbWf : t.fb.wf = true)
    (fbBelow : t.fb.below t.cfg.frameSize = true) (cursor : t.pos.toNat ≤ t.cfg.frameSize)
    (toggles : t.tcnt ≤ t.cfg.nToggle) (hreceiving : t.state ≠ .receiving) (hrefresh : t.state ≠ .refresh)
    (hbusy : t.state = .fatal ∨ t.busy = false)
    (hvalid : t.state = .boot ∨ t.state = .fatal ∨ t.fbValid = true) : t.Inv where
  cfgWf := cfgWf
  fbWf := fbWf
  fbBelow := fbBelow
  receiving h := absurd h hreceiving
  refresh h := absurd h hrefresh
  notBusy h := hbusy.resolve_left fun hf => by simp [hf] at h
  serving h := (hvalid.resolve_left fun hb => by simp [hb] at h).resolve_left fun hf => by simp [hf] at h
  cursor := cursor
  toggles := toggles
  frame h := absurd h (by simp [hreceiving, hrefresh])

theorem State.Inv.took {s : State} (h : s.Inv) (raw rest : Bytes) : (s.took raw rest).Inv :=
  h.congr rfl rfl rfl rfl rfl rfl rfl (s.sessionBytes_took raw rest)

/-- A driver call enters the output only. -/
theorem State.Inv.called {s : State} (h : s.Inv) (call : DriverCall) :
    ({ s with drvCalls := s.drvCalls ++ [call] } : State).Inv :=
  h.congr rfl rfl rfl rfl rfl rfl rfl rfl

/-- A session that ends, with whatever line, leaves a device that serves (R187, R231, R232, R234). -/
theorem State.Inv.tx_endSession {s : State} (h : s.Inv) (hst : s.state = .receiving ∨ s.state = .refresh) (c : Bytes) :
    (s.tx c).endSession.Inv :=
  .of_no_session h.cfgWf h.fbWf h.fbBelow h.cursor h.toggles nofun nofun (.inr rfl)
    (.inr (.inr (h.serving (.inr (.inr hst)))))

/-- A grant: the cursor is at the start, nothing is accepted (R166). -/
theorem State.Inv.tx_yes_openSession {s : State} (h : s.Inv) (hst : s.state = .waitQuery) :
    (s.tx litYes).openSession.Inv where
  cfgWf := h.cfgWf
  fbWf := h.fbWf
  fbBelow := h.fbBelow
  receiving _ := ⟨rfl, (Params.frameSize_of_wf h.cfgWf).1⟩
  refresh := nofun
  notBusy := by simp
  serving _ := h.serving (.inr (.inl hst))
  cursor := Nat.zero_le _
  toggles := h.toggles
  frame _ := by
    have hbytes : (s.tx litYes).openSession.sessionBytes = [] := s.sessionBytes_tx_yes
    simp [hbytes]

/-- An accepted chunk, the frame complete or not: R36(f) moves on with the cursor (R172, R173). -/
theorem State.Inv.stored {s : State} {raw b : Bytes} (h : s.Inv) (rest : Bytes) (rp : RPhase) (st : DevState)
    (hst : s.state = .receiving) (hb : hxDecode s.cfg.hexUpperOk (trim raw) = .ok b)
    (hnext : st = .receiving ∧ s.pos.toNat + b.length < s.cfg.frameSize ∨
      st = .refresh ∧ s.pos.toNat + b.length = s.cfg.frameSize) :
    ({ s.stored raw rest b with rphase := rp, state := st } : State).Inv := by
  have hfit : s.pos.toNat + b.length ≤ s.cfg.frameSize := by omega
  have hpos := State.stored_pos raw rest (Params.frameSize_of_wf h.cfgWf).2 hfit
  have hbusy : s.busy = true := (h.receiving hst).1
  obtain ⟨hlen, hread⟩ := h.frame (.inl hst)
  rw [← hlen] at hread
  constructor
  case cfgWf => exact h.cfgWf
  case fbWf => exact Memory.wf_write _ _ _ h.fbWf
  case fbBelow => exact Memory.below_write h.fbBelow hfit
  case receiving =>
    rintro rfl
    exact ⟨hbusy, hpos.trans_lt (by simpa using hnext)⟩
  case refresh =>
    rintro rfl
    exact ⟨hbusy, hpos.trans (by simpa using hnext)⟩
  case notBusy =>
    rintro (rfl | rfl | rfl) <;> simp at hnext
  case serving => exact fun _ => h.serving (.inr (.inr (.inl hst)))
  case cursor => exact hpos.trans_le hfit
  case toggles => exact h.toggles
  case frame =>
    intro _
    have hbytes : ({ s.stored raw rest b with rphase := rp, state := st } : State).sessionBytes =
        s.sessionBytes ++ b := State.stored_sessionBytes rest hb
    rw [hbytes, List.length_append, hpos, hlen]
    refine ⟨rfl, fun a ha => ?_⟩
    rw [← hlen] at ha
    have := Memory.read_write_extends hread a ha
    rwa [hlen] at this

/-! ### Every instruction -/

theorem exec_keeps_inv {i : Instr} {s t : State} (h : s.Inv) (hx : exec i s = .next t) : t.Inv := by
  have frame : State.ChangesOnly (writes i) s t := exec_changesOnly_writes hx
  cases i with
  | fcQuant _ | fcPack _ _ _ _ | fcEncode _ | hxEncByte _ | hxEncode _ | hxDecPair _ _ | hxDecode _ =>
    exact h.of_changesOnly (exec_func_changesOnly rfl hx) (by decide)
  | msgYes | msgBusy | msgOk | msgErrOverflow | msgErr _ | msgErrDisp _ | msgErrMem | msgDone | msgFatal _ | msgReady =>
    exact h.of_changesOnly (exec_message_changesOnly rfl hx) (by decide)
  | wqIdle | rxIdle | ftBlink => exact h.of_changesOnly frame (by decide)
  | btAlloc r =>
    obtain ⟨hst, -, ⟨-, rfl⟩ | ⟨-, rfl⟩⟩ := execBtAlloc_next hx
    · exact .of_no_session h.cfgWf rfl rfl h.cursor h.toggles (by simp [hst]) (by simp [hst])
        (.inr (h.notBusy (.inl hst))) (.inl hst)
    · exact .of_no_session h.cfgWf h.fbWf h.fbBelow h.cursor h.toggles (by simp [State.raise, hst])
        (by simp [State.raise, hst]) (.inr (h.notBusy (.inl hst))) (.inl hst)
  | btLeave =>
    obtain ⟨hst, hvalid, rfl⟩ := execBtLeave_next hx
    exact .of_no_session h.cfgWf h.fbWf h.fbBelow h.cursor (Nat.zero_le _) nofun nofun
      (.inr (h.notBusy (.inl hst))) (.inr (.inr hvalid))
  | srToggle =>
    obtain ⟨hst, hlt, rfl⟩ := execSrToggle_next hx
    exact .of_no_session h.cfgWf h.fbWf h.fbBelow h.cursor hlt (by simp [hst]) (by simp [hst])
      (.inr (h.notBusy (.inr (.inl hst)))) (.inr (.inr (h.serving (.inl hst))))
  | srDone =>
    obtain ⟨hst, -, rfl⟩ := execSrDone_next hx
    exact .of_no_session h.cfgWf h.fbWf h.fbBelow h.cursor h.toggles nofun nofun
      (.inr (h.notBusy (.inr (.inl hst)))) (.inr (.inr (h.serving (.inl hst))))
  | wqBlank =>
    obtain ⟨raw, rest, -, -, rfl⟩ := execWqBlank_next hx
    exact h.took raw rest
  | wqCanSend =>
    obtain ⟨raw, rest, ⟨hst, -, -⟩, -, -, rfl⟩ := execWqCanSend_next hx
    exact (h.took raw rest).tx_yes_openSession hst
  | wqCanSendBusy =>
    obtain ⟨raw, rest, ⟨hst, -, -⟩, -, hbusy, -⟩ := execWqCanSendBusy_next hx
    simp [h.notBusy (.inr (.inr hst))] at hbusy
  | wqOther c =>
    obtain ⟨raw, rest, -, -, -, -, rfl⟩ := execWqOther_next hx
    exact h.took raw rest
  | rxBlank =>
    obtain ⟨raw, rest, -, -, rfl⟩ := execRxBlank_next hx
    exact h.took raw rest
  | rxChunk b =>
    obtain ⟨raw, rest, hst, hb, hlt, rfl⟩ := execRxChunk_stored hx
    exact h.stored rest s.rphase s.state hst hb (.inl ⟨hst, hlt⟩)
  | rxChunkLast b =>
    obtain ⟨raw, rest, hst, hb, hlast, rfl⟩ := execRxChunkLast_stored hx
    exact h.stored rest .init .refresh hst hb (.inr ⟨rfl, hlast⟩)
  | rxBadHex c =>
    obtain ⟨raw, rest, ⟨hst, -, -⟩, -, -, -, rfl⟩ := execRxBadHex_next hx
    exact (h.took raw rest).tx_endSession (.inl hst) _
  | rxOverflow b =>
    obtain ⟨raw, rest, ⟨hst, -, -⟩, -, -, -, rfl⟩ := execRxOverflow_next hx
    exact (h.took raw rest).tx_endSession (.inl hst) _
  | rfInit r =>
    obtain ⟨hst, -, ⟨rfl, rfl⟩ | ⟨f, rfl, rfl⟩⟩ := execRfInit_next hx
    · exact h.of_changesOnly frame (by decide)
    · exact (h.called _).tx_endSession (.inr hst) _
  | rfDisplay r =>
    obtain ⟨hst, -, ⟨rfl, rfl⟩ | ⟨f, rfl, rfl⟩⟩ := execRfDisplay_next hx
    · exact h.of_changesOnly frame (by decide)
    · exact (h.called _).tx_endSession (.inr hst) _
  | rfSleep r =>
    obtain ⟨hst, -, ⟨rfl, rfl⟩ | ⟨f, rfl, rfl⟩⟩ := execRfSleep_next hx
    · exact (h.called _).tx_endSession (.inr hst) _
    · exact (h.called _).tx_endSession (.inr hst) _
  | ftEnter u =>
    obtain ⟨-, rfl⟩ := execFtEnter_next hx
    exact .of_no_session h.cfgWf h.fbWf h.fbBelow h.cursor h.toggles nofun nofun (.inl rfl) (.inr (.inl rfl))

/-! ### Every step -/

/-- A reset from outside (R270). -/
theorem State.Inv.resetBlock {s : State} (h : s.Inv) : s.resetBlock.Inv :=
  .of_no_session h.cfgWf rfl rfl (Nat.zero_le _) (Nat.zero_le _) nofun nofun (.inr rfl) (.inl rfl)

/-- The host's own events touch nothing of the block but `RXQ`. -/
theorem State.Inv.hostOnly {s t : State} (h : s.Inv) (ht : s.HostOnly t) : t.Inv := by
  obtain ⟨out, c, r, rfl⟩ := ht
  exact h.congr rfl rfl rfl rfl rfl rfl rfl rfl

/-- Settles O50, by what a step can do: an instruction, a reset, or an event of the host. -/
theorem stepKeepsInvariants : Obligations.StepKeepsInvariants := by
  intro s t h hstep
  obtain ⟨s', rfl, hcases⟩ := step_cases hstep
  have henv : State.Inv { s with env := s.env.tail } := h.congr rfl rfl rfl rfl rfl rfl rfl rfl
  obtain ⟨i, hx⟩ | ⟨-, rfl⟩ | hhost | ⟨raw, rest, -, hhost⟩ := hcases
  · exact exec_keeps_inv henv hx
  · exact henv.resetBlock
  · exact henv.hostOnly hhost
  · have htxq : State.Inv { s with env := s.env.tail, txq := rest } := henv.congr rfl rfl rfl rfl rfl rfl rfl rfl
    exact htxq.hostOnly hhost

/-! ### Reset -/

/-- The parameters of this hardware are admissible, whatever N_TOGGLE is (R7, R8). -/
theorem reset_cfg_wf : State.reset.cfg.wf = true := by decide

/-- Settles O12: the device is in `Boot`, outside a session, and `TXQ` is empty. -/
theorem resetMeetsInvariants : Obligations.ResetMeetsInvariants := by
  refine ⟨.of_no_session reset_cfg_wf rfl rfl (Nat.zero_le _) (Nat.zero_le _) nofun nofun (.inr rfl) (.inl rfl), [], ?_,
    rfl⟩
  simp

/-- Settles O11: the state after reset field by field; its parameters are those of R7 and R8. -/
theorem resetValues : Obligations.ResetValues := by
  unfold Obligations.ResetValues
  have hread : ∀ a, State.reset.fb.read a = none := Memory.read_nil
  have hdisp : ∀ f, State.reset.cfg.reasonDisp.text f = Config.reasonDisp := fun _ => rfl
  have hfatal : ∀ u, State.reset.cfg.reasonFatal.text u = Config.reasonFatal := fun _ => rfl
  exact ⟨rfl, rfl, rfl, rfl, rfl, rfl, rfl, hread, rfl, rfl, rfl, rfl, rfl, rfl, rfl, rfl, rfl, rfl, rfl, rfl, rfl, rfl,
    rfl, rfl, rfl, rfl, rfl, rfl, hdisp, hfatal, rfl, reset_cfg_wf⟩

/-! ### The frame that the driver is handed -/

/-- In `Refresh` the whole of `FB` is the accepted bytes of the session, FRAME_SIZE of them (R36(b), R36(f)). -/
theorem State.Inv.frame_eq_sessionBytes {s : State} (h : s.Inv) (hst : s.state = .refresh) :
    s.sessionBytes.length = s.cfg.frameSize ∧
      (List.range s.cfg.frameSize).map s.fb.read = s.sessionBytes.map some := by
  obtain ⟨-, hpos⟩ := h.refresh hst
  obtain ⟨hlen, hread⟩ := h.frame (.inr hst)
  rw [hpos] at hlen hread
  refine ⟨hlen, List.ext_getElem (by simp [hlen]) fun a ha hb => ?_⟩
  have haf : a < s.cfg.frameSize := by simpa using ha
  simp [hread a haf]

/-- A driver call enters the output, whatever the answer (R183). -/
theorem execRfDisplay_completes {s : State} (r : DriverAnswer) (hst : s.state = .refresh) (hph : s.rphase = .display) :
    ∃ t : State, exec (.rfDisplay r) s = .next t ∧
      t.drvCalls = s.drvCalls ++ [DriverCall.display ((List.range s.cfg.frameSize).map s.fb.read)] := by
  have henabled : s.awaitsDriver .display = true := by simp [State.awaitsDriver, hst, hph]
  refine ⟨_, (execRfDisplay_eq r s).trans (by rw [henabled, whenEnabled_true]), ?_⟩
  cases r with
  | ok => rfl
  | fail f => rfl

/-- Settles O57: by R36(b) and R36(f) what `RF.DISPLAY` reads is the session's frame. -/
theorem displayHandsWholeFrame : Obligations.DisplayHandsWholeFrame := by
  intro s r h hst hph
  obtain ⟨hlen, hframe⟩ := h.frame_eq_sessionBytes hst
  obtain ⟨t, hx, hcalls⟩ := execRfDisplay_completes r hst hph
  exact ⟨hlen, t, hx, hframe ▸ hcalls⟩

end Sys2Proof.Machine
end

section
/-! PROOFS. The turn of the host at `TXQ` (spec/10_state.md R29, R30): which message it finds, and what a host without a
line, asleep or outside an attempt does. -/

namespace Sys2Proof

/-- A content that starts with a literal is the literal and what follows it. -/
theorem append_drop_of_isPrefixOf {lit c : Bytes} (h : lit.isPrefixOf c = true) : lit ++ c.drop lit.length = c :=
  (List.prefix_iff_eq_append.mp (List.isPrefixOf_iff_prefix.mp h))

/-- What the host finds in a content is a message, and the content is its encoding (R90, R99). -/
theorem decodeMessage_ok {c : Bytes} {i : Instr} (h : decodeMessage c = .ok i) :
    i.isMessage = true ∧ encode i = some c := by
  simp only [decodeMessage, ite_eq_iff] at h
  obtain ⟨hc, h⟩ | ⟨-, ⟨hc, h⟩ | ⟨-, ⟨hc, h⟩ | ⟨-, ⟨hc, h⟩ | ⟨-, ⟨hc, h⟩ | ⟨-, ⟨hc, h⟩ | ⟨-, ⟨hc, h⟩ | ⟨-, ⟨hc, h⟩ |
    ⟨-, ⟨hc, h⟩ | ⟨-, ⟨hc, h⟩ | ⟨-, h⟩⟩⟩⟩⟩⟩⟩⟩⟩⟩ := h <;> cases h
  -- the seven literals, then the three literals with a reason after them
  iterate 7 · exact ⟨rfl, congrArg some hc.symm⟩
  all_goals exact ⟨rfl, congrArg some (append_drop_of_isPrefixOf hc)⟩

namespace Machine

/-- The message that the host finds runs as its reading (R99; log entry 16). -/
theorem exec_decoded_message {p : Params} {c : Bytes} {i : Instr} (h : decode p .host c = .ok i) (s : State) :
    exec i s = s.clientReceive c := by
  obtain ⟨hi, hc⟩ := decodeMessage_ok h
  obtain ⟨c', hc', hx⟩ := exec_message hi s
  obtain rfl : c = c' := Option.some.inj (hc.symm.trans hc')
  exact hx

theorem State.txLine_eq {s : State} {raw rest : Bytes} (h : splitLine s.txq = some (raw, rest)) :
    s.txLine = some (trim raw, { s with txq := rest }) := by
  simp [State.txLine, h]

/-- No complete line, nothing to read (R85). -/
theorem State.hostReadChoice_no_line {s : State} (h : eol ∉ s.txq) : s.hostReadChoice = .settle s := by
  have hline : s.txLine = none := by simp [State.txLine, splitLine_none.mpr h]
  cases ha : s.clientAsleep with
  | true => simp [State.hostReadChoice, ha]
  | false => simp [State.hostReadChoice, ha, hline]

/-- A sleeping host reads nothing (R201; log entry 18). -/
theorem State.hostReadChoice_asleep {s : State} {k : Nat} (h : s.client.phase = .backoff k) :
    s.hostReadChoice = .settle s := by
  simp [State.hostReadChoice, State.clientAsleep, h]

/-- An awake host takes the oldest line off `TXQ` and answers it, be it a message or not (R90, R201, R203). -/
theorem step_hostRead_reply {s : State} {c rest : Bytes} {more : List EnvEvent} (he : s.env = .hostRead :: more)
    (hawake : s.clientAsleep = false) (hc : s.Reply c rest) :
    step s = .next (State.clientReply { s with env := more, txq := rest } c) := by
  obtain ⟨raw, hs, rfl⟩ := hc
  have hline : State.txLine { s with env := more } = some (trim raw, { s with env := more, txq := rest }) :=
    State.txLine_eq hs
  have ha : State.clientAsleep { s with env := more } = false := hawake
  have hchoice : s.choice = State.hostReadChoice { s with env := more } := choice_cons he
  cases hd : decode s.cfg .host (trim raw) with
  | ok i =>
    have hrun : s.choice = .run i { s with env := more } := by
      simp [hchoice, State.hostReadChoice, ha, hline, hd]
    rw [step_run hrun, exec_decoded_message hd, State.clientReceive, hline]
    simp [ha]
  | error e =>
    refine step_settle ?_
    simp [hchoice, State.hostReadChoice, ha, hline, hd]

/-- Outside an attempt a host is awake, and does nothing with a reply (log entry 18). -/
theorem State.clientReply_outside {s : State} {res : ClientResult}
    (h : s.client.phase = .idle ∨ s.client.phase = .closed res) (c : Bytes) : s.clientReply c = s := by
  rcases h with h | h
  · simp [State.clientReply, h]
  · simp [State.clientReply, h]

theorem State.clientAsleep_outside {s : State} {res : ClientResult}
    (h : s.client.phase = .idle ∨ s.client.phase = .closed res) : s.clientAsleep = false := by
  rcases h with h | h
  · simp [State.clientAsleep, h]
  · simp [State.clientAsleep, h]

/-- Settles O60: each clause is the event's own choice, the last one by what an awake host does with a line. -/
theorem hostLinkEvents : Obligations.HostLinkEvents := by
  intro s bs c rest k res more
  refine ⟨fun he => ?_, fun he hq => ?_, fun he hph => ?_, fun he hph hc => ?_⟩
  · exact step_settle (choice_cons he)
  · exact step_settle ((choice_cons he).trans (State.hostReadChoice_no_line hq))
  · exact step_settle ((choice_cons he).trans (State.hostReadChoice_asleep hph))
  · rw [step_hostRead_reply he (State.clientAsleep_outside hph) hc]
    exact congrArg _ (State.clientReply_outside (s := { s with env := more, txq := rest }) hph c)

end Machine

end Sys2Proof
end

section
/-! PROOFS. Who writes the bytes of `FB` (spec/20_memory.md R53, R57, R58): the two chunk stores at the cursor, and the
allocation, which leaves none (spec/42_transfer_server.md R160, R172, R173). -/

namespace Sys2Proof.Machine

/-- The three instructions of R20's "written by" column of `FB`. -/
theorem fb_mem_writes_iff {i : Instr} :
    Field.fb ∈ writes i ↔ (∃ b, i = .rxChunk b) ∨ (∃ b, i = .rxChunkLast b) ∨ i = .btAlloc .ok := by
  cases i with
  | btAlloc r | rfInit r | rfDisplay r | rfSleep r => cases r <;> simp [writes]
  | _ => simp [writes]

/-- Every other instruction leaves `FB`. -/
theorem exec_keeps_fb {i : Instr} {s t : State} (h : exec i s = .next t) (hchunk : ∀ b, i ≠ .rxChunk b)
    (hlast : ∀ b, i ≠ .rxChunkLast b) (halloc : i ≠ .btAlloc .ok) : t.fb = s.fb := by
  have hf : Field.fb ∉ writes i := by simp [fb_mem_writes_iff, hchunk, hlast, halloc]
  exact exec_changesOnly_writes h .fb hf

/-- A read after an accepted chunk: its data from the cursor on, what was there before elsewhere (R53). -/
theorem State.stored_read (s : State) (raw rest b : Bytes) (a : Nat) : (s.stored raw rest b).fb.read a =
    if s.pos.toNat ≤ a ∧ a < s.pos.toNat + b.length then b[a - s.pos.toNat]? else s.fb.read a :=
  Memory.read_write s.fb s.pos.toNat b a

/-- Settles O48: the two stores by a read after a store, the allocation by the empty memory it leaves, every other
instruction by its frame. -/
theorem framebufferWriters : Obligations.FramebufferWriters := by
  intro i s t a h
  split
  next b =>
    obtain ⟨raw, rest, -, -, -, rfl⟩ := execRxChunk_stored h
    exact s.stored_read raw rest b a
  next b =>
    obtain ⟨raw, rest, -, -, -, rfl⟩ := execRxChunkLast_stored h
    exact s.stored_read raw rest b a
  next =>
    obtain ⟨-, -, ⟨-, rfl⟩ | ⟨hr, -⟩⟩ := execBtAlloc_next (r := .ok) h
    · exact Memory.read_nil a
    · cases hr
  next hchunk hlast halloc => rw [exec_keeps_fb h hchunk hlast halloc]

end Sys2Proof.Machine
end

section
/-! PROOFS. The decoder and the encoder undo each other (spec/30_encoding.md R89, R90, R99): the hex codec of chunk data
(spec/41_hex_codec.md R147), which instructions a reader reads, and the rows of each reader. -/

namespace Sys2Proof

open Machine (lowerCase)

/-! ### Hex text -/

theorem length_hxEncode (p : Bytes) : (hxEncode p).length = 2 * p.length := by
  induction p with
  | nil => rfl
  | cons b t ih =>
    rw [hxEncode_cons, List.length_cons, List.length_cons, List.length_cons, ih]
    omega

theorem hxEncode_eq_nil {p : Bytes} : hxEncode p = [] ↔ p = [] := by
  rw [← List.length_eq_zero_iff, length_hxEncode, ← List.length_eq_zero_iff]
  omega

/-- When `HX.DECODE` answers a result: hex digits in pairs, and the bytes of the pairs (R145). -/
theorem hxDecode_ok_iff {up : Bool} {text b : Bytes} : hxDecode up text = .ok b ↔
    text.length % 2 = 0 ∧ (∀ ch ∈ text, (hexVal up ch).isSome) ∧ hxPairs up text = b := by
  rw [← Nat.mod_two_ne_one]
  simp [hxDecode, ite_eq_iff, Option.isSome_iff_ne_none]

theorem hxPairs_hxEncode (up : Bool) (p : Bytes) : hxPairs up (hxEncode p) = p := by
  induction p with
  | nil => rfl
  | cons b t ih => simp [hxEncode_cons, hxPairs, ih]

/-- Decoding undoes encoding (R147). -/
theorem hxDecode_hxEncode (up : Bool) (p : Bytes) : hxDecode up (hxEncode p) = .ok p := by
  refine hxDecode_ok_iff.mpr ⟨by simp [length_hxEncode], fun ch h => ?_, hxPairs_hxEncode up p⟩
  obtain ⟨n, rfl⟩ := mem_hxEncode h
  simp

theorem extract_joinNibbles_high (hi lo : Nibble) : (joinNibbles hi lo).extractLsb' 4 4 = hi := by
  revert hi lo
  decide

theorem extract_joinNibbles_low (hi lo : Nibble) : (joinNibbles hi lo).extractLsb' 0 4 = lo := by
  revert hi lo
  decide

/-- The digit of a character's value is that character in lower case (R143). -/
theorem hexCh_of_hexVal {up : Bool} {ch : Byte} : ∀ n ∈ hexVal up ch, hexCh n = lowerCase ch := by
  revert up ch
  decide

/-- Encoding the bytes of pairs of hex digits gives the digits in lower case (R147). -/
theorem hxEncode_hxPairs {up : Bool} (text : Bytes) (heven : text.length % 2 = 0)
    (hdigits : ∀ ch ∈ text, (hexVal up ch).isSome) : hxEncode (hxPairs up text) = text.map lowerCase := by
  fun_induction hxPairs up text with
  | case1 c0 c1 t ih =>
    simp only [List.forall_mem_cons, Option.isSome_iff_exists] at hdigits
    obtain ⟨⟨hi, h0⟩, ⟨lo, h1⟩, ht⟩ := hdigits
    have heven' : t.length % 2 = 0 := by simp only [List.length_cons] at heven; omega
    rw [h0, h1, Option.getD_some, Option.getD_some, hxEncode_cons, extract_joinNibbles_high, extract_joinNibbles_low,
      hexCh_of_hexVal hi h0, hexCh_of_hexVal lo h1, ih heven' (by simpa [Option.isSome_iff_exists] using ht)]
    rfl
  | case2 t hshort =>
    match t, heven with
    | [], _ => rfl
    | c0 :: c1 :: t, _ => exact absurd rfl (hshort c0 c1 t)

theorem hxEncode_of_hxDecode {up : Bool} {text b : Bytes} (h : hxDecode up text = .ok b) :
    hxEncode b = text.map lowerCase := by
  obtain ⟨heven, hdigits, rfl⟩ := hxDecode_ok_iff.mp h
  exact hxEncode_hxPairs text heven hdigits

/-! ### Which instructions a reader reads -/

@[simp] theorem Instr.readBy_host (p : Params) (i : Instr) : i.readBy p .host = i.isMessage := by
  cases i <;> rfl

/-- The rows of R89 for `STATE = WaitQuery`. -/
theorem Instr.readBy_waitQuery {p : Params} {i : Instr} {busy : Bool} {pos : Nat} :
    i.readBy p (.device .waitQuery busy pos) = true ↔ i = .wqBlank ∨ (i = .wqCanSend ∧ busy = false) ∨
      (i = .wqCanSendBusy ∧ busy = true) ∨ ∃ c, i = .wqOther c := by
  cases i <;> simp [Instr.readBy]

/-- The rows of R89 for `STATE = Receiving`. -/
theorem Instr.readBy_receiving {p : Params} {i : Instr} {busy : Bool} {pos : Nat} :
    i.readBy p (.device .receiving busy pos) = true ↔ i = .rxBlank ∨ (∃ c, i = .rxBadHex c) ∨
      (∃ b, i = .rxOverflow b ∧ p.frameSize < pos + b.length) ∨
      (∃ b, i = .rxChunkLast b ∧ pos + b.length = p.frameSize) ∨
      ∃ b, i = .rxChunk b ∧ pos + b.length < p.frameSize := by
  cases i <;> simp [Instr.readBy]

/-- In every other `STATE` the device reads no line (R89). -/
theorem Instr.reading_of_readBy {p : Params} {i : Instr} {st : DevState} {busy : Bool} {pos : Nat}
    (h : i.readBy p (.device st busy pos) = true) : st = .waitQuery ∨ st = .receiving := by
  cases st with
  | waitQuery => exact .inl rfl
  | receiving => exact .inr rfl
  | boot | signalReady | refresh | fatal => cases i <;> simp [Instr.readBy] at h

/-! ### The rows of a chunk line (R89, R240) -/

/-- Chunk data goes into the row that the cursor and its length select. -/
theorem decodeChunk_of_hxDecode {p : Params} {c b : Bytes} (pos : Nat) (hne : c ≠ []) (hlen : c.length ≤ p.lineMax)
    (hb : hxDecode p.hexUpperOk c = .ok b) : decodeChunk p pos c =
      .ok (if p.frameSize < pos + b.length then .rxOverflow b
        else if pos + b.length = p.frameSize then .rxChunkLast b else .rxChunk b) := by
  simp only [decodeChunk, hne, Nat.not_lt.mpr hlen, hb, if_false]
  split_ifs <;> rfl

theorem decodeChunk_hxEncode {p : Params} {b : Bytes} (pos : Nat) (h : chunkWf p b = true) :
    decodeChunk p pos (hxEncode b) =
      .ok (if p.frameSize < pos + b.length then .rxOverflow b
        else if pos + b.length = p.frameSize then .rxChunkLast b else .rxChunk b) := by
  simp only [chunkWf, Bool.and_eq_true, decide_eq_true_eq] at h
  obtain ⟨hpos, hmax⟩ := h
  refine decodeChunk_of_hxDecode pos ?_ ((length_hxEncode b).trans_le hmax) (hxDecode_hxEncode _ b)
  rw [Ne, hxEncode_eq_nil]
  rintro rfl
  simp at hpos

/-- A content that is no chunk data (R174). -/
theorem decodeChunk_badHex {p : Params} {c : Bytes} (pos : Nat) (hne : c ≠ []) (hlen : c.length ≤ p.lineMax)
    (h : notHex p c = true) : decodeChunk p pos c = .ok (.rxBadHex c) := by
  simp [decodeChunk, hne, Nat.not_lt.mpr hlen, Machine.notHex_iff.mp h]

theorem contentWf_bounds {p : Params} {c : Bytes} (h : contentWf p c = true) : c ≠ [] ∧ c.length ≤ p.lineMax := by
  simp only [contentWf, Bool.and_eq_true, decide_eq_true_eq] at h
  obtain ⟨⟨-, hpos⟩, hmax⟩ := h
  exact ⟨List.ne_nil_of_length_pos hpos, hmax⟩

/-! ### Decoding an encoding -/

/-- A message is found in its encoding (R90, R99). The tests of the rows before its own evaluate to false at a byte of its
literal; only `ERR:` needs its reason for that, which is not `OVERFLOW` (R92). -/
theorem decodeMessage_encode {p : Params} {i : Instr} {c : Bytes} (hi : i.isMessage = true) (hw : i.wf p = true)
    (hc : encode i = some c) : decodeMessage c = .ok i := by
  cases i <;> simp only [Instr.isMessage, Bool.false_eq_true] at hi <;> cases hc
  case msgErr r =>
    simp only [Instr.wf, Bool.and_eq_true, bne_iff_ne] at hw
    have hne : litErr ++ r ≠ litErrOverflow := fun h => hw.2 (List.append_cancel_left (as := litErr) h)
    exact if_neg hne
  case msgErrDisp r => rfl
  case msgFatal r => rfl
  all_goals rfl

/-- Admissible parameters let `CAN_SEND` through the line layer (R88). -/
theorem canSend_fits {p : Params} (h : p.wf = true) : litCanSend.length ≤ p.lineMax := by
  simp only [Params.wf, Bool.and_eq_true, decide_eq_true_eq] at h
  have h8 : 8 ≤ p.lineMax := by tauto
  exact h8

theorem decodeQuery_encode {p : Params} {i : Instr} {c : Bytes} {busy : Bool} {pos : Nat} (hp : p.wf = true)
    (hw : i.wf p = true) (hr : i.readBy p (.device .waitQuery busy pos) = true) (hc : encode i = some c) :
    decodeQuery p busy c = .ok i := by
  have hfits : ¬ p.lineMax < litCanSend.length := Nat.not_lt.mpr (canSend_fits hp)
  have hne : litCanSend ≠ [] := by decide
  obtain rfl | ⟨rfl, rfl⟩ | ⟨rfl, rfl⟩ | ⟨d, rfl⟩ := Instr.readBy_waitQuery.mp hr <;> cases hc
  · rfl
  · simp [decodeQuery, hne, hfits]
  · simp [decodeQuery, hne, hfits]
  · simp only [Instr.wf, Bool.and_eq_true, bne_iff_ne] at hw
    obtain ⟨hcontent, hother⟩ := hw
    obtain ⟨hne, hlen⟩ := contentWf_bounds hcontent
    simp [decodeQuery, hne, hother, Nat.not_lt.mpr hlen]

theorem decodeChunk_encode {p : Params} {i : Instr} {c : Bytes} {busy : Bool} {pos : Nat} (hw : i.wf p = true)
    (hr : i.readBy p (.device .receiving busy pos) = true) (hc : encode i = some c) :
    decodeChunk p pos c = .ok i := by
  obtain rfl | ⟨d, rfl⟩ | ⟨b, rfl, hlt⟩ | ⟨b, rfl, heq⟩ | ⟨b, rfl, hlt⟩ := Instr.readBy_receiving.mp hr <;> cases hc
  · rfl
  · simp only [Instr.wf, Bool.and_eq_true] at hw
    obtain ⟨hne, hlen⟩ := contentWf_bounds hw.1
    exact decodeChunk_badHex pos hne hlen hw.2
  · rw [decodeChunk_hxEncode pos hw, if_pos hlt]
  · rw [decodeChunk_hxEncode pos hw, if_neg heq.not_gt, if_pos heq]
  · rw [decodeChunk_hxEncode pos hw, if_neg hlt.not_gt, if_neg hlt.ne]

/-- Settles O41, reader by reader: a message to the host, a line in each of the two reading states. -/
theorem decodeEncodeRoundTrip : Obligations.DecodeEncodeRoundTrip := by
  intro p i r c hp hw hr hc
  cases r with
  | host => exact decodeMessage_encode ((Instr.readBy_host p i).symm.trans hr) hw hc
  | device st busy pos =>
    obtain rfl | rfl := Instr.reading_of_readBy hr
    · exact decodeQuery_encode hp hw hr hc
    · exact decodeChunk_encode hw hr hc

/-! ### Encoding what a content decodes to -/

/-- What a query decodes to: the row selects it, and it encodes the content. -/
theorem decodeQuery_ok {p : Params} {busy : Bool} {c : Bytes} {i : Instr} (pos : Nat)
    (h : decodeQuery p busy c = .ok i) : i.readBy p (.device .waitQuery busy pos) = true ∧ encode i = some c := by
  simp only [decodeQuery] at h
  split_ifs at h with hnil hlen hcan hbusy <;> cases h
  · exact ⟨rfl, congrArg some hnil.symm⟩
  · exact ⟨hbusy, congrArg some hcan.symm⟩
  · exact ⟨by simpa [Instr.readBy] using hbusy, congrArg some hcan.symm⟩
  · exact ⟨rfl, rfl⟩

/-- What a chunk line decodes to: the row selects it, and it encodes the content up to the case of its digits (R147). -/
theorem decodeChunk_ok {p : Params} {pos : Nat} {c : Bytes} {i : Instr} (busy : Bool)
    (h : decodeChunk p pos c = .ok i) : i.readBy p (.device .receiving busy pos) = true ∧
      (encode i = some c ∨ encode i = some (c.map lowerCase)) := by
  simp only [decodeChunk] at h
  split_ifs at h with hnil hlen
  · cases h
    exact ⟨rfl, .inl (congrArg some hnil.symm)⟩
  · split at h
    · cases h
      exact ⟨rfl, .inl rfl⟩
    · next b hb =>
      have henc : some (hxEncode b) = some (c.map lowerCase) := congrArg some (hxEncode_of_hxDecode hb)
      split_ifs at h with hover hlast <;> cases h
      · exact ⟨decide_eq_true hover, .inr henc⟩
      · exact ⟨decide_eq_true hlast, .inr henc⟩
      · exact ⟨decide_eq_true (by omega), .inr henc⟩

/-- Settles O42, reader by reader. -/
theorem encodeDecodeRoundTrip : Obligations.EncodeDecodeRoundTrip := by
  intro p r c i h
  cases r with
  | host =>
    obtain ⟨hi, hc⟩ := decodeMessage_ok h
    exact ⟨(Instr.readBy_host p i).trans hi, c, hc, fun _ => rfl, .inl rfl⟩
  | device st busy pos =>
    cases st with
    | waitQuery =>
      obtain ⟨hr, hc⟩ := decodeQuery_ok pos h
      exact ⟨hr, c, hc, nofun, .inl rfl⟩
    | receiving =>
      obtain ⟨hr, hc | hc⟩ := decodeChunk_ok busy h
      · exact ⟨hr, _, hc, nofun, .inl rfl⟩
      · exact ⟨hr, _, hc, nofun, .inr rfl⟩
    | boot | signalReady | refresh | fatal => cases h

/-- Settles O43: the decoder run on each word and on each chunk line. -/
theorem literalsDecode : Obligations.LiteralsDecode :=
  ⟨rfl, rfl, rfl, rfl, rfl, rfl, rfl, rfl, rfl, rfl, rfl, rfl, rfl, rfl, rfl⟩

end Sys2Proof
end

section
/-! PROOFS. The lines on `TXQ` (spec/10_state.md R30, spec/30_encoding.md R90, R92): what each operation appends, and
that it is whole lines of the device, none of them `READY` (R95(c)). -/

namespace Sys2Proof.Machine

/-! ### Lines that the device may send -/

/-- A well-formed message other than `READY` is a line that the device may send. -/
theorem isDeviceLine_encode {p : Params} {i : Instr} {c : Bytes} (hi : i.isMessage = true) (hw : i.wf p = true)
    (hready : i ≠ .msgReady) (hc : encode i = some c) : isDeviceLine p c = true := by
  have hd : decode p .host c = .ok i := decodeMessage_encode hi hw hc
  simp [isDeviceLine, hd, hw, hready]

/-- A line of the device goes through the line layer as it is: it is the oldest line of a stream that starts with it. -/
theorem splitLine_deviceLine {p : Params} {c : Bytes} (rest : Bytes) (h : isDeviceLine p c = true) :
    splitLine (c ++ eol :: rest) = some (c, rest) := by
  unfold isDeviceLine at h
  split at h
  · next i hd =>
    simp only [Bool.and_eq_true] at h
    obtain ⟨-, hc⟩ := decodeMessage_ok hd
    exact (Laws.Framing.every i p c h.1 hc).2 rest
  · cases h

/-- The reason that a table gives a token is admissible (R92). -/
theorem ReasonTable.text_admissible {tab : ReasonTable} (h : tab.wf = true) (token : Nat) :
    admissibleReason (tab.text token) = true := by
  simp only [ReasonTable.wf, Bool.and_eq_true, List.all_eq_true] at h
  obtain ⟨hother, hnamed⟩ := h
  rw [ReasonTable.text]
  cases hl : tab.named.lookup token with
  | none => exact hother
  | some r =>
    obtain ⟨l₁, l₂, hl', -⟩ := List.lookup_eq_some_iff.mp hl
    exact hnamed (token, r) (by simp [hl'])

/-- The reasons of admissible parameters (R92). -/
theorem Params.reasons_of_wf {p : Params} (h : p.wf = true) : admissibleReason p.reasonHex = true ∧
    p.reasonHex ≠ litOverflow ∧ p.reasonDisp.wf = true ∧ p.reasonFatal.wf = true := by
  simp only [Params.wf, Bool.and_eq_true, bne_iff_ne] at h
  tauto

/-- What an operation of the device sends is a line that the device may send (R90). -/
theorem isDeviceLine_linesSent {p : Params} (hp : p.wf = true) (i : Instr) :
    ∀ c ∈ linesSent p i, isDeviceLine p c = true := by
  obtain ⟨hhex, hover, hdisp, hfatal⟩ := Params.reasons_of_wf hp
  have disp (f : Nat) : isDeviceLine p (litErrDisp ++ p.reasonDisp.text f) = true :=
    isDeviceLine_encode (i := .msgErrDisp _) rfl (ReasonTable.text_admissible hdisp f) nofun rfl
  cases i with
  | rxBadHex c =>
    have hw : (Instr.msgErr p.reasonHex).wf p = true := by simp [Instr.wf, hhex, hover]
    simpa [linesSent] using isDeviceLine_encode rfl hw nofun rfl
  | ftEnter u =>
    simpa [linesSent] using
      isDeviceLine_encode (i := .msgFatal _) rfl (ReasonTable.text_admissible hfatal u) nofun rfl
  | btAlloc r | rfInit r | rfDisplay r | rfSleep r => cases r <;> simp [linesSent, disp] <;> rfl
  | _ => simp [linesSent] <;> rfl

/-! ### What the operations append to `TXQ` -/

/-- What sends a line writes `TXQ`. -/
theorem linesSent_eq_nil {i : Instr} (p : Params) (h : Field.txq ∉ writes i) : linesSent p i = [] := by
  cases i with
  | btAlloc r | rfInit r | rfDisplay r | rfSleep r => cases r <;> simp_all [writes, linesSent]
  | _ => simp_all [writes, linesSent]

/-- No instruction writes the parameters (R20). -/
theorem exec_keeps_cfg {i : Instr} {s t : State} (h : exec i s = .next t) : t.cfg = s.cfg := by
  refine exec_changesOnly_writes h .cfg ?_
  cases i with
  | btAlloc r | rfInit r | rfDisplay r | rfSleep r => cases r <;> simp [writes]
  | _ => simp [writes]

/-- The operations of the device and the functions append their lines to `TXQ` and leave the rest of it alone (R182). -/
theorem exec_txq {i : Instr} {s t : State} (hi : i.isMessage = false) (h : exec i s = .next t) :
    t.txq = s.txq ++ (linesSent s.cfg i).flatMap (fun c => c ++ [eol]) := by
  by_cases hq : Field.txq ∈ writes i
  · cases i <;> simp only [Instr.isMessage, Bool.true_eq_false] at hi
    case wqCanSend =>
      obtain ⟨raw, rest, -, -, -, rfl⟩ := execWqCanSend_next h
      simp [linesSent]
    case wqCanSendBusy =>
      obtain ⟨raw, rest, -, -, -, rfl⟩ := execWqCanSendBusy_next h
      simp [linesSent]
    case rxChunk b =>
      obtain ⟨raw, rest, -, -, -, -, rfl⟩ := execRxChunk_next h
      simp [linesSent]
    case rxChunkLast b =>
      obtain ⟨raw, rest, -, -, -, -, rfl⟩ := execRxChunkLast_next h
      simp [linesSent]
    case rxBadHex c =>
      obtain ⟨raw, rest, -, -, -, -, rfl⟩ := execRxBadHex_next h
      simp [linesSent, DevError.line]
    case rxOverflow b =>
      obtain ⟨raw, rest, -, -, -, -, rfl⟩ := execRxOverflow_next h
      simp [linesSent, DevError.line]
    case btAlloc r =>
      obtain ⟨-, -, ⟨rfl, rfl⟩ | ⟨rfl, rfl⟩⟩ := execBtAlloc_next h
      · simp [linesSent]
      · simp [linesSent, DevError.line]
    case rfInit r =>
      obtain ⟨-, -, ⟨rfl, rfl⟩ | ⟨f, rfl, rfl⟩⟩ := execRfInit_next h
      · simp [linesSent]
      · simp [linesSent, DevError.line]
    case rfDisplay r =>
      obtain ⟨-, -, ⟨rfl, rfl⟩ | ⟨f, rfl, rfl⟩⟩ := execRfDisplay_next h
      · simp [linesSent]
      · simp [linesSent, DevError.line]
    case rfSleep r =>
      obtain ⟨-, -, ⟨rfl, rfl⟩ | ⟨f, rfl, rfl⟩⟩ := execRfSleep_next h
      · simp [linesSent]
      · simp [linesSent, DevError.line]
    case ftEnter u =>
      obtain ⟨-, rfl⟩ := execFtEnter_next h
      simp [linesSent, DevError.line]
    all_goals simp [writes] at hq
  · have hsame : t.txq = s.txq := exec_changesOnly_writes h .txq hq
    simp [hsame, linesSent_eq_nil s.cfg hq]

/-! ### `TXQ` holds whole lines of the device -/

/-- Whole lines of the device appended to whole lines of the device. -/
theorem State.TxLines.append {s t : State} {lines : List Bytes} (h : s.TxLines) (hcfg : t.cfg = s.cfg)
    (hlines : ∀ c ∈ lines, isDeviceLine s.cfg c = true)
    (htxq : t.txq = s.txq ++ lines.flatMap (fun c => c ++ [eol])) : t.TxLines := by
  obtain ⟨old, hold, hq⟩ := h
  refine ⟨old ++ lines, fun c hc => ?_, by rw [htxq, hq, List.flatMap_append]⟩
  rw [hcfg]
  exact (List.mem_append.mp hc).elim (hold c) (hlines c)

/-- `TxLines` speaks of the parameters and of `TXQ` only. -/
theorem State.TxLines.congr {s t : State} (h : s.TxLines) (hcfg : t.cfg = s.cfg) (htxq : t.txq = s.txq) : t.TxLines :=
  h.append (lines := []) hcfg (by simp) (by simp [htxq])

/-- The oldest line taken off: whole lines are left. -/
theorem State.TxLines.drop {s : State} {raw rest : Bytes} (h : s.TxLines) (hs : splitLine s.txq = some (raw, rest)) :
    ({ s with txq := rest } : State).TxLines := by
  obtain ⟨lines, hlines, hq⟩ := h
  cases lines with
  | nil => simp [hq, splitLine] at hs
  | cons c more =>
    have hsplit : splitLine s.txq = some (c, more.flatMap (fun d => d ++ [eol])) := by
      simpa [hq] using splitLine_deviceLine (more.flatMap (fun d => d ++ [eol])) (hlines c (by simp))
    have hrest : rest = more.flatMap (fun d => d ++ [eol]) := by simp_all
    exact ⟨more, fun d hd => hlines d (by simp [hd]), hrest⟩

/-- The host's own events leave `TXQ` alone. -/
theorem State.TxLines.hostOnly {s t : State} (h : s.TxLines) (ht : s.HostOnly t) : t.TxLines := by
  obtain ⟨out, c, r, rfl⟩ := ht
  exact h.congr rfl rfl

theorem exec_keeps_txLines {i : Instr} {s t : State} (hp : s.cfg.wf = true) (h : s.TxLines) (hx : exec i s = .next t) :
    t.TxLines := by
  cases hi : i.isMessage with
  | true =>
    obtain ⟨c, -, hc⟩ := exec_message hi s
    obtain ⟨raw, rest, hs, -, -, rfl⟩ := State.clientReceive_next (hc.symm.trans hx)
    obtain ⟨out, cl, hr⟩ := State.clientReply_frame { s with txq := rest } c
    rw [hr]
    exact (h.drop hs).congr rfl rfl
  | false =>
    exact h.append (exec_keeps_cfg hx) (isDeviceLine_linesSent hp i) (exec_txq hi hx)

/-- Settles O51, by what a step can do: an instruction, a reset, or an event of the host. -/
theorem stepKeepsDeviceLines : Obligations.StepKeepsDeviceLines := by
  intro s t hp h hstep
  obtain ⟨s', rfl, hcases⟩ := step_cases hstep
  have henv : State.TxLines { s with env := s.env.tail } := h.congr rfl rfl
  obtain ⟨i, hx⟩ | ⟨-, rfl⟩ | hhost | ⟨raw, rest, hs, hhost⟩ := hcases
  · exact exec_keeps_txLines (s := { s with env := s.env.tail }) hp henv hx
  · exact ⟨[], by simp, rfl⟩
  · exact henv.hostOnly hhost
  · exact (henv.drop hs).hostOnly hhost

end Sys2Proof.Machine
end

section
/-! PROOFS. The transmit phase of the host (spec/43_host_contract.md R203, R206): the chunk lines of a payload
(spec/30_encoding.md R98), and the host's loop over the replies that wait on `TXQ`. -/

namespace Sys2Proof

/-! ### The chunk lines of a payload -/

/-- The number of chunk lines of a payload: its length over the chunk size, rounded up. -/
def chunkCount (c : Nat) (p : Bytes) : Nat := (p.length + c - 1) / c

/-- Chunk line `i` of a payload, without its EOL. -/
def chunkLine (c : Nat) (p : Bytes) (i : Nat) : Bytes := hxEncode ((p.drop (c * i)).take c)

/-- There is a line `j` as long as bytes are left at its start. -/
theorem lt_chunkCount_iff {c : Nat} (hc : 0 < c) (p : Bytes) (j : Nat) : j < chunkCount c p ↔ c * j < p.length := by
  rw [chunkCount, Nat.lt_iff_add_one_le, Nat.le_div_iff_mul_le hc, Nat.mul_comm, Nat.mul_succ]
  omega

theorem chunkCount_nil {c : Nat} (hc : 0 < c) : chunkCount c [] = 0 :=
  Nat.div_eq_of_lt (by rw [List.length_nil]; omega)

theorem chunkCount_drop {c : Nat} (hc : 0 < c) {p : Bytes} (hp : p ≠ []) :
    chunkCount c p = chunkCount c (p.drop c) + 1 := by
  have hpos : 0 < p.length := List.length_pos_of_ne_nil hp
  have hsucc : chunkCount c p = (p.length - 1) / c + 1 := by
    rw [chunkCount, ← Nat.add_div_right _ hc, Nat.sub_add_comm hpos]
  rw [hsucc, chunkCount, List.length_drop]
  by_cases hlong : c ≤ p.length
  · rw [Nat.sub_add_cancel hlong]
  · rw [Nat.div_eq_of_lt (by omega), Nat.div_eq_of_lt (by omega)]

/-- Cutting with fuel enough gives the pieces by their positions. -/
theorem cutEvery_eq_map {c : Nat} (hc : 0 < c) (fuel : Nat) (p : Bytes) (hfuel : p.length ≤ fuel) :
    cutEvery c fuel p = (List.range (chunkCount c p)).map (fun i => (p.drop (c * i)).take c) := by
  induction fuel generalizing p with
  | zero =>
    obtain rfl : p = [] := List.length_eq_zero_iff.mp (Nat.le_zero.mp hfuel)
    rw [chunkCount_nil hc]
    rfl
  | succ fuel ih =>
    by_cases hp : p = []
    · subst hp
      rw [chunkCount_nil hc]
      rfl
    · have hpos : 0 < p.length := List.length_pos_of_ne_nil hp
      have hdrop : (p.drop c).length ≤ fuel := by rw [List.length_drop]; omega
      rw [chunkCount_drop hc hp, List.range_succ_eq_map]
      simp [cutEvery, hp, ih _ hdrop, Nat.mul_succ, Nat.add_comm]

/-- The pieces together are the whole. -/
theorem flatten_cutEvery {c : Nat} (hc : 0 < c) (fuel : Nat) (p : Bytes) (hfuel : p.length ≤ fuel) :
    (cutEvery c fuel p).flatten = p := by
  induction fuel generalizing p with
  | zero => simp_all [cutEvery]
  | succ fuel ih =>
    by_cases hp : p = []
    · simp [cutEvery, hp]
    · have hpos : 0 < p.length := List.length_pos_of_ne_nil hp
      have hdrop : (p.drop c).length ≤ fuel := by rw [List.length_drop]; omega
      simp [cutEvery, hp, ih _ hdrop]

theorem chunkLines_eq {c : Nat} (hc : 0 < c) (p : Bytes) :
    chunkLines c p = (List.range (chunkCount c p)).map (chunkLine c p) := by
  simp [chunkLines, cutEvery_eq_map hc p.length p le_rfl, chunkLine]

/-- The chunk lines together are the hex text of the payload (R142). -/
theorem flatMap_chunkLine {c : Nat} (hc : 0 < c) (p : Bytes) :
    (List.range (chunkCount c p)).flatMap (chunkLine c p) = hxEncode p := by
  calc (List.range (chunkCount c p)).flatMap (chunkLine c p)
      = (chunkLines c p).flatten := by rw [chunkLines_eq hc, List.flatMap]
    _ = hxEncode (cutEvery c p.length p).flatten := by
      simp only [chunkLines, hxEncode, List.flatMap, List.map_flatten, List.flatten_flatten, List.map_map]
      rfl
    _ = hxEncode p := by rw [flatten_cutEvery hc _ _ le_rfl]

theorem length_chunkLine (c : Nat) (p : Bytes) (i : Nat) :
    (chunkLine c p i).length = 2 * min c (p.length - c * i) := by
  simp [chunkLine, length_hxEncode]

/-- Cutting the text every two characters a byte is cutting the bytes (R142). -/
theorem take_hxEncode (n : Nat) (p : Bytes) : (hxEncode p).take (2 * n) = hxEncode (p.take n) := by
  induction p generalizing n with
  | nil => simp
  | cons b t ih =>
    cases n with
    | zero => simp
    | succ n => simp [hxEncode_cons, Nat.mul_succ, ih]

theorem drop_hxEncode (n : Nat) (p : Bytes) : (hxEncode p).drop (2 * n) = hxEncode (p.drop n) := by
  induction p generalizing n with
  | nil => simp
  | cons b t ih =>
    cases n with
    | zero => simp
    | succ n => simp [hxEncode_cons, Nat.mul_succ, ih]

namespace Machine

/-! ### The host's loop -/

/-- What is still to send before line `j` (R203): the hex text of the bytes from there on. -/
def State.textFrom (s : State) (j : Nat) : Bytes := hxEncode (s.client.payload.drop (s.cfg.chunkRaw * j))

/-- The state at the head of the host's loop of R203 before line `j`, from `s`: the lines before it are on `RXQ` and
acknowledged, `replies` wait on `TXQ`. -/
def State.beforeLine (s : State) (j : Nat) (replies : Bytes) (events : List EnvEvent) : State :=
  { s with
    rxq := s.rxq ++ (List.range j).flatMap (fun i => chunkLine s.cfg.chunkRaw s.client.payload i ++ [eol])
    txq := replies
    env := events
    client := { s.client with
      bytesSent := 2 * min (s.cfg.chunkRaw * j) s.client.payload.length
      totalHexLength := 2 * s.client.payload.length } }

/-- The loop does not look at the phase it is entered from. -/
theorem State.clientNextLine_phase (s : State) (ph : ClientPhase) (text : Bytes) :
    State.clientNextLine { s with client := { s.client with phase := ph } } text = s.clientNextLine text := by
  unfold State.clientNextLine
  split <;> rfl

/-- With bytes left, the host sends line `j` (R203). -/
theorem State.clientNextLine_send {s : State} (hc : 0 < s.cfg.chunkRaw) {j : Nat}
    (hj : j < chunkCount s.cfg.chunkRaw s.client.payload) (replies : Bytes) (events : List EnvEvent) :
    (s.beforeLine j replies events).clientNextLine (s.textFrom j) =
      { s.beforeLine j replies events with
        rxq := (s.beforeLine (j + 1) replies events).rxq
        client := { (s.beforeLine j replies events).client with
          phase := .transmit (chunkLine s.cfg.chunkRaw s.client.payload j).length (s.textFrom (j + 1)) } } := by
  have hleft := (lt_chunkCount_iff hc s.client.payload j).mp hj
  have hne : s.textFrom j ≠ [] := by
    rw [State.textFrom, Ne, hxEncode_eq_nil, List.drop_eq_nil_iff]
    omega
  have htake : (s.textFrom j).take s.cfg.chunkHex = chunkLine s.cfg.chunkRaw s.client.payload j := take_hxEncode _ _
  have hdrop : (s.textFrom j).drop s.cfg.chunkHex = s.textFrom (j + 1) := by
    simp [State.textFrom, Params.chunkHex, drop_hxEncode, Nat.mul_succ]
  have hcfg : (s.beforeLine j replies events).cfg = s.cfg := rfl
  rw [State.clientNextLine, if_neg hne, hcfg, htake, hdrop]
  simp [State.hostSend, State.beforeLine, List.range_succ]

/-- With no byte left, the transmit phase is over (R203). -/
theorem State.clientNextLine_done {s : State} (hc : 0 < s.cfg.chunkRaw) {j : Nat}
    (hj : ¬ j < chunkCount s.cfg.chunkRaw s.client.payload) (replies : Bytes) (events : List EnvEvent) :
    (s.beforeLine j replies events).clientNextLine (s.textFrom j) =
      { s.beforeLine j replies events with
        client := { (s.beforeLine j replies events).client with phase := .complete } } := by
  have hleft := (lt_chunkCount_iff hc s.client.payload j).not.mp hj
  have hnil : s.textFrom j = [] := by
    rw [State.textFrom, hxEncode_eq_nil, List.drop_eq_nil_iff]
    omega
  rw [State.clientNextLine, if_pos hnil]

/-- `YES` starts the loop before line 0 (R203, R206). -/
theorem step_hostRead_yes {s : State} {k : Nat} {rest : Bytes} {more : List EnvEvent}
    (hphase : s.client.phase = .handshake k) (htxq : s.txq = litYes ++ eol :: rest) (henv : s.env = .hostRead :: more) :
    step s = .next ((s.beforeLine 0 rest more).clientNextLine (s.textFrom 0)) := by
  have hawake : s.clientAsleep = false := by simp [State.clientAsleep, hphase]
  have hreply : s.Reply litYes rest := ⟨litYes, htxq ▸ splitLine_append rest (by decide), rfl⟩
  rw [step_hostRead_reply henv hawake hreply]
  simp [State.clientReply, hphase, State.clientTransmit, State.beforeLine, State.textFrom, length_hxEncode]

/-- `OK` to line `j` takes the loop before line `j + 1`, its characters counted (R203, R206). -/
theorem step_hostRead_ok {s : State} (hc : 0 < s.cfg.chunkRaw) {j : Nat}
    (hj : j < chunkCount s.cfg.chunkRaw s.client.payload) (rest : Bytes) (more : List EnvEvent) :
    step ((s.beforeLine j (litOk ++ eol :: rest) (.hostRead :: more)).clientNextLine (s.textFrom j)) =
      .next ((s.beforeLine (j + 1) rest more).clientNextLine (s.textFrom (j + 1))) := by
  have hcount : 2 * min (s.cfg.chunkRaw * j) s.client.payload.length +
      (chunkLine s.cfg.chunkRaw s.client.payload j).length =
        2 * min (s.cfg.chunkRaw * (j + 1)) s.client.payload.length := by
    rw [length_chunkLine, Nat.mul_succ]
    omega
  rw [State.clientNextLine_send hc hj, step_hostRead_reply (c := litOk) (rest := rest) (more := more) rfl rfl
    ⟨litOk, splitLine_append rest (by decide), rfl⟩]
  simp only [State.clientReply, if_true, State.beforeLine, hcount]
  exact congrArg _ (State.clientNextLine_phase (s.beforeLine (j + 1) rest more) _ _)

/-- `OK` lines that wait on `TXQ`, and what follows them. -/
def okLines (m : Nat) (rest : Bytes) : Bytes := (List.range m).flatMap (fun _ => litOk ++ [eol]) ++ rest

theorem okLines_succ (m : Nat) (rest : Bytes) : okLines (m + 1) rest = litOk ++ eol :: okLines m rest := by
  simp [okLines, List.range_succ_eq_map, List.flatMap_map]

/-- After `YES` and `j` times `OK` the host is before line `j`. -/
theorem run_transmit {s : State} {k n : Nat} {rest : Bytes} {more : List EnvEvent} (hc : 0 < s.cfg.chunkRaw)
    (hn : n = chunkCount s.cfg.chunkRaw s.client.payload) (hphase : s.client.phase = .handshake k)
    (htxq : s.txq = litYes ++ eol :: okLines n rest) (henv : s.env = List.replicate (n + 1) .hostRead ++ more)
    (j : Nat) (hj : j ≤ n) :
    core.run (j + 1) s = .next ((s.beforeLine j (okLines (n - j) rest)
      (List.replicate (n - j) .hostRead ++ more)).clientNextLine (s.textFrom j)) := by
  induction j with
  | zero =>
    rw [run_succ 0 (step_hostRead_yes hphase htxq henv), run_zero]
    rfl
  | succ j ih =>
    obtain ⟨m, hm, hm'⟩ : ∃ m, n - j = m + 1 ∧ n - (j + 1) = m := ⟨n - (j + 1), by omega, rfl⟩
    have hstep := step_hostRead_ok hc (hn ▸ hj) (okLines m rest) (List.replicate m .hostRead ++ more)
    rw [run_add 1 (ih (Nat.le_of_succ_le hj)), hm, hm', okLines_succ, List.replicate_succ, List.cons_append,
      run_succ 0 hstep, run_zero]

/-- Settles O40: the lines by cutting the payload, the phase by the host's loop. -/
theorem chunkLinesCoverPayload : Obligations.ChunkLinesCoverPayload := by
  intro s p line c n k rest more hcfg hc hp hn hline
  obtain rfl : line = chunkLine c p := funext hline
  obtain rfl : n = chunkCount c p := hn
  refine ⟨⟨flatMap_chunkLine hc p, chunkLines_eq hc p, fun i _ => length_chunkLine c p i⟩,
    fun hphase htxq henv j hj => ?_⟩
  subst hcfg hp
  have htxq' : s.txq = litYes ++ eol :: okLines (chunkCount s.cfg.chunkRaw s.client.payload) rest := by
    simpa [okLines, eol] using htxq
  refine ⟨_, run_transmit hc rfl hphase htxq' henv j hj, ?_⟩
  by_cases hlt : j < chunkCount s.cfg.chunkRaw s.client.payload
  · rw [State.clientNextLine_send hc hlt, Nat.min_eq_left hlt, if_pos hlt]
    exact ⟨rfl, rfl, rfl, rfl, rfl⟩
  · obtain rfl : j = chunkCount s.cfg.chunkRaw s.client.payload := by omega
    rw [State.clientNextLine_done hc hlt, Nat.min_eq_right (Nat.le_succ _), if_neg hlt]
    exact ⟨rfl, rfl, rfl, rfl, rfl⟩

end Machine

end Sys2Proof
end

section
/-! PROOFS. Unit FC (spec/40_frame_codec.md R121 to R126): quantization by thresholds, the four fields of a packed byte,
and the row-major runs of a raster. -/

namespace Sys2Proof

open Machine (sampleAt)

/-! ### Quantization (R121, R125) -/

/-- What a larger sample is below, a smaller one is below too, under either reading of equality. -/
theorem belowThreshold_of_le {up : Bool} {v w : Byte} {t : Nat} (hvw : v.toNat ≤ w.toNat)
    (hw : belowThreshold up w t = true) : belowThreshold up v t = true := by
  cases up
  · exact decide_eq_true (hvw.trans (of_decide_eq_true hw))
  · exact decide_eq_true (hvw.trans_lt (of_decide_eq_true hw))

/-- The level of a sample is the place of the first threshold that it is below, so a smaller sample finds its first
threshold no later; the order of the thresholds does not matter. -/
theorem fcQuant_mono (p : Params) {v w : Byte} (hvw : v.toNat ≤ w.toNat) :
    (fcQuant p v).toNat ≤ (fcQuant p w).toNat := by
  have hbelow (t : Nat) : belowThreshold p.qUpper w t = true → belowThreshold p.qUpper v t = true :=
    belowThreshold_of_le hvw
  unfold fcQuant
  by_cases h1 : belowThreshold p.qUpper v p.t1 = true
  · simp [h1]
  · rw [if_neg h1, if_neg (mt (hbelow _) h1)]
    by_cases h2 : belowThreshold p.qUpper v p.t2 = true
    · rw [if_pos h2]
      split_ifs <;> decide
    · rw [if_neg h2, if_neg (mt (hbelow _) h2)]
      by_cases h3 : belowThreshold p.qUpper v p.t3 = true
      · rw [if_pos h3]
        split_ifs <;> decide
      · rw [if_neg h3, if_neg (mt (hbelow _) h3)]

/-- With the thresholds of R7 and equality upward (D8) the level counts the whole 64s of the sample. -/
theorem fcQuant_eq_top_bits {p : Params} (h1 : p.t1 = 64) (h2 : p.t2 = 128) (h3 : p.t3 = 192) (hq : p.qUpper = true)
    (v : Byte) : fcQuant p v = v.extractLsb' 6 2 := by
  apply BitVec.eq_of_toNat_eq
  have hbits : (v.extractLsb' 6 2).toNat = v.toNat / 64 % 4 := by
    rw [BitVec.extractLsb'_toNat, Nat.shiftRight_eq_div_pow]
  rw [hbits]
  simp only [fcQuant, belowThreshold, h1, h2, h3, hq, if_true, decide_eq_true_eq]
  split_ifs <;> simp <;> omega

/-! ### The fields of a packed byte (R122, R126) -/

theorem fieldLevel_or (a b : Byte) (k : BitPos) : fieldLevel (a ||| b) k = fieldLevel a k ||| fieldLevel b k :=
  BitVec.extractLsb'_or

/-- A level that is put into one field is read back from it, and from no other. -/
theorem fieldLevel_shiftLeft (l : Level) (k k' : BitPos) :
    fieldLevel (l.setWidth 8 <<< k.shift) k' = if k = k' then l else 0 := by
  revert l
  cases k <;> cases k' <;> decide

theorem PackPos.wf_iff (q : PackPos) : q.wf = true ↔
    q.k0 ≠ q.k1 ∧ q.k0 ≠ q.k2 ∧ q.k0 ≠ q.k3 ∧ q.k1 ≠ q.k2 ∧ q.k1 ≠ q.k3 ∧ q.k2 ≠ q.k3 := by
  simp [PackPos.wf, and_assoc]

theorem fcUnpack_fcPack {q : PackPos} (h : q.wf = true) (l0 l1 l2 l3 : Level) :
    fcUnpack q (fcPack q l0 l1 l2 l3) = (l0, l1, l2, l3) := by
  obtain ⟨h01, h02, h03, h12, h13, h23⟩ := q.wf_iff.mp h
  simp [fcUnpack, fcPack, fieldLevel_or, fieldLevel_shiftLeft, h01, h02, h03, h12, h13, h23, h01.symm, h02.symm,
    h03.symm, h12.symm, h13.symm, h23.symm]

/-- There are as many bytes as runs of four levels, so the left inverse of packing is its right inverse too. -/
theorem fcPack_fcUnpack {q : PackPos} (h : q.wf = true) (b : Byte) :
    fcPack q (fcUnpack q b).1 (fcUnpack q b).2.1 (fcUnpack q b).2.2.1 (fcUnpack q b).2.2.2 = b := by
  have hleft : Function.LeftInverse (fcUnpack q) fun l => fcPack q l.1 l.2.1 l.2.2.1 l.2.2.2 :=
    fun l => fcUnpack_fcPack h l.1 l.2.1 l.2.2.1 l.2.2.2
  have hcard (n : Nat) : Fintype.card (BitVec n) = 2 ^ n := by
    rw [← FinEnum.card_eq_fintypeCard, FinEnum.card_bitVec]
  exact hleft.rightInverse_of_card_le (by simp [hcard]) b

/-! ### The runs of a raster (R51, R123) -/

theorem packRuns_map_range (q : PackPos) (n : Nat) (f : Nat → Level) :
    packRuns q ((List.range (4 * n)).map f) =
      (List.range n).map fun a => fcPack q (f (4 * a)) (f (4 * a + 1)) (f (4 * a + 2)) (f (4 * a + 3)) := by
  induction n generalizing f with
  | zero => rfl
  | succ n ih =>
    have hlevels : (List.range (4 * (n + 1))).map f =
        f 0 :: f 1 :: f 2 :: f 3 :: (List.range (4 * n)).map fun i => f (i + 4) := by
      simp [Nat.mul_succ, List.range_succ_eq_map, Function.comp_def]
    rw [hlevels, packRuns, ih, List.range_succ_eq_map]
    simp [Function.comp_def, Nat.mul_succ, Nat.add_right_comm]

/-- Row-major order: where every row is `w` long, index `i` of the rows in one is column `i % w` of row `i / w`. -/
theorem getD_flatten {α : Type} {w : Nat} (hw : 0 < w) (rows : List (List α)) (h : ∀ row ∈ rows, row.length = w)
    (d : α) (i : Nat) : rows.flatten.getD i d = (rows.getD (i / w) []).getD (i % w) d := by
  induction rows generalizing i with
  | nil => simp
  | cons row rows ih =>
    obtain ⟨rfl, htail⟩ := List.forall_mem_cons.mp h
    rw [List.flatten_cons]
    by_cases hi : i < row.length
    · rw [List.getD_append _ _ _ _ hi, Nat.div_eq_of_lt hi, Nat.mod_eq_of_lt hi]
      rfl
    · rw [Nat.not_lt] at hi
      rw [List.getD_append_right _ _ _ _ hi, ih htail, Nat.div_eq_sub_div hw hi, Nat.mod_eq_sub_mod hi]
      rfl

theorem Raster.wf_iff (r : Raster) : r.wf = true ↔ r.rows.length = r.height ∧ ∀ row ∈ r.rows, row.length = r.width := by
  simp [Raster.wf]

/-- The samples of a raster in row-major order. -/
theorem Raster.flatten_rows {r : Raster} (h : r.wf = true) :
    r.rows.flatten = (List.range (r.width * r.height)).map (sampleAt r) := by
  obtain ⟨hrows, hcols⟩ := r.wf_iff.mp h
  have hlen : r.rows.flatten.length = r.width * r.height := by
    rw [List.length_flatten, List.map_congr_left hcols, List.map_const', List.sum_replicate, hrows, smul_eq_mul,
      Nat.mul_comm]
  refine List.ext_getElem (by simp [hlen]) fun i hi _ => ?_
  have hw : 0 < r.width := Nat.pos_of_mul_pos_right (hlen ▸ Nat.zero_lt_of_lt hi)
  rw [List.getElem_map, List.getElem_range, sampleAt, ← getD_flatten hw r.rows hcols, List.getD_eq_getElem _ _ hi]

/-- Byte `a` of an encoded raster: the packed levels of the samples 4a to 4a+3. -/
def packedRun (p : Params) (r : Raster) (a : Nat) : Byte :=
  fcPack p.packPos (fcQuant p (sampleAt r (4 * a))) (fcQuant p (sampleAt r (4 * a + 1)))
    (fcQuant p (sampleAt r (4 * a + 2))) (fcQuant p (sampleAt r (4 * a + 3)))

theorem fcEncode_of_wf {p : Params} {r : Raster} (hppb : p.ppb = 4) (hr : r.wf = true)
    (hsize : r.width * r.height = 4 * p.frameSize) :
    fcEncode p r = .ok ((List.range p.frameSize).map (packedRun p r)) := by
  simp only [fcEncode, Raster.flatten_rows hr, hsize, hppb, List.length_map, List.length_range, ne_eq, not_true_eq_false,
    if_false, List.map_map, packRuns_map_range]
  rfl

theorem fcEncode_of_size_ne {p : Params} {r : Raster} (h : r.width * r.height ≠ p.ppb * p.frameSize) :
    fcEncode p r = .error .sizeMismatch :=
  if_pos h

namespace Machine

theorem exec_fcQuant (v : Byte) (s : State) : exec (.fcQuant v) s = .next { s with port := .level (fcQuant s.cfg v) } :=
  rfl

theorem exec_fcPack (l0 l1 l2 l3 : Level) (s : State) :
    exec (.fcPack l0 l1 l2 l3) s = .next { s with port := .byte (fcPack s.cfg.packPos l0 l1 l2 l3) } := rfl

theorem exec_fcEncode_ok {s : State} {r : Raster} {out : Bytes} (h : fcEncode s.cfg r = .ok out) :
    exec (.fcEncode r) s = .next { s with port := .bytes out } := by
  simp [exec, execFcEncode, h]

theorem exec_fcEncode_error {s : State} {r : Raster} (h : fcEncode s.cfg r = .error .sizeMismatch) :
    exec (.fcEncode r) s = .next { s with port := .sizeMismatch } := by
  simp [exec, execFcEncode, h]

/-- Settles O1: both sides count the whole 64s of the sample. -/
theorem quantLevelIsTopTwoBits : Obligations.QuantLevelIsTopTwoBits := by
  intro s v h1 h2 h3 hq
  rw [exec_fcQuant, fcQuant_eq_top_bits h1 h2 h3 hq]

/-- Settles O2: a smaller sample finds its first threshold no later. -/
theorem quantIsMonotonic : Obligations.QuantIsMonotonic :=
  fun s v w _ hvw => ⟨_, _, exec_fcQuant v s, exec_fcQuant w s, fcQuant_mono s.cfg hvw⟩

/-- Settles O3: the fields do not overlap, so unpacking undoes packing; the other direction is by counting. -/
theorem packIsBijection : Obligations.PackIsBijection := by
  intro s hq
  refine ⟨fun l0 l1 l2 l3 => ⟨_, exec_fcPack l0 l1 l2 l3 s, fcUnpack_fcPack hq l0 l1 l2 l3⟩, fun b => ?_⟩
  rw [exec_fcPack, fcPack_fcUnpack hq]

/-- Settles O4: the samples in row-major order, then four levels to a byte. -/
theorem encodePacksRowMajorRuns : Obligations.EncodePacksRowMajorRuns := by
  intro s r hppb hr hsize
  refine ⟨_, exec_fcEncode_ok (fcEncode_of_wf hppb hr hsize), by simp, fun a ha => ?_⟩
  rw [List.getElem?_map, List.getElem?_range ha]
  rfl

/-- Settles O5: the first test of `FC.ENCODE`. -/
theorem encodeSizeMismatch : Obligations.EncodeSizeMismatch :=
  fun _ _ h => exec_fcEncode_error (fcEncode_of_size_ne h)

end Machine

end Sys2Proof
end

section
/-! PROOFS. Unit HX (spec/41_hex_codec.md R141 to R147): the two tables of R143 are the ones of the codec, and the text and
the bytes of `HX.ENCODE` and `HX.DECODE` position by position. -/

namespace Sys2Proof

open Machine (lowerDigits digitValue)

/-! ### The tables of R143 -/

theorem hexCh_eq_lowerDigits (n : Nibble) : hexCh n = lowerDigits.getD n.toNat 0 := by
  revert n
  decide

theorem digitValue_eq_hexVal (up : Bool) (ch : Byte) : digitValue up ch = (hexVal up ch).map BitVec.toNat := by
  revert up ch
  decide

theorem digitValue_eq_none_iff {up : Bool} {ch : Byte} : digitValue up ch = none ↔ hexVal up ch = none := by
  rw [digitValue_eq_hexVal, Option.map_eq_none_iff]

/-- High nibble first (D11). -/
theorem joinNibbles_eq_ofNat (hi lo : Nibble) : joinNibbles hi lo = BitVec.ofNat 8 (16 * hi.toNat + lo.toNat) := by
  revert hi lo
  decide

/-! ### The text of bytes -/

theorem hxEncByte_eq_lowerDigits (b : Byte) :
    hxEncByte b = [lowerDigits.getD (b.toNat / 16) 0, lowerDigits.getD (b.toNat % 16) 0] := by
  have hhigh : (b.extractLsb' 4 4).toNat = b.toNat / 16 := by
    rw [BitVec.extractLsb'_toNat, Nat.shiftRight_eq_div_pow]
    omega
  have hlow : (b.extractLsb' 0 4).toNat = b.toNat % 16 := by simp
  rw [hxEncByte, hexCh_eq_lowerDigits, hexCh_eq_lowerDigits, hhigh, hlow]

theorem hxEncode_eq_lowerDigits (p : Bytes) :
    hxEncode p = p.flatMap (fun b => [lowerDigits.getD (b.toNat / 16) 0, lowerDigits.getD (b.toNat % 16) 0]) := by
  rw [hxEncode, funext hxEncByte_eq_lowerDigits]

theorem hexCh_mem_lowerDigits (n : Nibble) : hexCh n ∈ lowerDigits := by
  revert n
  decide

theorem mem_lowerDigits_of_mem_hxEncode {p : Bytes} {ch : Byte} (h : ch ∈ hxEncode p) : ch ∈ lowerDigits := by
  obtain ⟨n, rfl⟩ := mem_hxEncode h
  exact hexCh_mem_lowerDigits n

theorem hxEncode_append (p q : Bytes) : hxEncode (p ++ q) = hxEncode p ++ hxEncode q :=
  List.flatMap_append

/-! ### The bytes of text -/

theorem length_hxPairs (up : Bool) (text : Bytes) : (hxPairs up text).length = text.length / 2 := by
  fun_induction hxPairs up text with
  | case1 c0 c1 t ih =>
    simp only [List.length_cons, ih]
    omega
  | case2 t hshort =>
    match t with
    | [] => rfl
    | [_] => simp
    | c0 :: c1 :: t => exact absurd rfl (hshort c0 c1 t)

/-- Byte `j` comes from the characters `2j` and `2j + 1` (R145). -/
theorem getElem?_hxPairs {up : Bool} {text : Bytes} {j : Nat} (hj : j < (hxPairs up text).length) :
    (hxPairs up text)[j]? = some (joinNibbles ((hexVal up (text.getD (2 * j) 0)).getD 0)
      ((hexVal up (text.getD (2 * j + 1) 0)).getD 0)) := by
  fun_induction hxPairs up text generalizing j with
  | case1 c0 c1 t ih =>
    cases j with
    | zero => rfl
    | succ j => simpa [Nat.mul_succ] using ih (Nat.lt_of_succ_lt_succ hj)
  | case2 t hshort => exact absurd hj (Nat.not_lt_zero j)

/-- When `HX.DECODE` fails: odd length, or a character without a value (R145). -/
theorem hxDecode_error_iff {up : Bool} {text : Bytes} : hxDecode up text = .error .invalidHex ↔
    text.length % 2 = 1 ∨ ∃ ch ∈ text, digitValue up ch = none := by
  simp [hxDecode, digitValue_eq_none_iff, or_iff_not_imp_left]

/-- Every position of a text without a character of no value holds a digit. -/
theorem exists_hexVal_getD {up : Bool} {text : Bytes} (hdigits : ∀ ch ∈ text, (hexVal up ch).isSome) {k : Nat}
    (hk : k < text.length) : ∃ n, hexVal up (text.getD k 0) = some n := by
  rw [List.getD_eq_getElem text 0 hk]
  exact Option.isSome_iff_exists.mp (hdigits _ (List.getElem_mem hk))

/-- What `HX.DECODE` answers, byte by byte (R145). -/
theorem getElem?_of_hxDecode {up : Bool} {text b : Bytes} (h : hxDecode up text = .ok b) {j : Nat} (hj : j < b.length) :
    ∃ hi lo, digitValue up (text.getD (2 * j) 0) = some hi ∧ digitValue up (text.getD (2 * j + 1) 0) = some lo ∧
      b[j]? = some (BitVec.ofNat 8 (16 * hi + lo)) := by
  obtain ⟨-, hdigits, rfl⟩ := hxDecode_ok_iff.mp h
  have hlen := length_hxPairs up text
  obtain ⟨hi, hhi⟩ := exists_hexVal_getD hdigits (k := 2 * j) (by omega)
  obtain ⟨lo, hlo⟩ := exists_hexVal_getD hdigits (k := 2 * j + 1) (by omega)
  refine ⟨hi.toNat, lo.toNat, by rw [digitValue_eq_hexVal, hhi]; rfl, by rw [digitValue_eq_hexVal, hlo]; rfl, ?_⟩
  rw [getElem?_hxPairs hj, hhi, hlo, Option.getD_some, Option.getD_some, joinNibbles_eq_ofNat]

theorem length_of_hxDecode {up : Bool} {text b : Bytes} (h : hxDecode up text = .ok b) :
    2 * b.length = text.length := by
  obtain ⟨heven, -, rfl⟩ := hxDecode_ok_iff.mp h
  rw [length_hxPairs]
  omega

namespace Machine

theorem exec_hxEncByte (b : Byte) (s : State) : exec (.hxEncByte b) s = .next { s with port := .bytes (hxEncByte b) } :=
  rfl

theorem exec_hxEncode (p : Bytes) (s : State) : exec (.hxEncode p) s = .next { s with port := .bytes (hxEncode p) } :=
  rfl

theorem exec_hxDecode_ok {s : State} {text b : Bytes} (h : hxDecode s.cfg.hexUpperOk text = .ok b) :
    exec (.hxDecode text) s = .next { s with port := .bytes b } := by
  simp [exec, execHxDecode, h]

theorem exec_hxDecode_error {s : State} {text : Bytes} (h : hxDecode s.cfg.hexUpperOk text = .error .invalidHex) :
    exec (.hxDecode text) s = .next { s with port := .invalidHex } := by
  simp [exec, execHxDecode, h]

/-- Settles O7: the digits byte by byte, so concatenating and cutting act on pairs. -/
theorem hexTextOfBytes : Obligations.HexTextOfBytes := fun s p q =>
  ⟨hxEncode p, exec_hxEncode p s, hxEncode_eq_lowerDigits p, length_hxEncode p,
    fun _ => mem_lowerDigits_of_mem_hxEncode, hxEncode_append p q,
    fun n => ⟨(take_hxEncode n p).symm, (drop_hxEncode n p).symm⟩⟩

/-- Settles O9: the two tests of `HX.DECODE`, then the pairs by position. -/
theorem decodeByTable : Obligations.DecodeByTable := by
  intro s text
  split
  case isTrue hbad => exact exec_hxDecode_error (hxDecode_error_iff.mpr hbad)
  case isFalse hgood =>
    cases h : hxDecode s.cfg.hexUpperOk text with
    | error e => exact absurd (hxDecode_error_iff.mp h) hgood
    | ok b => exact ⟨b, exec_hxDecode_ok h, length_of_hxDecode h, fun _ => getElem?_of_hxDecode h⟩

/-- Settles O10: the digit of a value and the value of a digit undo each other, up to letter case. -/
theorem hexRoundTrip : Obligations.HexRoundTrip :=
  fun up => ⟨hxDecode_hxEncode up, fun _ _ => hxEncode_of_hxDecode⟩

/-- Settles O6: the quotient and the remainder by 16 are the two nibbles. -/
theorem encByteTwoDigits : Obligations.EncByteTwoDigits := by
  intro s b
  rw [exec_hxEncByte, hxEncByte_eq_lowerDigits]

/-- Settles O8: the two values by the table of R143, the first one times 16. -/
theorem decPairByTable : Obligations.DecPairByTable := by
  intro s c0 c1
  rw [digitValue_eq_hexVal, digitValue_eq_hexVal]
  simp only [exec, execHxDecPair, hxDecPair]
  cases hexVal s.cfg.hexUpperOk c0 with
  | none => rfl
  | some hi =>
    cases hexVal s.cfg.hexUpperOk c1 with
    | none => rfl
    | some lo => simp [joinNibbles_eq_ofNat]

end Machine

end Sys2Proof
end

section
/-! PROOFS. What an operation of the device answers where it is enabled (spec/42_transfer_server.md R160 to R180): the
registers it tests, the line it reads, and the state it leaves as a whole. -/

namespace Sys2Proof.Machine

/-! ### The shared operations in the words of the statements -/

theorem whenEnabled_eq {b : Bool} (h : b = true) (t : State) : whenEnabled b t = .next t := by
  rw [h, whenEnabled_true]

theorem State.tx_eq_replied (s : State) (c : Bytes) : s.tx c = s.replied c := by
  simp [State.tx, State.replied, eol]

/-- The errors of a session report themselves and end it (R231, R232, R234). -/
theorem State.raise_sessionError (s : State) {e : DevError}
    (h : e = .decodeError ∨ e = .overflowError ∨ ∃ f, e = .displayDriverError f) :
    s.raise e = { s.replied (e.line s.cfg) with busy := false, state := .waitQuery } := by
  rw [← State.tx_eq_replied]
  obtain rfl | rfl | ⟨f, rfl⟩ := h
  · rfl
  · rfl
  · rfl

/-- An operation of a reading state, on a line of its class, acts on the state with that line consumed. -/
theorem onLine_line {st : DevState} {s : State} {c rest : Bytes} {isClass : Bytes → Bool} (act : State → Outcome)
    (hst : s.state = st) (h : s.Line c rest) (hc : isClass c = true) :
    onLine st s isClass act = act (s.consumed c rest) := by
  obtain ⟨raw, hs, rfl, hlen⟩ := h
  rw [← hst, onLine_eq act hs hlen hc]
  rfl

/-! ### `Boot` and `SignalReady` -/

/-- Settles O14, answer by answer. -/
theorem allocAnswered : Obligations.AllocAnswered := by
  intro s hst hvalid
  have henabled : s.awaitsAlloc = true := by simp [State.awaitsAlloc, hst, hvalid]
  exact ⟨whenEnabled_eq henabled _, (whenEnabled_eq henabled _).trans (congrArg _ (s.tx_eq_replied litErrMem))⟩

/-- Settles O15: `STATE` and `FB_VALID` enable the operation. -/
theorem bootLeaves : Obligations.BootLeaves := by
  intro s hst hvalid
  exact whenEnabled_eq (by simp [hst, hvalid]) _

/-- Settles O16: `STATE` and the count enable the operation. -/
theorem indicatorToggles : Obligations.IndicatorToggles := by
  intro s hst hlt
  exact whenEnabled_eq (by simp [hst, hlt]) _

/-- Settles O17: `STATE` and the full count enable the operation. -/
theorem signalReadyEnds : Obligations.SignalReadyEnds := by
  intro s hst hdone
  exact whenEnabled_eq (by simp [hst, hdone]) _

/-! ### `WaitQuery` and `Receiving` -/

/-- Settles O19: the registers and the empty queue enable the poll. -/
theorem idlePollsChangeNothing : Obligations.IdlePollsChangeNothing := by
  intro s hs
  have hnone : s.noLine = true := by simp [State.noLine, hs]
  exact ⟨fun hst => whenEnabled_eq (by simp [hst, hnone]) s, fun hst => whenEnabled_eq (by simp [hst, hnone]) s⟩

/-- The set `WS` of R87, byte by byte. -/
theorem isWs_iff (b : Byte) : isWs b = true ↔ b ∈ ([0x20, 0x09, 0x0D] : Bytes) := by
  simp [isWs, or_assoc]

theorem eol_not_ws : isWs eol = false := by decide

/-- A line whose ends are bytes of `WS` and whose middle is `c`, with no byte of `WS` at its own ends (R85, R87). -/
theorem State.line_of_between {s : State} {before c after rest : Bytes}
    (hq : s.rxq = before ++ c ++ after ++ [0x0A] ++ rest) (hb : ∀ b ∈ before, isWs b = true)
    (ha : ∀ b ∈ after, isWs b = true) (heol : eol ∉ c) (hf : ∀ b, c.head? = some b → isWs b = false)
    (hl : ∀ b, c.getLast? = some b → isWs b = false) (hlen : c.length ≤ s.cfg.lineMax) : s.Line c rest := by
  have hws : ∀ l : Bytes, (∀ b ∈ l, isWs b = true) → eol ∉ l := fun l h hmem => by
    simpa [eol_not_ws] using h eol hmem
  refine ⟨before ++ c ++ after, splitLine_some.mpr ⟨?_, ?_⟩, trim_between hb ha hf hl, hlen⟩
  · simp [hws before hb, hws after ha, heol]
  · simpa [eol] using hq

/-- Settles O23: the line is of the class of `WQ.OTHER`. -/
theorem otherLinesIgnored : Obligations.OtherLinesIgnored := by
  intro s c rest hst hline hne hcan
  exact onLine_line .next hst hline (by simp [hne, hcan])

/-- Settles O20: a blank line is one with an empty middle; any other is the line of `WQ.OTHER`. -/
theorem blankLinesConsumed : Obligations.BlankLinesConsumed := by
  constructor
  · intro s raw rest hq hraw
    have hline : s.Line [] rest := State.line_of_between (before := raw) (after := []) (by simpa using hq)
      (fun b hb => (isWs_iff b).mpr (hraw b hb)) (by simp) (by simp) (by simp) (by simp) (Nat.zero_le _)
    exact ⟨fun hst => onLine_line .next hst hline rfl, fun hst => onLine_line .next hst hline rfl⟩
  · intro s before after c rest first last hst hq hws heol hfirst hf hlast hl hlen hcan
    have hends : ∀ b ∈ before ++ after, isWs b = true := fun b hb => (isWs_iff b).mpr (hws b hb)
    rw [← isWs_iff, Bool.not_eq_true] at hf hl
    have hline : s.Line c rest := State.line_of_between hq (fun b hb => hends b (by simp [hb]))
      (fun b hb => hends b (by simp [hb])) heol (by simp [hfirst, hf]) (by simp [hlast, hl]) hlen
    have hne : c ≠ [] := by
      rintro rfl
      cases hfirst
    exact otherLinesIgnored s c rest hst hline hne hcan

/-- Settles O21: with `BUSY = 0` the line is of the class of `WQ.CAN_SEND`. -/
theorem handshakeGranted : Obligations.HandshakeGranted := by
  intro s rest hst hbusy hline
  refine (onLine_line _ hst hline (by simp [hbusy])).trans ?_
  rw [State.tx_eq_replied]
  rfl

/-- Settles O22: with `BUSY = 1` the line is of the class of `WQ.CAN_SEND.BUSY`. -/
theorem handshakeRefused : Obligations.HandshakeRefused := by
  intro s rest hst hbusy hline
  refine (onLine_line _ hst hline (by simp [hbusy])).trans ?_
  rw [State.tx_eq_replied]

/-- The state after an accepted chunk, in the words of the statements. -/
theorem State.stored_eq (s : State) (raw rest b : Bytes) : s.stored raw rest b =
    { (s.consumed (trim raw) rest).replied litOk with
      pos := BitVec.ofNat 17 (s.pos.toNat + b.length), fb := s.fb.write s.pos.toNat b } := by
  rw [← State.tx_eq_replied]
  rfl

/-- A chunk that leaves the frame incomplete is stored at the cursor (R172). -/
theorem exec_rxChunk_eq {s : State} {raw rest b : Bytes} (hread : s.Reads .receiving raw rest) (hne : trim raw ≠ [])
    (hb : hxDecode s.cfg.hexUpperOk (trim raw) = .ok b) (hlt : s.pos.toNat + b.length < s.cfg.frameSize) :
    exec (.rxChunk b) s = .next (s.stored raw rest b) := by
  obtain ⟨hst, hs, hlen⟩ := hread
  have hclass : isChunk s.cfg b (trim raw) = true := isChunk_iff.mpr ⟨hne, hb⟩
  exact (onLine_line _ hst ⟨raw, hs, rfl, hlen⟩ (by simp [hclass, hlt])).trans
    (State.storeChunk_eq (s := s.took raw rest) id hlt.le)

/-- A chunk that completes the frame is stored, and the refresh starts (R173). -/
theorem exec_rxChunkLast_eq {s : State} {raw rest b : Bytes} (hread : s.Reads .receiving raw rest) (hne : trim raw ≠ [])
    (hb : hxDecode s.cfg.hexUpperOk (trim raw) = .ok b) (hlast : s.pos.toNat + b.length = s.cfg.frameSize) :
    exec (.rxChunkLast b) s = .next { s.stored raw rest b with rphase := .init, state := .refresh } := by
  obtain ⟨hst, hs, hlen⟩ := hread
  have hclass : isChunk s.cfg b (trim raw) = true := isChunk_iff.mpr ⟨hne, hb⟩
  exact (onLine_line _ hst ⟨raw, hs, rfl, hlen⟩ (by simp [hclass, hlast])).trans
    (State.storeChunk_eq (s := s.took raw rest) _ hlast.le)

/-- Settles O24: the store by a read after it, the cursor because FRAME_SIZE fits it. -/
theorem chunkStored : Obligations.ChunkStored := by
  intro s c rest b hst hsize hline hne hb hlt
  obtain ⟨raw, hs, rfl, hlen⟩ := hline
  refine ⟨_, _, ?_, State.stored_pos raw rest hsize hlt.le, s.stored_read raw rest b⟩
  rw [exec_rxChunk_eq ⟨hst, hs, hlen⟩ hne hb hlt, State.stored_eq]

/-- Settles O25, as O24; the cursor is at FRAME_SIZE. -/
theorem lastChunkStartsRefresh : Obligations.LastChunkStartsRefresh := by
  intro s c rest b hst hsize hline hne hb hlast
  obtain ⟨raw, hs, rfl, hlen⟩ := hline
  refine ⟨_, _, ?_, (State.stored_pos raw rest hsize hlast.le).trans hlast, hlast ▸ s.stored_read raw rest b⟩
  rw [exec_rxChunkLast_eq ⟨hst, hs, hlen⟩ hne hb hlast, State.stored_eq]

/-- Settles O27: the error ends the session before any store. -/
theorem overflowAborts : Obligations.OverflowAborts := by
  intro s c rest b hst hline hne hb hover
  have hclass : isChunk s.cfg b c = true := isChunk_iff.mpr ⟨hne, hb⟩
  exact (onLine_line _ hst hline (by simp [hclass, hover])).trans
    (congrArg _ ((s.consumed c rest).raise_sessionError (.inr (.inl rfl))))

/-! ### `Refresh` and `Fatal` -/

/-- The three calls of the driver, each in its phase, whatever the answer (R176 to R178). -/
theorem exec_rfInit_eq {s : State} (r : DriverAnswer) (hst : s.state = .refresh) (hph : s.rphase = .init) :
    exec (.rfInit r) s = .next (s.driverCall .init r (fun t => { t with rphase := .display })) :=
  whenEnabled_eq (by simp [State.awaitsDriver, hst, hph]) _

theorem exec_rfDisplay_eq {s : State} (r : DriverAnswer) (hst : s.state = .refresh) (hph : s.rphase = .display) :
    exec (.rfDisplay r) s = .next (s.driverCall (.display ((List.range s.cfg.frameSize).map s.fb.read)) r
      (fun t => { t with rphase := .sleep })) :=
  (execRfDisplay_eq r s).trans (whenEnabled_eq (by simp [State.awaitsDriver, hst, hph]) _)

theorem exec_rfSleep_eq {s : State} (r : DriverAnswer) (hst : s.state = .refresh) (hph : s.rphase = .sleep) :
    exec (.rfSleep r) s = .next (s.driverCall .sleep r (fun t => (t.tx litDone).endSession)) :=
  whenEnabled_eq (by simp [State.awaitsDriver, hst, hph]) _

/-- Settles O29: the frame handed over is `FB`, address by address. -/
theorem refreshAdvances : Obligations.RefreshAdvances := by
  intro s hst
  refine ⟨exec_rfInit_eq .ok hst, fun hph => ⟨_, exec_rfDisplay_eq .ok hst hph, by simp, fun a ha => ?_⟩⟩
  simp [ha]

/-- Settles O30, answer by answer. -/
theorem sleepEndsSession : Obligations.SleepEndsSession := by
  intro s hst hph
  refine ⟨(exec_rfSleep_eq .ok hst hph).trans ?_, fun f => (exec_rfSleep_eq (.fail f) hst hph).trans ?_⟩
  · simp only [State.driverCall, State.tx_eq_replied]
    rfl
  · exact congrArg _ (State.raise_sessionError _ (.inr (.inr ⟨f, rfl⟩)))

/-- Settles O33: `STATE` alone enables the operation. -/
theorem fatalBlinks : Obligations.FatalBlinks := by
  intro s hst
  exact whenEnabled_eq (by simp [hst]) _

end Sys2Proof.Machine
end

section
/-! PROOFS. The transition table (spec/42_transfer_server.md R182): the STATE columns and the history of every
instruction, and what follows for every step while a session is active (R186) and in `Fatal` (R180, R235). -/

namespace Sys2Proof.Machine

/-! ### The columns of the table -/

/-- The columns STATE and "next STATE" of R182. -/
theorem exec_transition {i : Instr} {s t : State} (h : exec i s = .next t) :
    enabledIn i s.state ∧ t.state = nextState i s.state := by
  cases i with
  | fcQuant _ | fcPack _ _ _ _ | fcEncode _ | hxEncByte _ | hxEncode _ | hxDecPair _ _ | hxDecode _ | msgYes | msgBusy
  | msgOk | msgErrOverflow | msgErr _ | msgErrDisp _ | msgErrMem | msgDone | msgFatal _ | msgReady =>
    exact ⟨trivial, exec_changesOnly_writes h .state (by simp [writes])⟩
  | btAlloc r =>
    obtain ⟨hst, -, ⟨-, rfl⟩ | ⟨-, rfl⟩⟩ := execBtAlloc_next h
    · exact ⟨hst, rfl⟩
    · exact ⟨hst, rfl⟩
  | btLeave =>
    obtain ⟨hst, -, rfl⟩ := execBtLeave_next h
    exact ⟨hst, rfl⟩
  | srToggle =>
    obtain ⟨hst, -, rfl⟩ := execSrToggle_next h
    exact ⟨hst, rfl⟩
  | srDone =>
    obtain ⟨hst, -, rfl⟩ := execSrDone_next h
    exact ⟨hst, rfl⟩
  | wqIdle =>
    obtain ⟨hst, rfl⟩ := execWqIdle_next h
    exact ⟨hst, rfl⟩
  | wqBlank =>
    obtain ⟨raw, rest, ⟨hst, -⟩, -, rfl⟩ := execWqBlank_next h
    exact ⟨hst, rfl⟩
  | wqCanSend =>
    obtain ⟨raw, rest, ⟨hst, -⟩, -, -, rfl⟩ := execWqCanSend_next h
    exact ⟨hst, rfl⟩
  | wqCanSendBusy =>
    obtain ⟨raw, rest, ⟨hst, -⟩, -, -, rfl⟩ := execWqCanSendBusy_next h
    exact ⟨hst, rfl⟩
  | wqOther c =>
    obtain ⟨raw, rest, ⟨hst, -⟩, -, -, -, rfl⟩ := execWqOther_next h
    exact ⟨hst, rfl⟩
  | rxIdle =>
    obtain ⟨hst, rfl⟩ := execRxIdle_next h
    exact ⟨hst, rfl⟩
  | rxBlank =>
    obtain ⟨raw, rest, ⟨hst, -⟩, -, rfl⟩ := execRxBlank_next h
    exact ⟨hst, rfl⟩
  | rxChunk b =>
    obtain ⟨raw, rest, hst, -, -, rfl⟩ := execRxChunk_stored h
    exact ⟨hst, rfl⟩
  | rxChunkLast b =>
    obtain ⟨raw, rest, hst, -, -, rfl⟩ := execRxChunkLast_stored h
    exact ⟨hst, rfl⟩
  | rxBadHex c =>
    obtain ⟨raw, rest, ⟨hst, -⟩, -, -, -, rfl⟩ := execRxBadHex_next h
    exact ⟨hst, rfl⟩
  | rxOverflow b =>
    obtain ⟨raw, rest, ⟨hst, -⟩, -, -, -, rfl⟩ := execRxOverflow_next h
    exact ⟨hst, rfl⟩
  | rfInit r =>
    obtain ⟨hst, -, ⟨rfl, rfl⟩ | ⟨f, rfl, rfl⟩⟩ := execRfInit_next h
    · exact ⟨hst, rfl⟩
    · exact ⟨hst, rfl⟩
  | rfDisplay r =>
    obtain ⟨hst, -, ⟨rfl, rfl⟩ | ⟨f, rfl, rfl⟩⟩ := execRfDisplay_next h
    · exact ⟨hst, rfl⟩
    · exact ⟨hst, rfl⟩
  | rfSleep r =>
    obtain ⟨hst, -, ⟨rfl, rfl⟩ | ⟨f, rfl, rfl⟩⟩ := execRfSleep_next h
    · exact ⟨hst, rfl⟩
    · exact ⟨hst, rfl⟩
  | ftEnter u =>
    obtain ⟨hst, rfl⟩ := execFtEnter_next h
    exact ⟨hst, rfl⟩
  | ftBlink =>
    obtain ⟨hst, rfl⟩ := execFtBlink_next h
    exact ⟨hst, rfl⟩

/-- Settles O49, column by column. -/
theorem transitionTable : Obligations.TransitionTable := by
  intro i s t h
  obtain ⟨henabled, hnext⟩ := exec_transition h
  exact ⟨henabled, hnext, fun hi => exec_txq hi h⟩

/-! ### The history -/

/-- What sends a line writes the history. -/
theorem linesSent_eq_nil_of_hist {i : Instr} (p : Params) (h : Field.hist ∉ writes i) : linesSent p i = [] := by
  cases i with
  | btAlloc r | rfInit r | rfDisplay r | rfSleep r => cases r <;> simp_all [writes, linesSent]
  | _ => simp_all [writes, linesSent]

/-- The history grows by the line read, if the instruction reads one, and by the lines sent (R35, R182). -/
theorem exec_hist {i : Instr} {s t : State} (h : exec i s = .next t) :
    ∃ read : List Bytes, t.hist = s.hist ++ (read.map .received ++ (linesSent s.cfg i).map .sent) := by
  by_cases hq : Field.hist ∈ writes i
  · cases i with
    | btAlloc r =>
      obtain ⟨-, -, ⟨rfl, rfl⟩ | ⟨rfl, rfl⟩⟩ := execBtAlloc_next h
      · exact ⟨[], by simp [linesSent]⟩
      · exact ⟨[], by simp [linesSent, DevError.line]⟩
    | wqBlank =>
      obtain ⟨raw, rest, -, -, rfl⟩ := execWqBlank_next h
      exact ⟨[trim raw], rfl⟩
    | wqCanSend =>
      obtain ⟨raw, rest, -, -, -, rfl⟩ := execWqCanSend_next h
      exact ⟨[trim raw], by simp [linesSent]⟩
    | wqCanSendBusy =>
      obtain ⟨raw, rest, -, -, -, rfl⟩ := execWqCanSendBusy_next h
      exact ⟨[trim raw], by simp [linesSent]⟩
    | wqOther c =>
      obtain ⟨raw, rest, -, -, -, -, rfl⟩ := execWqOther_next h
      exact ⟨[trim raw], rfl⟩
    | rxBlank =>
      obtain ⟨raw, rest, -, -, rfl⟩ := execRxBlank_next h
      exact ⟨[trim raw], rfl⟩
    | rxChunk b =>
      obtain ⟨raw, rest, -, -, -, -, rfl⟩ := execRxChunk_next h
      exact ⟨[trim raw], by simp [linesSent]⟩
    | rxChunkLast b =>
      obtain ⟨raw, rest, -, -, -, -, rfl⟩ := execRxChunkLast_next h
      exact ⟨[trim raw], by simp [linesSent]⟩
    | rxBadHex c =>
      obtain ⟨raw, rest, -, -, -, -, rfl⟩ := execRxBadHex_next h
      exact ⟨[trim raw], by simp [linesSent, DevError.line]⟩
    | rxOverflow b =>
      obtain ⟨raw, rest, -, -, -, -, rfl⟩ := execRxOverflow_next h
      exact ⟨[trim raw], by simp [linesSent, DevError.line]⟩
    | rfInit r =>
      obtain ⟨-, -, ⟨rfl, rfl⟩ | ⟨f, rfl, rfl⟩⟩ := execRfInit_next h
      · exact ⟨[], by simp [linesSent]⟩
      · exact ⟨[], by simp [linesSent, DevError.line]⟩
    | rfDisplay r =>
      obtain ⟨-, -, ⟨rfl, rfl⟩ | ⟨f, rfl, rfl⟩⟩ := execRfDisplay_next h
      · exact ⟨[], by simp [linesSent]⟩
      · exact ⟨[], by simp [linesSent, DevError.line]⟩
    | rfSleep r =>
      obtain ⟨-, -, ⟨rfl, rfl⟩ | ⟨f, rfl, rfl⟩⟩ := execRfSleep_next h
      · exact ⟨[], by simp [linesSent]⟩
      · exact ⟨[], by simp [linesSent, DevError.line]⟩
    | ftEnter u =>
      obtain ⟨-, rfl⟩ := execFtEnter_next h
      exact ⟨[], by simp [linesSent, DevError.line]⟩
    | _ => simp [writes] at hq
  · have hsame : t.hist = s.hist := exec_changesOnly_writes h .hist hq
    exact ⟨[], by simp [hsame, linesSent_eq_nil_of_hist s.cfg hq]⟩

/-! ### While a session is active -/

/-- `YES` is sent by the grant alone: every other line of the table differs from it in a byte of its literal (R84). -/
theorem eq_wqCanSend_of_yes_mem {p : Params} {i : Instr} (h : litYes ∈ linesSent p i) : i = .wqCanSend := by
  cases i with
  | wqCanSend => rfl
  | btAlloc r | rfInit r | rfDisplay r | rfSleep r =>
    cases r <;> simp [linesSent, litYes, litErrMem, litErrDisp, litDone] at h
  | _ => simp [linesSent, litYes, litBusy, litOk, litErr, litErrOverflow, litFatal] at h

/-- The grant tests `BUSY` (R166), so with `BUSY = 1` no instruction sends `YES`. -/
theorem exec_busy_no_yes {i : Instr} {s t : State} (hbusy : s.busy = true) (h : exec i s = .next t) :
    ∃ new, t.hist = s.hist ++ new ∧ LinkEvent.sent litYes ∉ new := by
  obtain ⟨read, hhist⟩ := exec_hist h
  refine ⟨_, hhist, fun hmem => ?_⟩
  have hyes : litYes ∈ linesSent s.cfg i := by simpa using hmem
  obtain rfl := eq_wqCanSend_of_yes_mem hyes
  obtain ⟨raw, rest, -, -, hfree, -⟩ := execWqCanSend_next h
  rw [hbusy] at hfree
  cases hfree

/-- Settles O53: an instruction sends no `YES`, and a reset or the host adds nothing to the history. -/
theorem noYesWhileBusy : Obligations.NoYesWhileBusy := by
  intro s t hbusy hstep
  obtain ⟨s', rfl, hcases⟩ := step_cases hstep
  have nothing : ∃ new, s.hist = s.hist ++ new ∧ LinkEvent.sent litYes ∉ new := ⟨[], by simp⟩
  obtain ⟨i, hx⟩ | ⟨-, rfl⟩ | ⟨out, c, r, rfl⟩ | ⟨raw, rest, -, out, c, r, rfl⟩ := hcases
  · exact exec_busy_no_yes (s := { s with env := s.env.tail }) hbusy hx
  · exact nothing
  · exact nothing
  · exact nothing

/-! ### In `Fatal` -/

/-- What runs in `Fatal`: the blinking, the functions and the host (R182). -/
theorem exec_in_fatal {i : Instr} {s t : State} (hst : s.state = .fatal) (h : exec i s = .next t) :
    i = .ftBlink ∨ i.isFunc = true ∨ i.isMessage = true := by
  obtain ⟨henabled, -⟩ := exec_transition h
  rw [hst] at henabled
  cases i with
  | ftBlink => exact .inl rfl
  | fcQuant _ | fcPack _ _ _ _ | fcEncode _ | hxEncByte _ | hxEncode _ | hxDecPair _ _ | hxDecode _ =>
    exact .inr (.inl rfl)
  | msgYes | msgBusy | msgOk | msgErrOverflow | msgErr _ | msgErrDisp _ | msgErrMem | msgDone | msgFatal _ | msgReady =>
    exact .inr (.inr rfl)
  | _ => simp [enabledIn] at henabled

/-- The host appends to `RXQ` (R29, R203). -/
theorem exec_message_rxq {i : Instr} {s t : State} (hi : i.isMessage = true) (h : exec i s = .next t) :
    s.rxq <+: t.rxq := by
  obtain ⟨c, -, hc⟩ := exec_message hi s
  obtain ⟨raw, rest, -, -, -, rfl⟩ := State.clientReceive_next (hc.symm.trans h)
  obtain ⟨out, cl, hr⟩ := State.clientReply_frame { s with txq := rest } c
  rw [hr]
  exact List.prefix_append _ _

theorem State.ChangesOnly.mono {fs gs : List Field} {s t : State} (h : State.ChangesOnly fs s t) (hsub : fs ⊆ gs) :
    State.ChangesOnly gs s t := fun f hf => h f fun hmem => hf (hsub hmem)

/-- What runs in `Fatal` writes `IND`, the function interface, or what the host holds, and takes no byte off `RXQ`. -/
theorem exec_in_fatal_changesOnly {i : Instr} {s t : State} (hst : s.state = .fatal) (h : exec i s = .next t) :
    State.ChangesOnly [.ind, .port, .txq, .rxq, .client] s t ∧ s.rxq <+: t.rxq := by
  obtain rfl | hi | hi := exec_in_fatal hst h
  · obtain ⟨-, rfl⟩ := execFtBlink_next h
    exact ⟨by simp [State.changesOnly_iff], List.prefix_rfl⟩
  · obtain ⟨r, hr⟩ := exec_func hi s
    cases hr.symm.trans h
    exact ⟨by simp [State.changesOnly_iff], List.prefix_rfl⟩
  · exact ⟨(exec_message_changesOnly hi h).mono (by decide), exec_message_rxq hi h⟩

/-- Settles O55: no instruction that runs in `Fatal` writes what the statement names, and the host appends to `RXQ`. -/
theorem fatalIsTerminal : Obligations.FatalIsTerminal := by
  intro s t hst hreset hstep
  obtain ⟨s', rfl, hcases⟩ := step_cases hstep
  obtain ⟨i, hx⟩ | ⟨hhead, -⟩ | ⟨out, c, r, rfl⟩ | ⟨raw, rest, -, out, c, r, rfl⟩ := hcases
  · obtain ⟨hsame, hrxq⟩ := exec_in_fatal_changesOnly (s := { s with env := s.env.tail }) hst hx
    have hstate : t.state = s.state := hsame .state (by decide)
    have hfb : t.fb = s.fb := hsame .fb (by decide)
    exact ⟨hstate.trans hst, hsame .hist (by decide), hrxq, hsame .pos (by decide), hsame .busy (by decide),
      fun a => by rw [hfb]⟩
  · exact absurd hhead hreset
  · exact ⟨hst, rfl, List.prefix_append _ _, rfl, rfl, fun _ => rfl⟩
  · exact ⟨hst, rfl, List.prefix_append _ _, rfl, rfl, fun _ => rfl⟩

end Sys2Proof.Machine
end

section
/-! PROOFS. What a step chooses (spec/42_transfer_server.md R184, spec/30_encoding.md R89, R101): the oldest line, the
registers or the answer of the environment select one operation, and that operation answers (R169, R185). -/

namespace Sys2Proof.Machine

/-! ### The oldest line of a reading state -/

/-- The states that read lines (R89). -/
abbrev State.Reading (s : State) : Prop := s.state = .waitQuery ∨ s.state = .receiving

/-- In a reading state a content is no instruction exactly when it is over LINE_MAX (R89, R95(e)). -/
theorem State.decode_error_iff {s : State} {c : Bytes} {e : DecodeError} (hread : s.Reading) :
    decode s.cfg s.reader c = .error e ↔ e = .lineTooLong ∧ s.cfg.lineMax < c.length := by
  by_cases hnil : c = []
  · obtain hst | hst := hread
    · simp [State.reader, decode, hst, decodeQuery, hnil]
    · simp [State.reader, decode, hst, decodeChunk, hnil]
  · by_cases hlen : s.cfg.lineMax < c.length
    · obtain hst | hst := hread
      · simp [State.reader, decode, hst, decodeQuery, hnil, hlen, eq_comm]
      · simp [State.reader, decode, hst, decodeChunk, hnil, hlen, eq_comm]
    · obtain hst | hst := hread
      · simp only [State.reader, decode, hst, decodeQuery, hnil, hlen, if_false, and_false, iff_false]
        split_ifs <;> simp
      · simp only [State.reader, decode, hst, decodeChunk, hnil, hlen, if_false, and_false, iff_false]
        cases hxDecode s.cfg.hexUpperOk c with
        | error e => simp
        | ok b => dsimp only; split_ifs <;> simp

/-- What a content decodes to in a reading state is a line that the operations may read. -/
theorem State.line_of_decode {s : State} {raw rest : Bytes} {i : Instr} (hread : s.Reading)
    (hs : splitLine s.rxq = some (raw, rest)) (hd : decode s.cfg s.reader (trim raw) = .ok i) :
    s.Line (trim raw) rest := by
  refine ⟨raw, hs, rfl, Nat.le_of_not_lt fun hlen => ?_⟩
  rw [(State.decode_error_iff hread).mpr ⟨rfl, hlen⟩] at hd
  cases hd

/-- The choice of a reading state, by its oldest line. -/
theorem State.readChoice_none {s : State} (idle : Instr) (hs : splitLine s.rxq = none) :
    s.readChoice idle = .run idle s := by
  simp [State.readChoice, State.rxLine, hs]

theorem State.readChoice_ok {s : State} {raw rest : Bytes} {i : Instr} (idle : Instr)
    (hs : splitLine s.rxq = some (raw, rest)) (hd : decode s.cfg s.reader (trim raw) = .ok i) :
    s.readChoice idle = .run i s := by
  simp [State.readChoice, State.rxLine_eq hs, hd]

theorem State.readChoice_error {s : State} {raw rest : Bytes} {e : DecodeError} (idle : Instr)
    (hs : splitLine s.rxq = some (raw, rest)) (hd : decode s.cfg s.reader (trim raw) = .error e) :
    s.readChoice idle = .refuse .lineTooLong := by
  simp [State.readChoice, State.rxLine_eq hs, hd]

theorem State.deviceChoice_reading {s : State} (hread : s.Reading) : ∃ idle, s.deviceChoice = s.readChoice idle := by
  obtain hst | hst := hread
  · exact ⟨.wqIdle, by simp [State.deviceChoice, hst]⟩
  · exact ⟨.rxIdle, by simp [State.deviceChoice, hst]⟩

/-- The line that a device in a reading state runs. -/
theorem State.deviceChoice_line {s : State} {raw rest : Bytes} {i : Instr} (hread : s.Reading)
    (hs : splitLine s.rxq = some (raw, rest)) (hd : decode s.cfg s.reader (trim raw) = .ok i) :
    s.deviceChoice = .run i s := by
  obtain ⟨idle, hc⟩ := State.deviceChoice_reading hread
  exact hc.trans (State.readChoice_ok idle hs hd)

/-- An awake host runs the message that it finds on `TXQ` (log entries 16, 18). -/
theorem State.hostReadChoice_message {s : State} {raw rest : Bytes} {i : Instr} (hawake : s.clientAsleep = false)
    (hs : splitLine s.txq = some (raw, rest)) (hd : decode s.cfg .host (trim raw) = .ok i) :
    s.hostReadChoice = .run i s := by
  simp [State.hostReadChoice, hawake, State.txLine_eq hs, hd]

theorem State.clientAsleep_eq_false {s : State} (h : ∀ k, s.client.phase ≠ .backoff k) : s.clientAsleep = false := by
  unfold State.clientAsleep
  split
  · next k hph => exact absurd hph (h k)
  all_goals rfl

/-- Settles O44: the device's line and the host's message are the choices of their turns. -/
theorem stepRunsDecodedLine : Obligations.StepRunsDecodedLine := by
  intro s raw rest i more
  refine ⟨fun hread hs hd => ⟨fun he => ?_, fun he => ?_⟩, fun hs hd hawake he => ?_⟩
  · exact step_run ((choice_nil he).trans (State.deviceChoice_line hread hs hd))
  · exact step_run ((choice_cons he).trans (State.deviceChoice_line (s := { s with env := more }) hread hs hd))
  · exact step_run ((choice_cons he).trans
      (State.hostReadChoice_message (s := { s with env := more }) (State.clientAsleep_eq_false hawake) hs hd))

/-- An operation of a reading state refuses a line over LINE_MAX (R169). -/
theorem onLine_refused {st : DevState} {s : State} {raw rest : Bytes} (isClass : Bytes → Bool) (act : State → Outcome)
    (hst : s.state = st) (hs : splitLine s.rxq = some (raw, rest)) (hlen : s.cfg.lineMax < (trim raw).length) :
    onLine st s isClass act = .refused .lineTooLong := by
  rw [← hst, onLine_overlong isClass act hs hlen]

/-- Settles O28: the decoder gives the line no instruction, and every operation tests its length first. -/
theorem overlongLineRefused : Obligations.OverlongLineRefused := by
  intro s raw rest b c hs hlen
  have hstep : s.Reading → s.env = [] → step s = .refused .lineTooLong := fun hread he => by
    obtain ⟨idle, hc⟩ := State.deviceChoice_reading hread
    have hchoice : s.choice = .refuse .lineTooLong := by
      rw [choice_nil he, hc, State.readChoice_error idle hs ((State.decode_error_iff hread).mpr ⟨rfl, hlen⟩)]
    simp [step, hchoice]
  refine ⟨fun hst => hstep (.inl hst), fun hst => hstep (.inr hst), fun hst => ?_, fun hst => ?_⟩
  · have hop : ∀ isClass act, onLine .waitQuery s isClass act = .refused .lineTooLong :=
      fun isClass act => onLine_refused isClass act hst hs hlen
    exact ⟨hop _ _, hop _ _, hop _ _, hop _ _⟩
  · have hop : ∀ isClass act, onLine .receiving s isClass act = .refused .lineTooLong :=
      fun isClass act => onLine_refused isClass act hst hs hlen
    exact ⟨hop _ _, hop _ _, hop _ _, hop _ _, hop _ _⟩

/-! ### The registers and the answers of the environment -/

/-- With nothing from the environment, the device's own operation runs. -/
theorem step_device {s : State} {i : Instr} (he : s.env = []) (hc : s.deviceChoice = .run i s) : step s = exec i s :=
  step_run ((choice_nil he).trans hc)

/-- Settles O45, register by register. -/
theorem stepRunsStateOperation : Obligations.StepRunsStateOperation := by
  intro s he
  refine ⟨fun hst hvalid => ?_, fun hst hlt => ?_, fun hst hdone => ?_, fun hst hs => ?_, fun hst hs => ?_,
    fun hst => ?_, fun hwait => ?_⟩
  · exact step_device he (by simp [State.deviceChoice, hst, hvalid])
  · exact step_device he (by simp [State.deviceChoice, hst, hlt])
  · exact step_device he (by simp [State.deviceChoice, hst, hdone])
  · exact step_device he (by simp [State.deviceChoice, hst, State.readChoice_none _ hs])
  · exact step_device he (by simp [State.deviceChoice, hst, State.readChoice_none _ hs])
  · exact step_device he (by simp [State.deviceChoice, hst])
  · refine step_settle ((choice_nil he).trans ?_)
    obtain ⟨hst, hvalid⟩ | hst := hwait
    · simp [State.deviceChoice, hst, hvalid]
    · simp [State.deviceChoice, hst]

/-- The answer to the call that the device waits for runs the operation of that call (R176 to R178). -/
theorem step_driver {s : State} {call : RPhase} {r : DriverAnswer} {more : List EnvEvent}
    (he : s.env = .driver call r :: more) (hst : s.state = .refresh) (hph : s.rphase = call) :
    step s = exec (driverInstr call r) { s with env := more } := by
  refine step_run ((choice_cons he).trans ?_)
  simp [State.envChoice, State.awaitsDriver, hst, hph]

/-- Settles O46, event by event. -/
theorem stepRunsEvents : Obligations.StepRunsEvents := by
  intro s more ra call rd u i
  refine ⟨fun he hst hvalid => ?_, fun he hno => ?_, fun he => step_driver he, fun he => step_driver he,
    fun he => step_driver he, fun he hno => ?_, fun he hst => ?_, fun he hst => ?_, fun he hi => ?_⟩
  · refine step_run ((choice_cons he).trans ?_)
    simp [State.envChoice, State.awaitsAlloc, hst, hvalid]
  · refine step_settle ((choice_cons he).trans ?_)
    obtain hno | hno := hno
    · simp [State.envChoice, State.awaitsAlloc, hno]
    · simp [State.envChoice, State.awaitsAlloc, hno]
  · refine step_settle ((choice_cons he).trans ?_)
    obtain hno | hno := hno
    · simp [State.envChoice, State.awaitsDriver, hno]
    · simp [State.envChoice, State.awaitsDriver, hno]
  · refine step_run ((choice_cons he).trans ?_)
    simp [State.envChoice, hst]
  · refine step_settle ((choice_cons he).trans ?_)
    simp [State.envChoice, hst]
  · refine step_run ((choice_cons he).trans ?_)
    simp [State.envChoice, hi]

/-! ### What is chosen answers -/

/-- A line that the model gives no meaning to is at the head of `RXQ`, and the device reads lines (R169). -/
def State.OverlongLine (s : State) : Prop :=
  s.Reading ∧ ∃ raw rest, splitLine s.rxq = some (raw, rest) ∧ s.cfg.lineMax < (trim raw).length

/-- What a choice made in a state may be: an instruction that answers a next state there, no instruction, the refusal of
an over-long line, or the stop at a toggle count that R20 does not allow (log entry 20). -/
def State.Sound (s : State) : Choice → Prop
  | .run i t => ∃ u, exec i t = .next u
  | .settle _ => True
  | .refuse r => r = .lineTooLong ∧ s.OverlongLine
  | .stop f => f = .noOperation ∧ s.state = .signalReady ∧ s.cfg.nToggle < s.tcnt

/-- The row that a line selects in `WaitQuery` answers. -/
theorem exec_query_answers {s : State} {c rest : Bytes} {i : Instr} (hst : s.state = .waitQuery) (hline : s.Line c rest)
    (hd : decodeQuery s.cfg s.busy c = .ok i) : ∃ u, exec i s = .next u := by
  simp only [decodeQuery] at hd
  split_ifs at hd with hnil hlen hcan hbusy <;> cases hd
  · exact ⟨_, onLine_line .next hst hline (by simp [hnil])⟩
  · exact ⟨_, handshakeRefused s rest hst hbusy (hcan ▸ hline)⟩
  · exact ⟨_, handshakeGranted s rest hst (by simpa using hbusy) (hcan ▸ hline)⟩
  · exact ⟨_, otherLinesIgnored s c rest hst hline hnil hcan⟩

/-- The row that a line selects in `Receiving` answers: a store that it asks for is inside `FB` (R53). -/
theorem exec_chunk_answers {s : State} {c rest : Bytes} {i : Instr} (hst : s.state = .receiving) (hline : s.Line c rest)
    (hd : decodeChunk s.cfg s.pos.toNat c = .ok i) : ∃ u, exec i s = .next u := by
  have ⟨raw, hs, htrim, hmax⟩ := hline
  subst htrim
  have hread : s.Reads .receiving raw rest := ⟨hst, hs, hmax⟩
  simp only [decodeChunk] at hd
  split_ifs at hd with hnil hlen
  · cases hd
    exact ⟨_, onLine_line .next hst hline (by simp [hnil])⟩
  · split at hd
    · next e hbad =>
      cases hd
      exact ⟨_, onLine_line _ hst hline (by simp [hnil, notHex, hbad])⟩
    · next b hb =>
      split_ifs at hd with hover hlast <;> cases hd
      · exact ⟨_, overflowAborts s _ rest b hst hline hnil hb hover⟩
      · exact ⟨_, exec_rxChunkLast_eq hread hnil hb hlast⟩
      · exact ⟨_, exec_rxChunk_eq hread hnil hb (by omega)⟩

theorem State.readChoice_sound {s : State} {idle : Instr} (hread : s.Reading)
    (hidle : splitLine s.rxq = none → exec idle s = .next s) : s.Sound (s.readChoice idle) := by
  cases hs : splitLine s.rxq with
  | none =>
    rw [State.readChoice_none idle hs]
    exact ⟨s, hidle hs⟩
  | some line =>
    obtain ⟨raw, rest⟩ := line
    cases hd : decode s.cfg s.reader (trim raw) with
    | error e =>
      rw [State.readChoice_error idle hs hd]
      obtain ⟨-, hlen⟩ := (State.decode_error_iff hread).mp hd
      exact ⟨rfl, hread, raw, rest, hs, hlen⟩
    | ok i =>
      rw [State.readChoice_ok idle hs hd]
      have hline := State.line_of_decode hread hs hd
      obtain hst | hst := hread
      · rw [State.reader, hst] at hd
        exact exec_query_answers hst hline hd
      · rw [State.reader, hst] at hd
        exact exec_chunk_answers hst hline hd

/-- With the poll for the empty queue (R164, R170), the line or the registers select the device's own move. -/
theorem State.deviceChoice_sound (s : State) : s.Sound s.deviceChoice := by
  unfold State.deviceChoice
  split
  case h_1 hst =>
    cases hvalid : s.fbValid with
    | false => exact trivial
    | true => exact ⟨_, bootLeaves s hst hvalid⟩
  case h_2 hst =>
    split_ifs with hlt hdone
    · exact ⟨_, indicatorToggles s hst hlt⟩
    · exact ⟨_, signalReadyEnds s hst hdone⟩
    · exact ⟨rfl, hst, by omega⟩
  case h_3 hst => exact State.readChoice_sound (.inl hst) fun hs => (idlePollsChangeNothing s hs).1 hst
  case h_4 hst => exact State.readChoice_sound (.inr hst) fun hs => (idlePollsChangeNothing s hs).2 hst
  case h_5 => exact trivial
  case h_6 hst => exact ⟨_, fatalBlinks s hst⟩

/-- The host's reading of the message that it found completes. -/
theorem State.hostReadChoice_sound (s : State) : s.Sound s.hostReadChoice := by
  unfold State.hostReadChoice
  split
  · exact trivial
  · next hawake =>
    split
    · exact trivial
    · next c t htx =>
      split
      · next i hd =>
        refine ⟨t.clientReply c, ?_⟩
        rw [exec_decoded_message hd, State.clientReceive, htx]
        exact whenEnabled_eq (by simpa using hawake) _
      · exact trivial

/-- An answer is given to the operation that waits for it only, a fault outside `Fatal` only (R101, R239). -/
theorem State.envChoice_sound (s : State) (e : EnvEvent) : s.Sound (s.envChoice e) := by
  cases e with
  | dts => exact s.deviceChoice_sound
  | hostRead => exact s.hostReadChoice_sound
  | alloc r =>
    simp only [State.envChoice]
    split_ifs with hwait
    · exact ⟨_, whenEnabled_eq hwait _⟩
    · exact trivial
  | driver call r =>
    simp only [State.envChoice]
    split_ifs with hwait
    · simp only [State.awaitsDriver, Bool.and_eq_true, beq_iff_eq] at hwait
      obtain ⟨hst, hph⟩ := hwait
      cases call with
      | init => exact ⟨_, exec_rfInit_eq r hst hph⟩
      | display => exact ⟨_, exec_rfDisplay_eq r hst hph⟩
      | sleep => exact ⟨_, exec_rfSleep_eq r hst hph⟩
    · exact trivial
  | ufault u =>
    simp only [State.envChoice]
    split_ifs with hst
    · exact trivial
    · exact ⟨_, whenEnabled_eq (by simpa using hst) _⟩
  | call i =>
    simp only [State.envChoice]
    split_ifs with hi
    · obtain ⟨r, hr⟩ := exec_func hi s
      exact ⟨_, hr⟩
    · exact trivial
  | reset | hostBytes _ | hostOpen _ | hostOpenRaster _ | hostTimeout | hostWake | hostAbandon => exact trivial

theorem State.choice_sound (s : State) : s.Sound s.choice := by
  cases he : s.env with
  | nil => exact choice_nil he ▸ s.deviceChoice_sound
  | cons e more => exact choice_cons he ▸ State.envChoice_sound { s with env := more } e

/-- Everything a step can answer, from any state (R169, R184). -/
theorem step_answers (s : State) : (∃ t, step s = .next t) ∨ (step s = .refused .lineTooLong ∧ s.OverlongLine) ∨
    (step s = .fault .noOperation ∧ s.state = .signalReady ∧ s.cfg.nToggle < s.tcnt) := by
  have hsound := s.choice_sound
  unfold step
  cases hc : s.choice with
  | run i t => exact .inl (by rwa [hc] at hsound)
  | settle t => exact .inl ⟨t, rfl⟩
  | refuse r =>
    rw [hc] at hsound
    obtain ⟨rfl, hline⟩ := hsound
    exact .inr (.inl ⟨rfl, hline⟩)
  | stop f =>
    rw [hc] at hsound
    obtain ⟨rfl, hst, htcnt⟩ := hsound
    exact .inr (.inr ⟨rfl, hst, htcnt⟩)

/-- Settles O52: of the three answers of a step the invariants exclude the stop, and the other two are named. -/
theorem stepNeverStops : Obligations.StepNeverStops := by
  constructor
  · intro s h
    obtain hnext | ⟨hrefused, hread, hline⟩ | ⟨-, -, htcnt⟩ := step_answers s
    · exact .inl hnext
    · exact .inr ⟨hrefused, hread, hline⟩
    · exact absurd h.toggles (Nat.not_le.mpr htcnt)
  · intro s
    obtain ⟨t, hstep⟩ | ⟨hstep, -⟩ | ⟨hstep, -⟩ := step_answers s
    · rw [hstep]
      exact ⟨nofun, nofun⟩
    · rw [hstep]
      exact ⟨nofun, nofun⟩
    · rw [hstep]
      exact ⟨nofun, nofun⟩

end Sys2Proof.Machine
end

section
/-! PROOFS. A whole session (spec/42_transfer_server.md R186): the grant, the chunk lines one by one, and the three
answers of the driver. -/

namespace Sys2Proof.Machine

/-! ### One line, one step -/

/-- A device in its turn runs the line at the head of `RXQ`. -/
theorem step_line {s : State} {c rest : Bytes} {i : Instr} {more : List EnvEvent} (hread : s.Reading)
    (hs : splitLine s.rxq = some (c, rest)) (htrim : trim c = c) (he : s.env = .dts :: more)
    (hd : decode s.cfg s.reader c = .ok i) : step s = exec i { s with env := more } :=
  ((stepRunsDecodedLine s c rest i more).1 hread hs (htrim.symm ▸ hd)).2 he

/-- The state after a grant: `rest` is left on `RXQ`, `more` of the environment (R166). -/
def State.granted (s : State) (rest : Bytes) (more : List EnvEvent) : State :=
  { (s.consumed litCanSend rest).replied litYes with busy := true, pos := 0, state := .receiving, env := more }

@[simp] theorem State.granted_pos (s : State) (rest : Bytes) (more : List EnvEvent) :
    (s.granted rest more).pos.toNat = 0 := rfl

/-- `CAN_SEND` in `WaitQuery` opens a session (R166). -/
theorem step_grant {s : State} {rest : Bytes} {more : List EnvEvent} (hp : s.cfg.wf = true) (hst : s.state = .waitQuery)
    (hbusy : s.busy = false) (hrxq : s.rxq = litCanSend ++ eol :: rest) (he : s.env = .dts :: more) :
    step s = .next (s.granted rest more) := by
  have hs : splitLine s.rxq = some (litCanSend, rest) := hrxq ▸ splitLine_append rest (by decide)
  have htrim : trim litCanSend = litCanSend := by decide
  have hd : decode s.cfg s.reader litCanSend = .ok .wqCanSend := by
    rw [State.reader, hst, hbusy]
    exact decodeQuery_encode (i := .wqCanSend) (pos := s.pos.toNat) hp rfl rfl rfl
  rw [step_line (.inl hst) hs htrim he hd]
  exact handshakeGranted { s with env := more } rest hst hbusy ⟨litCanSend, hs, htrim, canSend_fits hp⟩

/-! ### Accepted chunks -/

/-- Chunk data is at least one byte (R88). -/
theorem chunkWf_ne_nil {p : Params} {b : Bytes} (h : chunkWf p b = true) : b ≠ [] := by
  rintro rfl
  simp [chunkWf] at h

/-- What the chunks `chunks`, accepted one after the other, do to the device between `s` and `t`: their data is in `FB` in
a row from the cursor on, the cursor is behind it, an `OK` for each is on `TXQ`, and no driver call has been made. -/
structure State.Accepted (s : State) (chunks : List Bytes) (t : State) : Prop where
  cfg : t.cfg = s.cfg
  pos : t.pos.toNat = s.pos.toNat + chunks.flatten.length
  read : ∀ a, t.fb.read a = if s.pos.toNat ≤ a ∧ a < s.pos.toNat + chunks.flatten.length
    then chunks.flatten[a - s.pos.toNat]? else s.fb.read a
  txq : t.txq = s.txq ++ chunks.flatMap fun _ => litOk ++ [eol]
  drvCalls : t.drvCalls = s.drvCalls

/-- One chunk, whether it completes the frame or not. -/
theorem State.accepted_stored {s : State} {b : Bytes} (raw rest : Bytes) (more : List EnvEvent) (rp : RPhase)
    (st : DevState) (hsize : s.cfg.frameSize < 2 ^ 17) (hfit : s.pos.toNat + b.length ≤ s.cfg.frameSize) :
    s.Accepted [b] { s.stored raw rest b with rphase := rp, state := st, env := more } where
  cfg := rfl
  pos := by simpa using State.stored_pos raw rest hsize hfit
  read := by simpa using s.stored_read raw rest b
  txq := by simp [State.stored]
  drvCalls := rfl

/-- Some chunks, then others. -/
theorem State.Accepted.append {s u t : State} {first more : List Bytes} (h : s.Accepted first u)
    (h' : u.Accepted more t) : s.Accepted (first ++ more) t := by
  constructor
  case cfg => exact h'.cfg.trans h.cfg
  case pos => rw [h'.pos, h.pos, List.flatten_append, List.length_append, Nat.add_assoc]
  case read =>
    intro a
    rw [h'.read, h.read, h.pos, List.flatten_append, List.length_append]
    by_cases hlate : s.pos.toNat + first.flatten.length ≤ a
    · have hrow : s.pos.toNat + first.flatten.length ≤ a ∧
            a < s.pos.toNat + first.flatten.length + more.flatten.length ↔
          s.pos.toNat ≤ a ∧ a < s.pos.toNat + (first.flatten.length + more.flatten.length) := by omega
      rw [List.getElem?_append_right (by omega), Nat.sub_sub]
      simp only [hrow, hlate.not_gt, and_false, if_false]
    · by_cases hin : s.pos.toNat ≤ a
      · rw [if_neg (by omega), if_pos (by omega), if_pos (by omega), List.getElem?_append_left (by omega)]
      · rw [if_neg (by omega), if_neg (by omega), if_neg (by omega)]
  case txq => rw [h'.txq, h.txq, List.flatMap_append, List.append_assoc]
  case drvCalls => exact h'.drvCalls.trans h.drvCalls

/-- A chunk line that fits is accepted; if it completes the frame, the refresh starts (R172, R173). -/
theorem step_chunkLine {s : State} {b rest : Bytes} {more : List EnvEvent} (hsize : s.cfg.frameSize < 2 ^ 17)
    (hst : s.state = .receiving) (hb : chunkWf s.cfg b = true) (hfit : s.pos.toNat + b.length ≤ s.cfg.frameSize)
    (hrxq : s.rxq = hxEncode b ++ eol :: rest) (he : s.env = .dts :: more) :
    ∃ u, step s = .next u ∧ s.Accepted [b] u ∧ u.rxq = rest ∧ u.env = more ∧
      if s.pos.toNat + b.length = s.cfg.frameSize then u.state = .refresh ∧ u.rphase = .init
      else u.state = .receiving := by
  obtain ⟨htrim, hsplit⟩ := Laws.Framing.framed_hex b
  have hs : splitLine s.rxq = some (hxEncode b, rest) := hrxq ▸ hsplit rest
  have hd : decode s.cfg s.reader (hxEncode b) =
      .ok (if s.pos.toNat + b.length = s.cfg.frameSize then .rxChunkLast b else .rxChunk b) := by
    rw [State.reader, hst]
    exact (decodeChunk_hxEncode s.pos.toNat hb).trans (by rw [if_neg hfit.not_gt])
  rw [step_line (.inr hst) hs htrim he hd]
  have hmax : 2 * b.length ≤ s.cfg.lineMax := by
    simp only [chunkWf, Bool.and_eq_true, decide_eq_true_eq] at hb
    exact hb.2
  have hread : State.Reads { s with env := more } .receiving (hxEncode b) rest :=
    ⟨hst, hs, by rw [htrim, length_hxEncode]; exact hmax⟩
  have hne : trim (hxEncode b) ≠ [] := by
    rw [htrim, Ne, hxEncode_eq_nil]
    exact chunkWf_ne_nil hb
  have hdata : hxDecode s.cfg.hexUpperOk (trim (hxEncode b)) = .ok b := htrim.symm ▸ hxDecode_hxEncode _ b
  split_ifs with hlast
  · exact ⟨_, exec_rxChunkLast_eq hread hne hdata hlast,
      s.accepted_stored (hxEncode b) rest more .init .refresh hsize hfit, rfl, rfl, rfl, rfl⟩
  · exact ⟨_, exec_rxChunk_eq hread hne hdata (Nat.lt_of_le_of_ne hfit hlast),
      s.accepted_stored (hxEncode b) rest more s.rphase s.state hsize hfit, rfl, rfl, hst⟩

/-- The chunk lines that complete the frame, one turn of the device each. -/
theorem run_chunkLines {s : State} {chunks : List Bytes} {rest : Bytes} {more : List EnvEvent}
    (hsize : s.cfg.frameSize < 2 ^ 17) (hst : s.state = .receiving) (hwf : ∀ b ∈ chunks, chunkWf s.cfg b = true)
    (hne : chunks ≠ []) (hfill : s.pos.toNat + chunks.flatten.length = s.cfg.frameSize)
    (hrxq : s.rxq = chunkWire chunks ++ rest) (he : s.env = List.replicate chunks.length .dts ++ more) :
    ∃ t, core.run chunks.length s = .next t ∧ s.Accepted chunks t ∧ t.rxq = rest ∧ t.env = more ∧
      t.state = .refresh ∧ t.rphase = .init := by
  induction chunks generalizing s with
  | nil => exact absurd rfl hne
  | cons b chunks ih =>
    obtain ⟨hb, hwf⟩ := List.forall_mem_cons.mp hwf
    rw [List.flatten_cons, List.length_append] at hfill
    obtain ⟨u, hstep, hu, hurxq, huenv, hust⟩ := step_chunkLine (rest := chunkWire chunks ++ rest) hsize hst hb
      (by omega) (by simpa [chunkWire, eol] using hrxq) he
    by_cases hlast : chunks = []
    · subst hlast
      rw [if_pos (by simpa using hfill)] at hust
      exact ⟨u, run_succ 0 hstep, hu, hurxq, huenv, hust⟩
    · have hmore : 0 < chunks.flatten.length := by
        obtain ⟨d, hd⟩ := List.exists_mem_of_ne_nil chunks hlast
        exact List.length_pos_of_ne_nil fun hnil => chunkWf_ne_nil (hwf d hd) (List.flatten_eq_nil_iff.mp hnil d hd)
      rw [if_neg (by omega)] at hust
      have hupos : u.pos.toNat = s.pos.toNat + b.length := by simpa using hu.pos
      obtain ⟨t, hrun, ht, hend⟩ := ih (by rwa [hu.cfg]) hust (by rwa [hu.cfg]) hlast
        (by rw [hupos, hu.cfg, Nat.add_assoc, hfill]) hurxq huenv
      exact ⟨t, (run_succ _ hstep).trans hrun, hu.append ht, hend⟩

/-! ### The refresh -/

/-- The driver answers `ok` to each of its three calls. -/
def driverOk : List EnvEvent := [.driver .init .ok, .driver .display .ok, .driver .sleep .ok]

/-- Three answers `ok` end the session with `DONE` (R176 to R178). -/
theorem run_refresh {s : State} {more : List EnvEvent} (hst : s.state = .refresh) (hph : s.rphase = .init)
    (he : s.env = driverOk ++ more) :
    core.run 3 s = .next { s.replied litDone with
      busy := false, state := .waitQuery, rphase := .sleep, env := more
      drvCalls := s.drvCalls ++ [.init, .display ((List.range s.cfg.frameSize).map s.fb.read), .sleep] } := by
  calc core.run 3 s
    _ = core.run 2 { s with
        rphase := .display, env := .driver .display .ok :: .driver .sleep .ok :: more
        drvCalls := s.drvCalls ++ [.init] } :=
      run_succ 2 (Eq.trans (step_driver he hst hph) (exec_rfInit_eq .ok hst hph))
    _ = core.run 1 { s with
        rphase := .sleep, env := .driver .sleep .ok :: more
        drvCalls := s.drvCalls ++ [.init] ++ [.display ((List.range s.cfg.frameSize).map s.fb.read)] } :=
      run_succ 1 (Eq.trans (step_driver rfl hst rfl) (exec_rfDisplay_eq .ok hst rfl))
    _ = _ := run_succ 0 (Eq.trans (step_driver rfl hst rfl) (exec_rfSleep_eq .ok hst rfl))
    _ = _ := by simp [run_zero, State.driverCall, State.tx_eq_replied, State.replied, State.endSession]

/-- Memory that holds a byte string from address 0 on, read as `RF.DISPLAY` reads it. -/
theorem Memory.map_read_range {m : Memory} {v : Bytes} {n : Nat} (hn : v.length = n)
    (h : ∀ a, a < n → m.read a = v[a]?) : (List.range n).map m.read = v.map some := by
  refine List.ext_getElem (by simp [hn]) fun a ha _ => ?_
  have han : a < n := by simpa using ha
  simp [h a han, hn ▸ han]

/-- Settles O58: the grant, the chunk lines from cursor 0 on, the refresh. -/
theorem sessionDisplaysFrame : Obligations.SessionDisplaysFrame := by
  intro s chunks rest more hp hst hbusy hlen hfill hrxq he
  obtain ⟨hsome, hsize⟩ := Params.frameSize_of_wf hp
  have hwf : ∀ b ∈ chunks, chunkWf s.cfg b = true := by simpa [chunkWf] using hlen
  have hne : chunks ≠ [] := by
    rintro rfl
    exact hsome.ne hfill
  have hgrant : step s = .next (s.granted (chunkWire chunks ++ rest) (List.replicate chunks.length .dts ++
      (driverOk ++ more))) := by
    refine step_grant hp hst hbusy ?_ ?_
    · simpa [eol] using hrxq
    · simpa [List.replicate_succ, driverOk] using he
  obtain ⟨u, hrun, ⟨hcfg, hpos, hread, htxq, hcalls⟩, hurxq, huenv, hust, huph⟩ :=
    run_chunkLines (rest := rest) (more := driverOk ++ more) (s := s.granted _ _) hsize rfl hwf hne
      ((Nat.zero_add _).trans hfill) rfl rfl
  rw [State.granted_pos, Nat.zero_add, hfill] at hpos
  have hframe : ∀ a, a < s.cfg.frameSize → u.fb.read a = chunks.flatten[a]? := fun a ha => by
    rw [hread a, State.granted_pos, hfill, if_pos (by omega), Nat.sub_zero]
  have hsession := (run_succ (chunks.length + 3) hgrant).trans ((run_add 3 hrun).trans (run_refresh hust huph huenv))
  refine ⟨_, hsession, rfl, rfl, hpos, hurxq, rfl, ?_, ?_, hframe⟩
  · simp [State.granted, State.replied, State.consumed, htxq, eol]
  · have hsame : u.cfg.frameSize = s.cfg.frameSize := congrArg Params.frameSize hcfg
    change u.drvCalls ++ [.init, .display ((List.range u.cfg.frameSize).map u.fb.read), .sleep] = _
    rw [hcalls, hsame, Memory.map_read_range hfill hframe]
    rfl

end Sys2Proof.Machine
end

section
/-! PROOFS. The conforming host (spec/43_host_contract.md R201 to R214): what it does with a reply in each phase of an
attempt, at the end of a wait or of its sleep, and with a raster. -/

namespace Sys2Proof

/-- The host's search for a text in a reply (R208). -/
theorem hasText_iff {text line : Bytes} : hasText text line = true ↔ text <:+: line := by
  induction line with
  | nil => simp [hasText]
  | cons b line ih => simp [hasText, ih, List.infix_cons_iff]

/-- A content that the host finds no message in is none of the replies it looks for (R90). -/
theorem not_reply_of_decodeMessage_error {c : Bytes} {e : DecodeError} (h : decodeMessage c = .error e) :
    c ≠ litYes ∧ c ≠ litBusy ∧ c ≠ litOk ∧ c ≠ litDone ∧ litErr.isPrefixOf c = false ∧
      Machine.carriesReason c = false := by
  simp only [decodeMessage, ite_eq_iff, reduceCtorEq, and_false, false_or] at h
  obtain ⟨hyes, hbusy, hok, -, -, hdone, -, hdisp, herr, -, -⟩ := h
  exact ⟨hyes, hbusy, hok, hdone, Bool.eq_false_iff.mpr herr, by simp [Machine.carriesReason, herr, hdisp]⟩

namespace Machine

/-! ### A reply, phase by phase -/

/-- A message that an awake host reads is taken off `TXQ` and answered (R90). -/
theorem exec_message_eq {s t : State} {c rest : Bytes} {i : Instr} (hawake : s.clientAsleep = false)
    (hc : s.Reply c rest) (hi : i.isMessage = true) (he : encode i = some c)
    (ht : State.clientReply { s with txq := rest } c = t) : exec i s = .next t := by
  obtain ⟨c', he', hx⟩ := exec_message hi s
  obtain rfl : c = c' := Option.some.inj (he.symm.trans he')
  obtain ⟨raw, hs, rfl⟩ := hc
  rw [hx, State.clientReceive, State.txLine_eq hs]
  exact whenEnabled_next.mpr ⟨by simpa using hawake, ht⟩

/-- The host's loop of R203 in the words of the statements. -/
theorem State.clientNextLine_eq_sendsNext (s : State) (text : Bytes) : s.clientNextLine text = s.sendsNext text := by
  unfold State.clientNextLine State.sendsNext
  split
  · rfl
  · simp [State.hostSend, Params.chunkHex, eol]

theorem State.clientReply_handshake_yes {s : State} {k : Nat} (h : s.client.phase = .handshake k) :
    s.clientReply litYes = State.sendsNext { s with
      client := { s.client with bytesSent := 0, totalHexLength := 2 * s.client.payload.length } }
      (hxEncode s.client.payload) := by
  simp [State.clientReply, h, State.clientTransmit, State.clientNextLine_eq_sendsNext, length_hxEncode]

theorem State.clientReply_handshake_busy {s : State} {k : Nat} (h : s.client.phase = .handshake k) :
    s.clientReply litBusy = { s with client := { s.client with phase := .backoff k } } := by
  have hyes : litBusy ≠ litYes := by decide
  have herr : litErr.isPrefixOf litBusy = false := by decide
  simp [State.clientReply, h, hyes, herr]

/-- Any other reply ends a handshake (R201, D30). -/
theorem State.clientReply_handshake_end {s : State} {k : Nat} {r : Bytes} (h : s.client.phase = .handshake k)
    (hyes : (r == litYes) = false) (hbusy : (r == litBusy) = false) :
    s.clientReply r = s.clientClose (if litErr.isPrefixOf r then .deviceError r else .protocolError r) := by
  simp only [beq_eq_false_iff_ne] at hyes hbusy
  cases herr : litErr.isPrefixOf r <;> simp [State.clientReply, h, hyes, hbusy, herr]

theorem State.clientReply_transmit_ok {s : State} {n : Nat} {text : Bytes} (h : s.client.phase = .transmit n text) :
    s.clientReply litOk =
      State.sendsNext { s with client := { s.client with bytesSent := s.client.bytesSent + n } } text := by
  simp [State.clientReply, h, State.clientNextLine_eq_sendsNext]

/-- Any other reply ends the transmit phase (R203, R208, D30). -/
theorem State.clientReply_transmit_end {s : State} {n : Nat} {text r : Bytes} (h : s.client.phase = .transmit n text)
    (hok : (r == litOk) = false) :
    s.clientReply r = s.clientClose (if hasText litErrText r then .deviceError r else .protocolError r) := by
  simp only [beq_eq_false_iff_ne] at hok
  cases herr : hasText litErrText r <;> simp [State.clientReply, h, hok, herr]

theorem State.clientReply_complete_done {s : State} (h : s.client.phase = .complete) :
    s.clientReply litDone = s.clientClose .success := by
  simp [State.clientReply, h]

/-- Any other reply leaves the host waiting; a reason is surfaced (R204, R207; log entry 18). -/
theorem State.clientReply_complete_wait {s : State} {r : Bytes} (h : s.client.phase = .complete)
    (hdone : (r == litDone) = false) :
    s.clientReply r = if carriesReason r then s.clientSurface r else s := by
  simp only [beq_eq_false_iff_ne] at hdone
  simp [State.clientReply, h, hdone]

/-! ### The ten messages, phase by phase

The side conditions on a message evaluate at a byte of its literal, whatever its reason. -/

/-- Settles O34: `YES` and `BUSY` by their own cases, every other message by the end that its literal gives. -/
theorem handshakeReplies : Obligations.HandshakeReplies := by
  intro s c rest k hc hph
  have hawake : s.clientAsleep = false := State.clientAsleep_eq_false (by simp [hph])
  have ends (i : Instr) (hi : i.isMessage = true) (he : encode i = some c) (hyes : (c == litYes) = false)
      (hbusy : (c == litBusy) = false) : exec i s = .next (s.attemptOver rest
        (if litErr.isPrefixOf c then .deviceError c else .protocolError c)) :=
    exec_message_eq hawake hc hi he (State.clientReply_handshake_end hph hyes hbusy)
  refine ⟨?yes, ?busy, ?err, ?errOverflow, ?ok, ?errDisp, ?errMem, ?done, ?fatal, ?ready⟩
  case yes =>
    rintro rfl
    exact exec_message_eq hawake hc rfl rfl (State.clientReply_handshake_yes hph)
  case busy =>
    rintro rfl
    exact exec_message_eq hawake hc rfl rfl (State.clientReply_handshake_busy hph)
  case err => rintro r rfl; exact ends (.msgErr r) rfl rfl rfl rfl
  case errOverflow => rintro rfl; exact ends .msgErrOverflow rfl rfl rfl rfl
  case ok => rintro rfl; exact ends .msgOk rfl rfl rfl rfl
  case errDisp => rintro r rfl; exact ends (.msgErrDisp r) rfl rfl rfl rfl
  case errMem => rintro rfl; exact ends .msgErrMem rfl rfl rfl rfl
  case done => rintro rfl; exact ends .msgDone rfl rfl rfl rfl
  case fatal => rintro r rfl; exact ends (.msgFatal r) rfl rfl rfl rfl
  case ready => rintro rfl; exact ends .msgReady rfl rfl rfl rfl

/-- Settles O35: `OK` by its own case, every other message by whether it holds `ERR`, which a `FATAL:` line
does in its reason only. -/
theorem chunkReplies : Obligations.ChunkReplies := by
  intro s c rest text n hc hph
  have hawake : s.clientAsleep = false := State.clientAsleep_eq_false (by simp [hph])
  have ends (i : Instr) (hi : i.isMessage = true) (he : encode i = some c) (hok : (c == litOk) = false) :
      exec i s = .next (s.attemptOver rest
        (if hasText litErrText c then .deviceError c else .protocolError c)) :=
    exec_message_eq hawake hc hi he (State.clientReply_transmit_end hph hok)
  refine ⟨?ok, ?err, ?errOverflow, ?errDisp, ?errMem, ?yes, ?busy, ?done, ?fatal, ?ready⟩
  case ok =>
    rintro rfl
    exact exec_message_eq hawake hc rfl rfl (State.clientReply_transmit_ok hph)
  case err => rintro r rfl; exact ends (.msgErr r) rfl rfl rfl
  case errOverflow => rintro rfl; exact ends .msgErrOverflow rfl rfl rfl
  case errDisp => rintro r rfl; exact ends (.msgErrDisp r) rfl rfl rfl
  case errMem => rintro rfl; exact ends .msgErrMem rfl rfl rfl
  case yes => rintro rfl; exact ends .msgYes rfl rfl rfl
  case busy => rintro rfl; exact ends .msgBusy rfl rfl rfl
  case done => rintro rfl; exact ends .msgDone rfl rfl rfl
  case fatal =>
    rintro r rfl
    have hreason : hasText litErrText (litFatal ++ r) = hasText litErrText r := rfl
    simpa only [hreason, hasText_iff] using ends (.msgFatal r) rfl rfl rfl
  case ready => rintro rfl; exact ends .msgReady rfl rfl rfl

/-- Settles O36: `DONE` by its own case, every other message by whether it carries a reason. -/
theorem completionReplies : Obligations.CompletionReplies := by
  intro s c rest hc hph
  have hawake : s.clientAsleep = false := State.clientAsleep_eq_false (by simp [hph])
  have waits (i : Instr) (hi : i.isMessage = true) (he : encode i = some c) (hdone : (c == litDone) = false) :
      exec i s = .next (if carriesReason c then s.surfacing c rest else { s with txq := rest }) :=
    exec_message_eq hawake hc hi he (State.clientReply_complete_wait hph hdone)
  refine ⟨?done, ?errDisp, ?fatal, ?err, ?errOverflow, ?errMem, ?yes, ?busy, ?ok, ?ready⟩
  case done =>
    rintro rfl
    exact exec_message_eq hawake hc rfl rfl (State.clientReply_complete_done hph)
  case errDisp => rintro r rfl; exact waits (.msgErrDisp r) rfl rfl rfl
  case fatal => rintro r rfl; exact waits (.msgFatal r) rfl rfl rfl
  case err => rintro r rfl; exact waits (.msgErr r) rfl rfl rfl
  case errOverflow => rintro rfl; exact waits .msgErrOverflow rfl rfl rfl
  case errMem => rintro rfl; exact waits .msgErrMem rfl rfl rfl
  case yes => rintro rfl; exact waits .msgYes rfl rfl rfl
  case busy => rintro rfl; exact waits .msgBusy rfl rfl rfl
  case ok => rintro rfl; exact waits .msgOk rfl rfl rfl
  case ready => rintro rfl; exact waits .msgReady rfl rfl rfl

/-! ### A reply that is no message -/

/-- Settles O38: the reply is none of those that a phase looks for, so it meets the phase's last case. -/
theorem unknownReplies : Obligations.UnknownReplies := by
  intro s c rest text k n res more hc hd he
  obtain ⟨hyes, hbusy, hok, hdone, herr, hreason⟩ := not_reply_of_decodeMessage_error hd
  have answers {t : State} (hawake : s.clientAsleep = false)
      (ht : State.clientReply { s with env := more, txq := rest } c = t) : step s = .next t :=
    ht ▸ step_hostRead_reply he hawake hc
  refine ⟨fun hph => ?_, fun hph => ?_, fun hph => ?_, fun hph => ?_⟩
  · have hend := answers (State.clientAsleep_eq_false (by simp [hph]))
      (State.clientReply_handshake_end hph (beq_false_of_ne hyes) (beq_false_of_ne hbusy))
    rwa [herr] at hend
  · have hend := answers (State.clientAsleep_eq_false (by simp [hph]))
      (State.clientReply_transmit_end hph (beq_false_of_ne hok))
    simp only [hasText_iff] at hend
    exact hend
  · have hwait := answers (State.clientAsleep_eq_false (by simp [hph]))
      (State.clientReply_complete_wait hph (beq_false_of_ne hdone))
    rwa [hreason] at hwait
  · exact answers (State.clientAsleep_outside hph)
      (State.clientReply_outside (s := { s with env := more, txq := rest }) hph c)

/-! ### The events of the host -/

/-- `CAN_SEND` in the words of the statements (R201). -/
theorem State.clientQuery_eq (s : State) (k : Nat) : s.clientQuery k = { s with
    rxq := s.rxq ++ litCanSend ++ [0x0A], client := { s.client with phase := .handshake k } } := by
  simp [State.clientQuery, State.hostSend, eol]

/-- A host in no attempt starts one (R200, R201). -/
theorem State.clientOpen_outside {s : State} {res : ClientResult} {payload : Bytes}
    (h : s.client.phase = .idle ∨ s.client.phase = .closed res) (hn : 0 < s.cfg.nHandshake) :
    s.clientOpen payload = { s with
      rxq := s.rxq ++ litCanSend ++ [0x0A]
      client := { phase := .handshake 1, payload := payload, bytesSent := 0,
                  totalHexLength := 2 * payload.length, linkOpen := true, surfaced := [] } } := by
  have hne : s.cfg.nHandshake ≠ 0 := hn.ne'
  rcases h with h | h
  · simp [State.clientOpen, h, hne, State.clientQuery_eq]
  · simp [State.clientOpen, h, hne, State.clientQuery_eq]

section
variable {s : State} {k : Nat}

/-- The wait for the answer to a handshake expires with an attempt left (R201). -/
theorem State.clientTimeout_retry (h : s.client.phase = .handshake k) (hk : k < s.cfg.nHandshake) :
    s.clientTimeout = { s with
      rxq := s.rxq ++ litCanSend ++ [0x0A], client := { s.client with phase := .handshake (k + 1) } } := by
  simp [State.clientTimeout, h, hk, State.clientQuery_eq]

theorem State.clientTimeout_last (h : s.client.phase = .handshake k) (hk : s.cfg.nHandshake ≤ k) :
    s.clientTimeout = s.clientClose .hostTimeout := by
  simp [State.clientTimeout, h, Nat.not_lt.mpr hk]

theorem State.clientTimeout_transmit {n : Nat} {text : Bytes} (h : s.client.phase = .transmit n text) :
    s.clientTimeout = s.clientClose .hostTimeout := by
  simp [State.clientTimeout, h]

/-- The completion wait is unbounded (R204). -/
theorem State.clientTimeout_complete (h : s.client.phase = .complete) : s.clientTimeout = s := by
  simp [State.clientTimeout, h]

/-- The sleep ends with an attempt left (R201). -/
theorem State.clientWake_retry (h : s.client.phase = .backoff k) (hk : k < s.cfg.nHandshake) :
    s.clientWake = { s with
      rxq := s.rxq ++ litCanSend ++ [0x0A], client := { s.client with phase := .handshake (k + 1) } } := by
  simp [State.clientWake, h, hk, State.clientQuery_eq]

theorem State.clientWake_last (h : s.client.phase = .backoff k) (hk : s.cfg.nHandshake ≤ k) :
    s.clientWake = s.clientClose .busyRetryExhausted := by
  simp [State.clientWake, h, Nat.not_lt.mpr hk]

/-- An attempt can be abandoned in each of its phases (R210). -/
theorem State.clientAbandon_attempt {n : Nat} {text : Bytes} (h : s.client.phase = .handshake k ∨
    s.client.phase = .backoff k ∨ s.client.phase = .transmit n text ∨ s.client.phase = .complete) :
    s.clientAbandon = s.clientClose .abandoned := by
  rcases h with h | h | h | h <;> simp [State.clientAbandon, h]

end

/-- Settles O37: each event settles what the host's record makes of it in its phase. -/
theorem hostEvents : Obligations.HostEvents := by
  intro s rest payload text k n res hn
  have settles {e : EnvEvent} {t : State} (he : s.env = e :: rest)
      (ht : State.envChoice { s with env := rest } e = .settle t) : step s = .next t :=
    step_settle ((choice_cons he).trans ht)
  refine ⟨?opens, ?retries, ?expires, ?chunkExpires, ?waitsOn, ?asksAgain, ?givesUp, ?abandons⟩
  case opens => exact fun he hph => settles he (congrArg Choice.settle (State.clientOpen_outside hph hn))
  case retries => exact fun he hph hk => settles he (congrArg Choice.settle (State.clientTimeout_retry hph hk))
  case expires => exact fun he hph hk => settles he (congrArg Choice.settle (State.clientTimeout_last hph hk))
  case chunkExpires => exact fun he hph => settles he (congrArg Choice.settle (State.clientTimeout_transmit hph))
  case waitsOn => exact fun he hph => settles he (congrArg Choice.settle (State.clientTimeout_complete hph))
  case asksAgain => exact fun he hph hk => settles he (congrArg Choice.settle (State.clientWake_retry hph hk))
  case givesUp => exact fun he hph hk => settles he (congrArg Choice.settle (State.clientWake_last hph hk))
  case abandons => exact fun he hph => settles he (congrArg Choice.settle (State.clientAbandon_attempt hph))

/-! ### A raster -/

theorem State.clientOpenRaster_ok {s : State} {r : Raster} {out : Bytes} (h : fcEncode s.cfg r = .ok out) :
    s.clientOpenRaster r = State.clientOpen { s with port := .bytes out } out := by
  simp [State.clientOpenRaster, h]

theorem State.clientOpenRaster_error {s : State} {r : Raster} (h : fcEncode s.cfg r = .error .sizeMismatch) :
    s.clientOpenRaster r = { s with port := .sizeMismatch } := by
  simp [State.clientOpenRaster, h]

/-- The bytes that `FC.ENCODE` shows at the function interface are its result (R123). -/
theorem fcEncode_of_exec {s : State} {r : Raster} {out : Bytes}
    (h : exec (.fcEncode r) s = .next { s with port := .bytes out }) : fcEncode s.cfg r = .ok out := by
  cases hr : fcEncode s.cfg r with
  | ok out' =>
    have hport := h.symm.trans (exec_fcEncode_ok hr)
    simp only [Host.Outcome.next.injEq, State.mk.injEq, FuncResult.bytes.injEq, true_and, and_true] at hport
    rw [hport]
  | error e =>
    cases e
    have hport := h.symm.trans (exec_fcEncode_error hr)
    simp at hport

/-- Settles O39: the two results of `FC.ENCODE`, the first one followed by an open. -/
theorem rasterStartsAttempt : Obligations.RasterStartsAttempt := by
  intro s r out res more he hph hn
  have opens {t : State} (ht : State.clientOpenRaster { s with env := more } r = t) : step s = .next t :=
    ht ▸ step_settle (choice_cons he)
  refine ⟨fun hx => ?_, fun hsize => ?_⟩
  · have hout : fcEncode s.cfg r = .ok out := fcEncode_of_exec hx
    have hopen := State.clientOpenRaster_ok (s := { s with env := more }) hout
    exact opens (hopen.trans (State.clientOpen_outside hph hn))
  · exact opens (State.clientOpenRaster_error (fcEncode_of_size_ne hsize))

end Machine

end Sys2Proof
end

section
/-! PROOFS. The errors of the device (spec/60_exceptions.md R231 to R238): what an operation that raises one leaves, and
the one line that every way out of `Receiving` and of `Refresh` sends. -/

namespace Sys2Proof.Machine

/-! ### What raises an error -/

/-- Settles O26: the line is of the class of `RX.BADHEX`, and the error ends the session. -/
theorem badHexAborts : Obligations.BadHexAborts := by
  intro s c rest hst hline hne hbad
  have hclass : notHex s.cfg c = true := notHex_iff.mpr hbad
  exact (onLine_line _ hst hline (by simp [hne, hclass])).trans
    (congrArg _ ((s.consumed c rest).raise_sessionError (.inl rfl)))

/-- A failing answer to a call of the driver ends the session, whatever the call and whatever was to follow it (R234). -/
theorem State.driverCall_fail (s : State) (call : DriverCall) (f : Nat) (onOk : State → State) :
    s.driverCall call (.fail f) onOk = { s.replied (litErrDisp ++ s.cfg.reasonDisp.text f) with
      busy := false, state := .waitQuery, drvCalls := s.drvCalls ++ [call] } :=
  State.raise_sessionError _ (.inr (.inr ⟨f, rfl⟩))

/-- Settles O31, call by call. -/
theorem driverFailureEndsSession : Obligations.DriverFailureEndsSession := by
  intro s f hst
  exact ⟨fun hph => (exec_rfInit_eq _ hst hph).trans (congrArg _ (s.driverCall_fail _ f _)),
    fun hph => ⟨_, (exec_rfDisplay_eq _ hst hph).trans (congrArg _ (s.driverCall_fail _ f _))⟩,
    fun hph => (exec_rfSleep_eq _ hst hph).trans (congrArg _ (s.driverCall_fail _ f _))⟩

/-- Settles O32: `STATE` alone enables the entry; of what runs in `Fatal`, only the blinking is an operation. -/
theorem faultEntersFatal : Obligations.FaultEntersFatal := by
  refine ⟨fun s u hst => ?_, fun s t i hst hfunc hmsg h => ?_⟩
  · refine (whenEnabled_eq (by simp [hst]) _).trans ?_
    simp only [State.raise, State.tx_eq_replied]
    rfl
  · simpa [hfunc, hmsg] using exec_in_fatal hst h

/-! ### The ways out of a session -/

/-- A line of the device holds no EOL (R81, R92). -/
theorem eol_not_mem_deviceLine {p : Params} {c : Bytes} (h : isDeviceLine p c = true) : eol ∉ c :=
  (splitLine_some.mp (splitLine_deviceLine [] h)).1

/-- The rows of R182 that leave `Receiving` or `Refresh` are the device's own and send one line each; from `Receiving`
to `WaitQuery` it is an `ERR:` line (R238). -/
theorem linesSent_of_leavesSession {i : Instr} {st : DevState} (p : Params) (henabled : enabledIn i st)
    (hst : st = .receiving ∨ st = .refresh) (hleaves : nextState i st ≠ st) :
    i.isMessage = false ∧ ∃ c, linesSent p i = [c] ∧
      (st = .receiving → nextState i st = .waitQuery → ∃ reason, c = litErr ++ reason) := by
  cases i with
  | rxChunkLast b => exact ⟨rfl, _, rfl, nofun⟩
  | rxBadHex c => exact ⟨rfl, _, rfl, fun _ _ => ⟨_, rfl⟩⟩
  | rxOverflow b => exact ⟨rfl, _, rfl, fun _ _ => ⟨litOverflow, rfl⟩⟩
  | rfInit r | rfDisplay r =>
    cases r with
    | ok => exact absurd rfl hleaves
    | fail f => exact ⟨rfl, _, rfl, fun hreceiving => nomatch henabled.symm.trans hreceiving⟩
  | rfSleep r => cases r <;> exact ⟨rfl, _, rfl, fun hreceiving => nomatch henabled.symm.trans hreceiving⟩
  | ftEnter u => exact ⟨rfl, _, rfl, nofun⟩
  | btLeave | srDone | wqCanSend =>
    cases henabled
    simp at hst
  | _ => exact absurd rfl hleaves

/-- Settles O54: the row of the table that leaves the session sends one line, which is a line of the device. -/
theorem leavingSessionAnswers : Obligations.LeavingSessionAnswers := by
  intro i s t hp h hst hleaves
  obtain ⟨henabled, hnext⟩ := exec_transition h
  rw [hnext] at hleaves
  obtain ⟨hdevice, c, hc, herr⟩ := linesSent_of_leavesSession s.cfg henabled hst hleaves
  obtain ⟨read, hhist⟩ := exec_hist h
  have hline : isDeviceLine s.cfg c = true := isDeviceLine_linesSent hp i c (by simp [hc])
  refine ⟨c, eol_not_mem_deviceLine hline, ?_, ⟨read.map .received, ?_, by simp⟩, hnext ▸ herr⟩
  · simp [exec_txq hdevice h, hc, eol]
  · simp [hhist, hc]

end Sys2Proof.Machine
end

section
/-! PROOFS. Reset, the way from `Boot` to serving, and the hazards (spec/70_reset_and_hazards.md R270 to R289): a
session that stalls, and a refresh that runs. -/

namespace Sys2Proof.Machine

/-! ### Reset -/

/-- A reset from outside takes its event and resets the block (R270). -/
theorem step_reset {s : State} {rest : List EnvEvent} (he : s.env = .reset :: rest) :
    step s = .next (State.resetBlock { s with env := rest }) :=
  step_settle (choice_cons he)

/-- Settles O13: field by field, the state that the event of a reset leaves. -/
theorem resetEventClearsBlock : Obligations.ResetEventClearsBlock := by
  intro s rest he
  exact ⟨_, step_reset he, rfl, rfl, rfl, rfl, rfl, rfl, rfl, Memory.read_nil, rfl, rfl, rfl, rfl, rfl, rfl⟩

/-! ### From `Boot` to serving -/

section
variable {s : State}

/-- The three moves of the device before it serves, with nothing from the environment (R161 to R163). -/
theorem step_leaveBoot (he : s.env = []) (hst : s.state = .boot) (hvalid : s.fbValid = true) :
    step s = .next { s with tcnt := 0, ind := false, state := .signalReady } := by
  obtain ⟨hleave, -⟩ := stepRunsStateOperation s he
  exact (hleave hst hvalid).trans (bootLeaves s hst hvalid)

theorem step_toggle (he : s.env = []) (hst : s.state = .signalReady) (hlt : s.tcnt < s.cfg.nToggle) :
    step s = .next { s with ind := !s.ind, tcnt := s.tcnt + 1 } := by
  obtain ⟨-, htoggle, -⟩ := stepRunsStateOperation s he
  exact (htoggle hst hlt).trans (indicatorToggles s hst hlt)

theorem step_endSignal (he : s.env = []) (hst : s.state = .signalReady) (hdone : s.tcnt = s.cfg.nToggle) :
    step s = .next { s with ind := false, state := .waitQuery } := by
  obtain ⟨-, -, hend, -⟩ := stepRunsStateOperation s he
  exact (hend hst hdone).trans (signalReadyEnds s hst hdone)

end

/-- In `SignalReady` the toggles that the count still allows, one step each, and the step that ends the state. -/
theorem run_signalReady {s : State} {k : Nat} (he : s.env = []) (hst : s.state = .signalReady)
    (hk : s.tcnt + k = s.cfg.nToggle) :
    core.run (k + 1) s = .next { s with tcnt := s.cfg.nToggle, ind := false, state := .waitQuery } := by
  induction k generalizing s with
  | zero =>
    rw [run_succ 0 (step_endSignal he hst hk), run_zero, ← hk]
    rfl
  | succ k ih =>
    have hrest : s.tcnt + 1 + k = s.cfg.nToggle := by omega
    rw [run_succ _ (step_toggle he hst (by omega))]
    exact ih he hst hrest

/-- Settles O18: `BT.LEAVE` with the count at 0, then `SignalReady` by induction on the toggles that are left. -/
theorem bootReachesWaitQuery : Obligations.BootReachesWaitQuery := by
  intro s hst hvalid he
  have hleave := run_succ (s.cfg.nToggle + 1) (step_leaveBoot he hst hvalid)
  exact hleave.trans (run_signalReady he rfl (Nat.zero_add _))

/-! ### A stalled session -/

/-- `CAN_SEND` is no hex text, in either case of its digits (R84, R143). -/
theorem hxDecode_canSend (up : Bool) : hxDecode up litCanSend = .error .invalidHex := by
  revert up
  decide

/-- The state after a line of no hex text in `Receiving`: `rest` is left on `RXQ`, the session is over (R174). -/
def State.aborted (s : State) (c rest : Bytes) : State :=
  { (s.consumed c rest).replied (litErr ++ s.cfg.reasonHex) with busy := false, state := .waitQuery }

/-- `CAN_SEND` in `Receiving` ends the session (R174, R281). -/
theorem step_canSend_receiving {s : State} {rest : Bytes} (hp : s.cfg.wf = true) (he : s.env = [])
    (hst : s.state = .receiving) (hrxq : s.rxq = litCanSend ++ eol :: rest) :
    step s = .next (s.aborted litCanSend rest) := by
  have hs : splitLine s.rxq = some (litCanSend, rest) := hrxq ▸ splitLine_append rest (by decide)
  have htrim : trim litCanSend = litCanSend := by decide
  have hne : litCanSend ≠ [] := by decide
  have hbad : hxDecode s.cfg.hexUpperOk litCanSend = .error .invalidHex := hxDecode_canSend _
  have hd : decode s.cfg s.reader (trim litCanSend) = .ok (.rxBadHex litCanSend) := by
    rw [htrim, State.reader, hst]
    exact decodeChunk_badHex s.pos.toNat hne (canSend_fits hp) (notHex_iff.mpr hbad)
  rw [step_device he (State.deviceChoice_line (.inr hst) hs hd)]
  exact badHexAborts s litCanSend rest hst ⟨litCanSend, hs, htrim, canSend_fits hp⟩ hne hbad

/-- With nothing from the environment the device has its turn (log entry 9). -/
theorem step_eq_step_dts {s : State} (he : s.env = []) : step s = step { s with env := [.dts] } := by
  have hs : ({ s with env := [] } : State) = s := by rw [← he]
  have hchoice : s.choice = State.choice { s with env := [.dts] } :=
    (choice_nil he).trans (congrArg State.deviceChoice hs.symm)
  rw [step, step, hchoice]

/-- The grant of R166, with nothing from the environment. -/
theorem step_grant_of_env_nil {s : State} {rest : Bytes} (hp : s.cfg.wf = true) (he : s.env = [])
    (hst : s.state = .waitQuery) (hbusy : s.busy = false) (hrxq : s.rxq = litCanSend ++ eol :: rest) :
    step s = .next (s.granted rest []) :=
  (step_eq_step_dts he).trans (step_grant (s := { s with env := [.dts] }) hp hst hbusy hrxq rfl)

/-- Settles O59: the first `CAN_SEND` is read in `Receiving`, the second in the `WaitQuery` that it leads to. -/
theorem stalledSessionSuperseded : Obligations.StalledSessionSuperseded := by
  intro s rest hp hst he hrxq
  have hfirst : step s = .next (s.aborted litCanSend (litCanSend ++ eol :: rest)) :=
    step_canSend_receiving hp he hst (by simpa [eol] using hrxq)
  have hsecond : step (s.aborted litCanSend (litCanSend ++ eol :: rest)) = .next (State.granted _ rest []) :=
    step_grant_of_env_nil hp he rfl rfl rfl
  refine ⟨_, (run_succ 1 hfirst).trans (run_succ 0 hsecond), rfl, rfl, rfl, rfl, ?_, fun _ => rfl⟩
  simp [State.aborted, State.granted, State.replied, State.consumed]

/-! ### A refresh -/

/-- Between `s` and `t` the device has read no line, though it may have sent some, and `POS` and `FB` are the same. -/
structure State.ReadsNothing (s t : State) : Prop where
  rxq : s.rxq <+: t.rxq
  hist : ∃ sent : List Bytes, t.hist = s.hist ++ sent.map .sent
  pos : t.pos = s.pos
  fb : t.fb = s.fb

theorem State.ReadsNothing.of_hist_eq {s t : State} (hrxq : s.rxq <+: t.rxq) (hhist : t.hist = s.hist)
    (hpos : t.pos = s.pos) (hfb : t.fb = s.fb) : s.ReadsNothing t :=
  ⟨hrxq, ⟨[], by simp [hhist]⟩, hpos, hfb⟩

/-- What runs in `Refresh`: the driver's answers, the fault, the functions and the host (R182). -/
theorem exec_in_refresh {i : Instr} {s t : State} (hst : s.state = .refresh) (h : exec i s = .next t) :
    (∃ call r, i = driverInstr call r) ∨ (∃ u, i = .ftEnter u) ∨ i.isFunc = true ∨ i.isMessage = true := by
  obtain ⟨henabled, -⟩ := exec_transition h
  rw [hst] at henabled
  cases i with
  | rfInit r => exact .inl ⟨.init, r, rfl⟩
  | rfDisplay r => exact .inl ⟨.display, r, rfl⟩
  | rfSleep r => exact .inl ⟨.sleep, r, rfl⟩
  | ftEnter u => exact .inr (.inl ⟨u, rfl⟩)
  | fcQuant _ | fcPack _ _ _ _ | fcEncode _ | hxEncByte _ | hxEncode _ | hxDecPair _ _ | hxDecode _ =>
    exact .inr (.inr (.inl rfl))
  | msgYes | msgBusy | msgOk | msgErrOverflow | msgErr _ | msgErrDisp _ | msgErrMem | msgDone | msgFatal _ | msgReady =>
    exact .inr (.inr (.inr rfl))
  | _ => cases henabled

/-- An answer of the driver reads no line and stores no byte (R176 to R178). -/
theorem exec_driverInstr_readsNothing {call : RPhase} {r : DriverAnswer} {s t : State}
    (h : exec (driverInstr call r) s = .next t) : s.ReadsNothing t := by
  cases call with
  | init =>
    obtain ⟨-, -, ⟨-, rfl⟩ | ⟨f, -, rfl⟩⟩ := execRfInit_next h
    · exact .of_hist_eq List.prefix_rfl rfl rfl rfl
    · exact ⟨List.prefix_rfl, ⟨[_], rfl⟩, rfl, rfl⟩
  | display =>
    obtain ⟨-, -, ⟨-, rfl⟩ | ⟨f, -, rfl⟩⟩ := execRfDisplay_next h
    · exact .of_hist_eq List.prefix_rfl rfl rfl rfl
    · exact ⟨List.prefix_rfl, ⟨[_], rfl⟩, rfl, rfl⟩
  | sleep =>
    obtain ⟨-, -, ⟨-, rfl⟩ | ⟨f, -, rfl⟩⟩ := execRfSleep_next h
    · exact ⟨List.prefix_rfl, ⟨[_], rfl⟩, rfl, rfl⟩
    · exact ⟨List.prefix_rfl, ⟨[_], rfl⟩, rfl, rfl⟩

theorem exec_in_refresh_readsNothing {i : Instr} {s t : State} (hst : s.state = .refresh) (h : exec i s = .next t) :
    s.ReadsNothing t := by
  obtain ⟨call, r, rfl⟩ | ⟨u, rfl⟩ | hi | hi := exec_in_refresh hst h
  · exact exec_driverInstr_readsNothing h
  · obtain ⟨-, rfl⟩ := execFtEnter_next h
    exact ⟨List.prefix_rfl, ⟨[_], rfl⟩, rfl, rfl⟩
  · obtain ⟨r, hr⟩ := exec_func hi s
    cases hr.symm.trans h
    exact .of_hist_eq List.prefix_rfl rfl rfl rfl
  · have hsame := exec_message_changesOnly hi h
    exact .of_hist_eq (exec_message_rxq hi h) (hsame .hist (by decide)) (hsame .pos (by decide)) (hsame .fb (by decide))

/-- In `Refresh` every step but a reset reads nothing: the host's own events append to `RXQ`. -/
theorem step_in_refresh_readsNothing {s t : State} (hst : s.state = .refresh) (hreset : s.env.head? ≠ some .reset)
    (hstep : step s = .next t) : s.ReadsNothing t := by
  obtain ⟨s', rfl, hcases⟩ := step_cases hstep
  obtain ⟨i, hx⟩ | ⟨hhead, -⟩ | ⟨out, c, r, rfl⟩ | ⟨raw, rest, -, out, c, r, rfl⟩ := hcases
  · obtain ⟨hrxq, hhist, hpos, hfb⟩ := exec_in_refresh_readsNothing (s := { s with env := s.env.tail }) hst hx
    exact ⟨hrxq, hhist, hpos, hfb⟩
  · exact absurd hhead hreset
  · exact .of_hist_eq (List.prefix_append _ _) rfl rfl rfl
  · exact .of_hist_eq (List.prefix_append _ _) rfl rfl rfl

/-- Settles O56: what the history gains in the step are lines sent, and the cursor and the memory stay as a whole. -/
theorem refreshIsExclusive : Obligations.RefreshIsExclusive := by
  intro s t hst hreset hstep
  obtain ⟨hrxq, ⟨sent, hhist⟩, hpos, hfb⟩ := step_in_refresh_readsNothing hst hreset hstep
  exact ⟨hrxq, by simp [hhist], hpos, fun a => by rw [hfb]⟩

end Sys2Proof.Machine
end
